-- ==== Sys2Proof/Word.lean ====
section
/-! DEFINITION. The words of the block: bytes, command and response words, node indices and node entries
(00_scope.md R6: SYM_BITS, CMD_BITS, RSP_BITS, NODE_IDX_BITS, NODE_BITS). -/

namespace Sys2Proof

/-- One byte of SINK, SRC, `w_buf` or `r_buf`. -/
abbrev Byte := BitVec 8

/-- A symbol: "one byte value" (R6, SYM_BITS = 8). -/
abbrev Symbol := BitVec 8

/-- A command word (R80). -/
abbrev CmdWord := BitVec 16

/-- A response word (R83). -/
abbrev RspWord := BitVec 16

/-- A node index: 9 bits, every value valid (R50). -/
abbrev NodeIdx := BitVec 9

/-- One NODE entry: 27 bits (R84). -/
abbrev NodeWord := BitVec 27

end Sys2Proof
end

