-- ==== Sys2Proof/Config.lean ====
section
/-! DEFINITION. What an implementation fixes (00_scope.md R6) and the free values: what the spec leaves `any`
after a failed transaction (93_implementation_defined.md U7). CHUNK_BYTES, the one OPEN parameter, is a field of
State that no step changes (assumption log 2), so that a statement about every state is about every value of it. -/

namespace Sys2Proof.Config

/-- The suggested CHUNK_BYTES (R6: "OPEN, integer ≥ 1, suggested 1000"). Only State.reset uses it. -/
def suggestedChunkBytes : Nat := 1000

/-- R6, MAX_LEAVES. -/
def maxLeaves : Nat := 256

/-- R6, MAX_INTERNAL: the most internal nodes a walk accepts (R158). -/
def maxInternal : Nat := 255

/-- R6, MAX_NODES. -/
def maxNodes : Nat := 511

/-- R6, NODE_ENTRIES. -/
def nodeEntries : Nat := 512

/-- Free value (U7, log 7): `w_buf` after the n-th failed drain (R112). Nothing constrains it. -/
opaque anyWBuf : Nat → List Byte

/-- Free value (U7, log 7): `w_acc` after the n-th failed drain (R112). -/
opaque anyWAcc : Nat → Byte

/-- Free value (U7, log 7): `w_cnt` after the n-th failed drain (R112). -/
opaque anyWCnt : Nat → Fin 8

/-- Free value (U7, log 7): `r_buf` after the n-th failed refill (R131). -/
opaque anyRBuf : Nat → List Byte

/-- Free value (U7, log 7): `r_pos` after the n-th failed refill (R131). -/
opaque anyRPos : Nat → Nat

/-- Free value (U7, log 7): `r_bit` after the n-th failed refill (R131). -/
opaque anyRBit : Nat → Fin 8

end Sys2Proof.Config
end

