-- ==== Sys2Proof/Syntax.lean ====
section
/-! DEFINITION. The instructions, one constructor per row of spec/opcode_table.json; the moves the host makes; and
the lines of the textual command syntax (30_encoding.md R94, R95). -/

namespace Sys2Proof

/-- One constructor per row of the opcode table. The first eight are the host's commands (R81). LEAF and INTERNAL
are the records of a serialized tree (R88), which TDES fetches through the bit reader; NODE_LEAF and NODE_INTERNAL
are the node entries (R84), which TSER fetches from NODE (assumption log 5). -/
inductive Instr where
  /-- WBIT b: write one bit (R115). -/
  | wbit (b : Bool)
  /-- WFLUSH: pad to a byte boundary and move everything to SINK (R116). -/
  | wflush
  /-- WRST: return the writer to its reset state (R117). -/
  | wrst
  /-- RBIT: read one bit (R133). -/
  | rbit
  /-- RALIGN: skip to the next byte boundary (R134). -/
  | ralign
  /-- RRST: return the reader to its reset state (R135). -/
  | rrst
  /-- TSER root: serialize the tree whose root is at NODE index `root` (R153). -/
  | tser (root : NodeIdx)
  /-- TDES: read one serialized tree and build it in NODE from index 0 (R154). -/
  | tdes
  /-- LEAF: the record of a leaf (R88), as TDES meets it (R154). -/
  | leaf (sym : Symbol)
  /-- INTERNAL: the record of an internal node (R88), as TDES meets it (R154). -/
  | internal
  /-- NODE_LEAF: the entry of a leaf (R84), as TSER meets it (R153); `left` and `right` are ignored on read. -/
  | nodeLeaf (sym : Symbol) (left right : NodeIdx)
  /-- NODE_INTERNAL: the entry of an internal node (R84), as TSER meets it (R153); `sym` is ignored on read. -/
  | nodeInternal (sym : Symbol) (left right : NodeIdx)
deriving DecidableEq, Repr

/-- One record of a serialized tree (R88): what a bit string holds where a record is due. -/
inductive Record where
  | leaf (sym : Symbol)
  | internal
deriving DecidableEq, Repr

/-- The instruction a record is. -/
def Record.instr : Record → Instr
  | .leaf sym => .leaf sym
  | .internal => .internal

/-- The eight rows that are commands of the host (R81), as against the four data formats. -/
def Instr.isCommand : Instr → Bool
  | .wbit _ => true
  | .wflush => true
  | .wrst => true
  | .rbit => true
  | .ralign => true
  | .rrst => true
  | .tser _ => true
  | .tdes => true
  | .leaf _ => false
  | .internal => false
  | .nodeLeaf _ _ _ => false
  | .nodeInternal _ _ _ => false

/-- What the host can do, each an atomic step between commands (00_scope.md R12, R13; 20_memory.md R51;
70_reset_and_hazards.md R200, R213). -/
inductive HostMove where
  /-- Issue one command word, legal or not (R80). -/
  | command (w : CmdWord)
  /-- HostNodeRead(i) (R51). -/
  | nodeRead (i : NodeIdx)
  /-- HostNodeWrite(i, v) (R51). -/
  | nodeWrite (i : NodeIdx) (v : NodeWord)
  /-- Block reset (R200). -/
  | blockReset
  /-- Replace or reposition SINK, so that it holds `bs` (R213). -/
  | placeSink (bs : List Byte)
  /-- Replace SRC by `bs` and put the read position at `pos` (R213). -/
  | placeSrc (bs : List Byte) (pos : Nat)
deriving DecidableEq, Repr

/-- One line of a textual command stream: a command or a `node` directive (R94) or a pseudo-instruction (R95).
Numbers are as written, so a line can be ill-formed. -/
inductive Line where
  | wbit (b : Nat)
  | wflush
  | wrst
  | rbit
  | ralign
  | rrst
  | tser (root : Nat)
  | tdes
  /-- `node <i>, leaf <sym>` (R94). -/
  | nodeLeaf (i sym : Nat)
  /-- `node <i>, int <left>, <right>` (R94). -/
  | nodeInt (i left right : Nat)
  /-- `wbits <n>, <v>` (R95). -/
  | wbits (n v : Nat)
  /-- `wbyte <v>` (R95). -/
  | wbyte (v : Nat)
  /-- `wu32 <v>` (R95). -/
  | wu32 (v : Nat)
  /-- `rbits <n>` (R95). -/
  | rbits (n : Nat)
  /-- `rbyte` (R95). -/
  | rbyte
  /-- `ru32` (R95). -/
  | ru32
  /-- `wcode <bitstring>` (R95). The empty list of bits is allowed: DESIGN CHOICE, assumption log 22. -/
  | wcode (bits : List Bool)
deriving DecidableEq, Repr

end Sys2Proof
end

