-- ==== Sys2Proof/WellFormed.lean ====
section
/-! DEFINITION. Well-formedness. The operand widths of R80 to R84 are in the types of Instr's fields, so every Instr
is well-formed; the checks that can fail are those on what the host writes down: a move's read position (R37) and
the numbers of a textual line (R94, R95). -/

namespace Sys2Proof

/-- Every operand of an instruction has its width in its type (R82, R84, R88): no term of Instr is ill-formed. -/
def Instr.wellFormed : Instr → Bool
  | .wbit _ => true
  | .wflush => true
  | .wrst => true
  | .rbit => true
  | .ralign => true
  | .rrst => true
  | .tser _ => true
  | .tdes => true
  | .leaf _ => true
  | .internal => true
  | .nodeLeaf _ _ _ => true
  | .nodeInternal _ _ _ => true

/-- A read position lies in 0 ≤ `src_pos` ≤ len(SRC) (10_state.md R37). -/
def HostMove.wellFormed : HostMove → Bool
  | .command _ => true
  | .nodeRead _ => true
  | .nodeWrite _ _ => true
  | .blockReset => true
  | .placeSink _ => true
  | .placeSrc bs pos => decide (pos ≤ bs.length)

/-- The ranges R94 and R95 give the numbers of a line. R95 gives the bitstring of `wcode` none, so every one is allowed, the
empty one too: DESIGN CHOICE, assumption log 22. -/
def Line.wellFormed : Line → Bool
  | .wbit b => decide (b ≤ 1)
  | .wflush => true
  | .wrst => true
  | .rbit => true
  | .ralign => true
  | .rrst => true
  | .tser root => decide (root ≤ 511)
  | .tdes => true
  | .nodeLeaf i sym => decide (i ≤ 511 ∧ sym ≤ 255)
  | .nodeInt i left right => decide (i ≤ 511 ∧ left ≤ 511 ∧ right ≤ 511)
  | .wbits n v => decide (1 ≤ n ∧ n ≤ 32 ∧ v < 2 ^ n)
  | .wbyte v => decide (v < 2 ^ 8)
  | .wu32 v => decide (v < 2 ^ 32)
  | .rbits n => decide (1 ≤ n ∧ n ≤ 32)
  | .rbyte => true
  | .ru32 => true
  | .wcode _ => true

end Sys2Proof
end

