-- ==== Sys2Proof/Decode.lean ====
section
/-! DEFINITION. Decoding and encoding: command words (30_encoding.md R80 to R82, R86), node entries (R84) and
serialized records (R88, R90), and the opcode table as data. -/

namespace Sys2Proof

/-! ## Bits, most significant first -/

/-- The bits of a word, most significant first: bits8 of R89, and the order WriteBits sends them (R114). -/
def msbBits {n : Nat} (v : BitVec n) : List Bool :=
  (List.range n).map v.getMsbD

/-- The number whose bits, most significant first, are `bs`: the sum of bit_i · 2^(n − 1 − i) (R95, R132). -/
def natOfMsbBits (bs : List Bool) : Nat :=
  bs.foldl (fun acc b => 2 * acc + b.toNat) 0

/-- The symbol whose first bit is symbol bit 7 (20_memory.md R57). -/
def symbolOfBits (bs : List Bool) : Symbol :=
  BitVec.ofNat 8 (natOfMsbBits bs)

/-! ## Fields -/

/-- Field `op`, bits 15:12 of a command word (R80). -/
def cmdOp (w : CmdWord) : BitVec 4 := w.extractLsb' 12 4

/-- Field `z`, bits 11:9 of a command word (R80). -/
def cmdZ (w : CmdWord) : BitVec 3 := w.extractLsb' 9 3

/-- Field `arg`, bits 8:0 of a command word, taken as it stands (R80, R82). -/
def cmdArg (w : CmdWord) : BitVec 9 := w.extractLsb' 0 9

/-- Field `kind`, bit 26 of a node entry: 0 leaf, 1 internal (R84). -/
def entryKind (e : NodeWord) : Bool := e.getLsbD 26

/-- Field `sym`, bits 25:18 of a node entry (R84). -/
def entrySym (e : NodeWord) : Symbol := e.extractLsb' 18 8

/-- Field `left`, bits 17:9 of a node entry (R84). -/
def entryLeft (e : NodeWord) : NodeIdx := e.extractLsb' 9 9

/-- Field `right`, bits 8:0 of a node entry (R84). -/
def entryRight (e : NodeWord) : NodeIdx := e.extractLsb' 0 9

/-- A node entry from its four fields, {kind, sym, left, right} (R84). -/
def mkEntry (kind : Bool) (sym : Symbol) (left right : NodeIdx) : NodeWord :=
  BitVec.ofBool kind ++ sym ++ left ++ right

/-! ## The opcode table (R81) -/

/-- A command row of the opcode table. -/
structure OpRow where
  mnemonic : String
  mask : CmdWord
  pattern : CmdWord
deriving DecidableEq, Repr

/-- "a word w selects the command when `w & mask == match`" (R81). -/
def OpRow.selects (r : OpRow) (w : CmdWord) : Bool := w &&& r.mask == r.pattern

/-- The eight command rows of R81. -/
def opcodeTable : List OpRow :=
  [⟨"WBIT", 0xFFFE#16, 0x1000#16⟩, ⟨"WFLUSH", 0xFFFF#16, 0x2000#16⟩, ⟨"WRST", 0xFFFF#16, 0x3000#16⟩,
   ⟨"RBIT", 0xFFFF#16, 0x4000#16⟩, ⟨"RALIGN", 0xFFFF#16, 0x5000#16⟩, ⟨"RRST", 0xFFFF#16, 0x6000#16⟩,
   ⟨"TSER", 0xFE00#16, 0x8000#16⟩, ⟨"TDES", 0xFFFF#16, 0x9000#16⟩]

/-! ## Decoding -/

/-- Why a code is no instruction. The first three are the cases of R86. -/
inductive Illegal where
  /-- `op` is 0x0, 0x7 or 0xA to 0xF. -/
  | unusedOp (op : BitVec 4)
  /-- `z` is not 000. -/
  | nonzeroZ (z : BitVec 3)
  /-- A bit of `arg` that must be 0 is not. -/
  | nonzeroArg (arg : BitVec 9)
  /-- The bits end before the record does (R90). -/
  | truncatedRecord
  /-- Bits are left after one whole record. -/
  | bitsAfterRecord
deriving DecidableEq, Repr

/-- What the decoder makes of a code. -/
inductive Decoded where
  | instr (i : Instr)
  | illegal (why : Illegal)
deriving DecidableEq, Repr

/-- The instruction, if there is one. -/
def Decoded.toOption : Decoded → Option Instr
  | .instr i => some i
  | .illegal _ => none

/-- The `op` values that select a command (R81). -/
def opUsed (op : BitVec 4) : Bool :=
  op == 1#4 || op == 2#4 || op == 3#4 || op == 4#4 || op == 5#4 || op == 6#4 || op == 8#4 || op == 9#4

/-- Which case of R86 an illegal word is. -/
def illegalReason (w : CmdWord) : Illegal :=
  if !opUsed (cmdOp w) then .unusedOp (cmdOp w)
  else if cmdZ w != 0#3 then .nonzeroZ (cmdZ w)
  else .nonzeroArg (cmdArg w)

/-- A command word, by the mask and match columns of R81; total. -/
def decodeCommand (w : CmdWord) : Decoded :=
  if w &&& 0xFFFE#16 = 0x1000#16 then .instr (.wbit ((cmdArg w).getLsbD 0))
  else if w &&& 0xFFFF#16 = 0x2000#16 then .instr .wflush
  else if w &&& 0xFFFF#16 = 0x3000#16 then .instr .wrst
  else if w &&& 0xFFFF#16 = 0x4000#16 then .instr .rbit
  else if w &&& 0xFFFF#16 = 0x5000#16 then .instr .ralign
  else if w &&& 0xFFFF#16 = 0x6000#16 then .instr .rrst
  else if w &&& 0xFE00#16 = 0x8000#16 then .instr (.tser (cmdArg w))
  else if w &&& 0xFFFF#16 = 0x9000#16 then .instr .tdes
  else .illegal (illegalReason w)

/-- A node entry: every 27-bit word is one (R84). -/
def decodeEntry (e : NodeWord) : Instr :=
  if entryKind e then .nodeInternal (entrySym e) (entryLeft e) (entryRight e)
  else .nodeLeaf (entrySym e) (entryLeft e) (entryRight e)

/-- The first record of a bit string and the bits after it; the length is told from the first bit (R90). -/
def decodeRecord : List Bool → Option (Record × List Bool)
  | true :: rest => some (.internal, rest)
  | false :: rest =>
    if rest.length < 8 then none else some (.leaf (symbolOfBits (rest.take 8)), rest.drop 8)
  | [] => none

/-- The three shapes an instruction is encoded in: the formats C16, NODE27 and TREE_RECORD of the opcode table. -/
inductive Code where
  | command (w : CmdWord)
  | entry (e : NodeWord)
  | record (bits : List Bool)
deriving DecidableEq, Repr

/-- Decoding, total. A record stands alone here: bits after it are refused by name. -/
def decode : Code → Decoded
  | .command w => decodeCommand w
  | .entry e => .instr (decodeEntry e)
  | .record bits =>
    match decodeRecord bits with
    | some (r, []) => .instr r.instr
    | some (_, _ :: _) => .illegal .bitsAfterRecord
    | none => .illegal .truncatedRecord

/-! ## Encoding -/

/-- The record of a leaf: flag 0, then the symbol, most significant bit first (R88). -/
def leafRecord (sym : Symbol) : List Bool := false :: msbBits sym

/-- The record of an internal node: flag 1 (R88). -/
def internalRecord : List Bool := [true]

/-- A command word with its three fields, {op, z, arg} (R80). -/
def mkCommand (op : BitVec 4) (arg : BitVec 9) : CmdWord := op ++ 0#3 ++ arg

/-- The code of an instruction (R81, R84, R88). -/
def encode : Instr → Code
  | .wbit b => .command (mkCommand 0x1#4 ((BitVec.ofBool b).setWidth 9))
  | .wflush => .command (mkCommand 0x2#4 0#9)
  | .wrst => .command (mkCommand 0x3#4 0#9)
  | .rbit => .command (mkCommand 0x4#4 0#9)
  | .ralign => .command (mkCommand 0x5#4 0#9)
  | .rrst => .command (mkCommand 0x6#4 0#9)
  | .tser root => .command (mkCommand 0x8#4 root)
  | .tdes => .command (mkCommand 0x9#4 0#9)
  | .leaf sym => .record (leafRecord sym)
  | .internal => .record internalRecord
  | .nodeLeaf sym left right => .entry (mkEntry false sym left right)
  | .nodeInternal sym left right => .entry (mkEntry true sym left right)

/-! ## The opcode table's numbering of bits -/

/-- The code of which the opcode table's row has `nbits` bits, numbered with bit 0 least significant (assumption log
13): 16 bits are a command word, or, with eight zeros above, the 9 bits of a leaf record in whole bytes (no command row
has `op` 0x0); 27 bits, or 32 with five zeros above them, a node entry; 9 bits a leaf record and 1 bit, or 8 with seven
zeros above it, an internal record, the first stream bit being the most significant. -/
def codeOfTableWord (nbits w : Nat) : Option Code :=
  if nbits = 16 then
    if w < 2 ^ 8 then some (.record (msbBits (BitVec.ofNat 9 w)))
    else if w < 2 ^ 16 then some (.command (BitVec.ofNat 16 w)) else none
  else if nbits = 27 ∨ nbits = 32 then (if w < 2 ^ 27 then some (.entry (BitVec.ofNat 27 w)) else none)
  else if nbits = 9 then (if w < 2 ^ 9 then some (.record (msbBits (BitVec.ofNat 9 w))) else none)
  else if nbits = 1 ∨ nbits = 8 then (if w < 2 then some (.record (msbBits (BitVec.ofNat 1 w))) else none)
  else none

/-- The instruction the decoder reads from a row's word, numbered as the opcode table numbers it. -/
def decodeTableWord (nbits w : Nat) : Option Instr :=
  match codeOfTableWord nbits w with
  | some c => (decode c).toOption
  | none => none

end Sys2Proof
end

