-- ==== Sys2Proof/Machine/State.lean ====
section
/-! DEFINITION. The state of one BSTC instance and of the environment its rules read and write (10_state.md R20 to
R38), and the reasons a step can stop. Field names are the spec's. -/

namespace Sys2Proof.Machine

/-- The bit writer BW (10_state.md R22 to R25). `w_len` is the length of `w_buf`. -/
structure Bw where
  /-- The byte under assembly, filled from bit 7 downward (R22). -/
  w_acc : Byte
  /-- How many bits of `w_acc` are filled: 3 bits, 0 to 7 (R23). -/
  w_cnt : Fin 8
  /-- The complete bytes not yet handed to SINK, oldest first (R24). -/
  w_buf : List Byte
  /-- Sticky: a SinkWrite answered fail (R25). -/
  w_fail : Bool
deriving DecidableEq, Repr

/-- The bit reader BR (R27 to R29). `r_len` is the length of `r_buf`. -/
structure Br where
  /-- The bytes of the most recent refill, in source order (R27). -/
  r_buf : List Byte
  /-- The byte cursor (R28). -/
  r_pos : Nat
  /-- The bit cursor: 3 bits, 0 to 7 (R28). -/
  r_bit : Fin 8
  /-- Sticky: a SrcRead answered End (R29). -/
  r_eos : Bool
  /-- Sticky: a SrcRead answered Fail (R29). -/
  r_fail : Bool
deriving DecidableEq, Repr

/-- The transient state of the tree codec TC (R32). `t_sp` is the length of `t_stk`. -/
structure Tc where
  /-- The node being visited by TSER. -/
  t_cur : NodeIdx
  /-- The next free index during TDES, 0 to 511. -/
  t_next : Nat
  /-- Internal nodes seen so far, 0 to 255. -/
  t_nint : Nat
  /-- Leaves seen so far, 0 to 256. -/
  t_nleaf : Nat
  /-- The stack of node indices, its top first. -/
  t_stk : List NodeIdx
deriving DecidableEq, Repr

/-- Which codec loop is between two passes. The spec's commands are atomic (00_scope.md R12): before and after every
command it is `idle`. The model's own field (assumption log 5). -/
inductive Phase where
  | idle
  /-- TSER is about to visit the entry at `t_cur`. -/
  | serializing
  /-- TDES is about to read a record. -/
  | deserializing
deriving DecidableEq, Repr

/-- What the sink environment answers a SinkWrite (20_memory.md R53). -/
inductive SinkAnswer where
  | ok
  /-- Failure, with the first `kept` bytes of the chunk appended (all of it if `kept` is larger). -/
  | fail (kept : Nat)
deriving DecidableEq, Repr

/-- What the source environment answers a SrcRead (20_memory.md R54). -/
inductive SrcAnswer where
  /-- As many as `k` bytes, brought into R54's range 1 to min(max, bytes left); End when no byte is left. -/
  | data (k : Nat)
  /-- Failure, with `src_pos` advanced by `advance`, at most min(max, bytes left). -/
  | fail (advance : Nat)
deriving DecidableEq, Repr

/-- A SrcRead's answer as 95_test_vectors.md lists it under "reads". -/
inductive SrcReply where
  | data (count : Nat)
  | ended
  | failed
deriving DecidableEq, Repr

/-- The byte sink (R37, R53). -/
structure Sink where
  /-- SINK: the bytes accepted, in order. -/
  bytes : List Byte
  /-- The answers to come; when none is listed, `ok` (assumption log 1). -/
  answers : List SinkAnswer
  /-- The chunks offered so far, oldest first (assumption log 10). -/
  tx : List (List Byte)
  /-- How many free values have been drawn after failed drains (assumption log 7). -/
  draws : Nat
deriving DecidableEq, Repr

/-- The byte source (R37, R54). -/
structure Src where
  /-- SRC: the bytes the source holds. -/
  bytes : List Byte
  /-- How many of them have been handed to the reader. -/
  src_pos : Nat
  /-- The answers to come; when none is listed, the most bytes allowed (assumption log 1). -/
  answers : List SrcAnswer
  /-- The answers given so far, oldest first (assumption log 10). -/
  tx : List SrcReply
  /-- How many free values have been drawn after failed refills (assumption log 7). -/
  draws : Nat
deriving DecidableEq, Repr

/-- The host's side: what it still has to do and what it has received (00_scope.md R13, R14). -/
structure HostPort where
  /-- The moves to come, in the order the host makes them (assumption log 6). -/
  pending : List HostMove
  /-- The response words received, oldest first (R83). -/
  responses : List RspWord
  /-- The entries received from HostNodeRead, oldest first (R51). -/
  nodeReads : List NodeWord
deriving DecidableEq, Repr

/-- NODE: the entries written since block reset, by index, indices strictly rising. An index not listed holds no
value (10_state.md R36, U3). -/
abbrev Arena := List (Nat × NodeWord)

/-- One BSTC instance with its host and its environment. -/
structure State where
  /-- CHUNK_BYTES (00_scope.md R6); no step changes it (10_state.md R34). -/
  chunkBytes : Nat
  bw : Bw
  br : Br
  tc : Tc
  node : Arena
  phase : Phase
  sink : Sink
  src : Src
  host : HostPort
deriving DecidableEq, Repr

/-- Why the machine stops with a fault. -/
inductive Fault where
  /-- TSER or the host read a NODE entry that holds no value: nothing has written it since block reset, or a failed
  TDES has left it undefined (93_implementation_defined.md U3, U4). Raised by `memRead`. Safe: the model stops where
  the block goes on with an undefined value. -/
  | unwrittenNode (i : NodeIdx)
deriving DecidableEq, Repr

/-- Why a step has no meaning. -/
inductive Refusal where
  /-- An instruction with no meaning in the model. No arm of exec raises it. Safe. -/
  | notModelled (mnemonic : String)
  /-- The host replaced or repositioned SINK while BW is not in its reset state (R213; U11 "the host has no such
  move"). Raised by the move `placeSink`. Safe for the block; what a real host then gets is not modelled. -/
  | sinkInUse
  /-- The host replaced or repositioned SRC while BR is not in its reset state (R213; U11). Raised by the move
  `placeSrc`. Safe in the same sense. -/
  | srcInUse
  /-- The host placed the read position beyond the end of SRC, which R37 excludes. Raised by the move `placeSrc`.
  Safe in the same sense. -/
  | srcPositionOutside
deriving DecidableEq, Repr

/-- What every instruction and every step answers. -/
abbrev Result := Host.Outcome State Fault Refusal

/-- BW after block reset and after WRST (R36). -/
def Bw.reset : Bw := { w_acc := 0x00#8, w_cnt := 0, w_buf := [], w_fail := false }

/-- BR after block reset and after RRST (R36). -/
def Br.reset : Br := { r_buf := [], r_pos := 0, r_bit := 0, r_eos := false, r_fail := false }

/-- TC's transient state after block reset: unspecified (R36), DESIGN CHOICE all zero (assumption log 4). -/
def Tc.reset : Tc := { t_cur := 0#9, t_next := 0, t_nint := 0, t_nleaf := 0, t_stk := [] }

/-- The state right after block reset (R36) with an empty SINK, an empty SRC, no answers listed and nothing asked by
the host yet (assumption logs 1, 2, 4, 6, 8, 11). -/
def State.reset : State where
  chunkBytes := Config.suggestedChunkBytes
  bw := Bw.reset
  br := Br.reset
  tc := Tc.reset
  node := []
  phase := .idle
  sink := { bytes := [], answers := [], tx := [], draws := 0 }
  src := { bytes := [], src_pos := 0, answers := [], tx := [], draws := 0 }
  host := { pending := [], responses := [], nodeReads := [] }

end Sys2Proof.Machine
end

