-- ==== Sys2Proof/Machine/Operands.lean ====
section
/-! DEFINITION. How bits are taken from and put into bytes (00_scope.md R9; 20_memory.md R56), and how node indices
are formed (43_command_classes.md R191). -/

namespace Sys2Proof.Machine

/-- BIT_ORDER = MsbFirst (R9, R56): the bit position in a byte of the k-th stream bit of that byte, 7 − k. -/
def bitPosition (k : Fin 8) : Nat := 7 - k.val

/-- `byte[7 − k]`: the k-th stream bit of a byte (R56, R131). -/
def streamBit (byte : Byte) (k : Fin 8) : Bool := byte.getLsbD (bitPosition k)

/-- `byte[7 − k] <- b` (R111): the bit is assigned, whatever stood there. -/
def setStreamBit (byte : Byte) (k : Fin 8) (b : Bool) : Byte :=
  let one : Byte := 1#8 <<< bitPosition k
  if b then byte ||| one else byte &&& ~~~one

/-- (8 − k) mod 8: the bits left in the current byte when k of them are done (R193). -/
def bitsToBoundary (k : Fin 8) : Nat := (8 - k.val) % 8

/-- The index of entry number n of NODE, 9 bits (R50). -/
def nodeIdx (n : Nat) : NodeIdx := BitVec.ofNat 9 n

end Sys2Proof.Machine
end

