-- ==== Sys2Proof/Machine/Flags.lean ====
section
/-! DEFINITION. The status flags `w_fail`, `r_eos` and `r_fail` (10_state.md R25, R29, R33), the status codes and the
response word (30_encoding.md R83, R85). -/

namespace Sys2Proof.Machine

/-- The status of a response (R85). -/
inductive Status where
  | ok
  | eos
  | ioErr
  | corruptTree
  | badTree
  | illegal
deriving DecidableEq, Repr

/-- The status codes of R85. -/
def Status.code : Status → BitVec 4
  | .ok => 0x0#4
  | .eos => 0x1#4
  | .ioErr => 0x2#4
  | .corruptTree => 0x3#4
  | .badTree => 0x4#4
  | .illegal => 0x5#4

/-- A response word, {status, z, data} (R83): `data` is 0 whenever the status is not OK. -/
def responseWord (st : Status) (data : BitVec 9) : RspWord :=
  st.code ++ 0#3 ++ (if st = .ok then data else 0#9)

/-- Field `status` of a response word (R83). -/
def rspStatus (r : RspWord) : BitVec 4 := r.extractLsb' 12 4

/-- Field `data` of a response word (R83). -/
def rspData (r : RspWord) : BitVec 9 := r.extractLsb' 0 9

/-- `w_fail <- 1`: a SinkWrite answered fail (R25, R112). -/
def setWFail (s : State) : State := { s with bw := { s.bw with w_fail := true } }

/-- `r_fail <- 1`: a SrcRead answered Fail (R29, R131). -/
def setRFail (s : State) : State := { s with br := { s.br with r_fail := true } }

/-- `r_eos <- 1`: a SrcRead answered End (R29, R131). -/
def setREos (s : State) : State := { s with br := { s.br with r_eos := true } }

end Sys2Proof.Machine
end

