-- ==== Sys2Proof/Machine/Ops.lean ====
section
/-! DEFINITION. The shared operations: NODE accesses, sink and source transactions, the internal operations of the
writer and the reader, answering the host, raising an exception and recovering from one. -/

namespace Sys2Proof.Machine

/-! ## NODE (20_memory.md R50, R51) -/

/-- The entry at an index, none if it holds no value. -/
def Arena.get? (m : Arena) (i : Nat) : Option NodeWord :=
  match m with
  | [] => none
  | (j, v) :: rest => if j = i then some v else Arena.get? rest i

/-- Replace the entry at an index, keeping the indices strictly rising. -/
def Arena.put (m : Arena) (i : Nat) (v : NodeWord) : Arena :=
  match m with
  | [] => [(i, v)]
  | (j, w) :: rest =>
    if i < j then (i, v) :: (j, w) :: rest
    else if i = j then (i, v) :: rest
    else (j, w) :: Arena.put rest i v

/-- Entries 0 to 510 hold `any`: they are as never written (42_treecodec.md R161, U4). Entry 511 stays. -/
def Arena.spoil (m : Arena) : Arena := m.filter fun c => decide (510 < c.1)

/-- The canonical form: indices strictly rising, each below 512 (R50). -/
def Arena.wf (m : Arena) : Bool :=
  decide (m.Pairwise fun a b => a.1 < b.1) && m.all fun c => decide (c.1 < Config.nodeEntries)

/-- `MemRead(i, 1)`: none where the entry holds no value (R51). -/
def memRead (s : State) (i : NodeIdx) : Option NodeWord := Arena.get? s.node i.toNat

/-- `MemWrite(i, 1, v)` (R51). -/
def memWrite (i : NodeIdx) (v : NodeWord) (s : State) : State := { s with node := Arena.put s.node i.toNat v }

/-- NODE[0..510] <- any (R161, R175). -/
def spoilNode (s : State) : State := { s with node := Arena.spoil s.node }

/-! ## Answering the host; exceptions (60_exceptions.md) -/

/-- `respond(status, data)`: the command ends with this response word (00_scope.md R11, R83). -/
def respond (st : Status) (data : BitVec 9) (s : State) : State :=
  { s with
    phase := .idle
    host := { s.host with responses := s.host.responses ++ [responseWord st data] } }

/-- The exceptions a command can raise (R171, R173, R177). `ILLEGAL` (R178) is raised before there is a command. -/
inductive Exc where
  | ioError
  | corruptTree
  | badTree
deriving DecidableEq, Repr

/-- The status that reports an exception (R170). -/
def Exc.status : Exc → Status
  | .ioError => .ioErr
  | .corruptTree => .corruptTree
  | .badTree => .badTree

/-- TAKING AN EXCEPTION: `raise E` stops the command, state written before it stays, and the host gets E's status with
data 0 (00_scope.md R11, 60_exceptions.md R175). Nothing else is saved, no mode changes and nothing is vectored. -/
def raise (e : Exc) (s : State) : State := respond e.status 0#9 s

/-- An exception inside the loop of TDES, which also leaves NODE[0..510] undefined (R161, R175). -/
def raiseInTdes (e : Exc) (s : State) : State := raise e (spoilNode s)

/-- The answer to a word that is no command (R178): nothing else changes (assumption log 14). -/
def answerIllegal (s : State) : State := respond .illegal 0#9 s

/-- RECOVERY of the writer side (R182): the unit returns to its reset state, nothing is written, SINK stays (R117). -/
def resetWriter (s : State) : State := { s with bw := Bw.reset }

/-- RECOVERY of the reader side (R182): the unit returns to its reset state, `src_pos` stays (R135). -/
def resetReader (s : State) : State := { s with br := Br.reset }

/-- Block reset (70_reset_and_hazards.md R200): BW, BR and TC as in R36, every NODE entry without a value; SINK, SRC
and `src_pos` unchanged. It comes only between commands (assumption log 12). -/
def blockReset (s : State) : State :=
  { s with bw := Bw.reset, br := Br.reset, tc := Tc.reset, node := [], phase := .idle }

/-- What an internal operation does: it ends with a value, or it raises. Either way it leaves a state. -/
inductive Res (α : Type) where
  | done (a : α) (s : State)
  | raised (e : Exc) (s : State)

/-- Go on after an internal operation that did not raise; an exception passes outward unchanged (R183). -/
def Res.bind {α β : Type} (r : Res α) (f : α → State → Res β) : Res β :=
  match r with
  | .done a s => f a s
  | .raised e s => .raised e s

/-! ## The byte sink and the bit writer (20_memory.md R53; 40_bitwriter.md) -/

/-- The answer the sink environment gives next: the next one listed, `ok` when none is (R53, assumption log 1). -/
def nextSinkAnswer (s : State) : SinkAnswer :=
  match s.sink.answers with
  | [] => .ok
  | a :: _ => a

/-- A transaction that offered `offered` has been answered: `kept` is appended to SINK (R53). -/
def sinkTransaction (kept offered : List Byte) (s : State) : State :=
  { s with sink := { s.sink with
    bytes := s.sink.bytes ++ kept, answers := s.sink.answers.tail, tx := s.sink.tx ++ [offered] } }

/-- `SinkWrite(bs)`: one transaction; the Boolean is true for `ok`. On `fail` a prefix of `bs` of the environment's
choice has been appended (R53, assumption log 16). -/
def sinkWrite (bs : List Byte) (s : State) : Bool × State :=
  match nextSinkAnswer s with
  | .ok => (true, sinkTransaction bs bs s)
  | .fail kept => (false, sinkTransaction (bs.take kept) bs s)

/-- What a failed drain leaves in the writer: `w_buf`, `w_acc` and `w_cnt` are `any`, a fresh draw each time (R112,
U7, assumption log 7). -/
def scrambleWriter (s : State) : State :=
  { s with
    bw := { s.bw with
      w_buf := Config.anyWBuf s.sink.draws
      w_acc := Config.anyWAcc s.sink.draws
      w_cnt := Config.anyWCnt s.sink.draws }
    sink := { s.sink with draws := s.sink.draws + 1 } }

/-- `w_buf <- []` (R112). -/
def emptyBuffer (s : State) : State := { s with bw := { s.bw with w_buf := [] } }

/-- `Drain()` (R112). -/
def drain (s : State) : Res Unit :=
  if s.bw.w_buf = [] then .done () s
  else
    match sinkWrite s.bw.w_buf s with
    | (true, t) => .done () (emptyBuffer t)
    | (false, t) => .raised .ioError (scrambleWriter (setWFail t))

/-- The byte under assembly joins the buffer and the next one is started (R111, R113). -/
def pushByte (byte : Byte) (s : State) : State :=
  { s with bw := { s.bw with w_buf := s.bw.w_buf ++ [byte], w_acc := 0x00#8, w_cnt := 0 } }

/-- The byte under assembly with `b` at its next free position, `w_acc[7 - w_cnt] <- b` (R111). -/
def accWith (b : Bool) (s : State) : Byte := setStreamBit s.bw.w_acc s.bw.w_cnt b

/-- The bit is placed and does not complete the byte (R111). -/
def placeBit (b : Bool) (s : State) : State :=
  { s with bw := { s.bw with w_acc := accWith b s, w_cnt := s.bw.w_cnt + 1 } }

/-- A buffer that has just become full is drained at once (R111). -/
def drainIfFull (s : State) : Res Unit :=
  if s.bw.w_buf.length = s.chunkBytes then drain s else .done () s

/-- `WriteBit(b)` (R111). -/
def writeBit (b : Bool) (s : State) : Res Unit :=
  if s.bw.w_cnt = 7 then drainIfFull (pushByte (accWith b s) s) else .done () (placeBit b s)

/-- `WriteBit` for each bit of a sequence, in order; if one raises, the rest is not written (R114). -/
def writeBitList (bs : List Bool) (s : State) : Res Unit :=
  match bs with
  | [] => .done () s
  | b :: rest => (writeBit b s).bind fun _ t => writeBitList rest t

/-- `WriteBits(v, n)`: the n bits of v, most significant first (R114). -/
def writeBits {n : Nat} (v : BitVec n) (s : State) : Res Unit := writeBitList (msbBits v) s

/-- A partial byte is completed; its free bits are already 0 (R113). -/
def completeByte (s : State) : State := if s.bw.w_cnt = 0 then s else pushByte s.bw.w_acc s

/-- `Flush()`: its value is the number of padding bits added (R113). -/
def flush (s : State) : Res Nat :=
  (drain (completeByte s)).bind fun _ t => .done (bitsToBoundary s.bw.w_cnt) t

/-! ## The byte source and the bit reader (20_memory.md R54; 41_bitreader.md) -/

/-- What SrcRead hands the reader. -/
inductive SrcData where
  /-- `Data(bs)`: at least one byte, `first :: rest`. -/
  | bytes (first : Byte) (rest : List Byte)
  | ended
  | failed
deriving DecidableEq, Repr

/-- The bytes of SRC not yet taken. -/
def srcLeft (s : State) : List Byte := s.src.bytes.drop s.src.src_pos

/-- The most bytes one SrcRead can hand over now: min(max, len(SRC) − `src_pos`) with max = CHUNK_BYTES (R54). -/
def mostBytes (s : State) : Nat := min s.chunkBytes (srcLeft s).length

/-- The answer the source environment gives next: the next one listed, the most bytes allowed when none is (R54,
assumption log 1). -/
def nextSrcAnswer (s : State) : SrcAnswer :=
  match s.src.answers with
  | [] => .data (mostBytes s)
  | a :: _ => a

/-- How many bytes a Data answer carries: the environment's choice within 1 to the most allowed (R54, log 16). -/
def dataCount (k : Nat) (s : State) : Nat := max 1 (min k (mostBytes s))

/-- A SrcRead has been answered and `src_pos` has advanced by `taken` (R54). -/
def srcTransaction (taken : Nat) (reply : SrcReply) (s : State) : State :=
  { s with src := { s.src with
    src_pos := s.src.src_pos + taken, answers := s.src.answers.tail, tx := s.src.tx ++ [reply] } }

/-- `SrcRead(CHUNK_BYTES)`: one transaction. `End` is answered only when no byte is left, and then always unless the
environment answers `Fail` (R54). -/
def srcRead (s : State) : SrcData × State :=
  match nextSrcAnswer s with
  | .data k =>
    match srcLeft s with
    | [] => (.ended, srcTransaction 0 .ended s)
    | first :: rest =>
      (.bytes first (rest.take (dataCount k s - 1)), srcTransaction (dataCount k s) (.data (dataCount k s)) s)
  | .fail advance => (.failed, srcTransaction (min advance (mostBytes s)) .failed s)

/-- What a failed refill leaves in the reader: `r_buf`, `r_pos` and `r_bit` are `any`, a fresh draw each time (R131,
U7, assumption log 7). -/
def scrambleReader (s : State) : State :=
  { s with
    br := { s.br with
      r_buf := Config.anyRBuf s.src.draws
      r_pos := Config.anyRPos s.src.draws
      r_bit := Config.anyRBit s.src.draws }
    src := { s.src with draws := s.src.draws + 1 } }

/-- A refill has arrived: `r_buf <- bs; r_pos <- 0; r_bit <- 0` (R131). -/
def loadBuffer (bs : List Byte) (s : State) : State :=
  { s with br := { s.br with r_buf := bs, r_pos := 0, r_bit := 0 } }

/-- The cursor after the bit at `r_bit` of byte `r_pos` has been delivered (R131). -/
def advanceCursor (s : State) : State :=
  if s.br.r_bit = 7 then { s with br := { s.br with r_bit := 0, r_pos := s.br.r_pos + 1 } }
  else { s with br := { s.br with r_bit := s.br.r_bit + 1 } }

/-- `ReadBit()`: `some b` for Bit(b), `none` for Eos (R131). The buffer is exhausted when no byte stands at `r_pos`,
which for `r_pos` ≤ `r_len` (R28) is `r_pos` = `r_len` (assumption log 17). -/
def readBit (s : State) : Res (Option Bool) :=
  match s.br.r_buf[s.br.r_pos]? with
  | some byte => .done (some (streamBit byte s.br.r_bit)) (advanceCursor s)
  | none =>
    if s.br.r_eos then .done none s
    else
      match srcRead s with
      | (.bytes first rest, t) =>
        .done (some (streamBit first 0)) (advanceCursor (loadBuffer (first :: rest) t))
      | (.ended, t) => .done none (setREos t)
      | (.failed, t) => .raised .ioError (scrambleReader (setRFail t))

/-- n calls of `ReadBit`: the bits in the order read, or Eos at the first Eos, with the bits consumed staying consumed
(R132). -/
def readBitList (n : Nat) (s : State) : Res (Option (List Bool)) :=
  match n with
  | 0 => .done (some []) s
  | k + 1 =>
    (readBit s).bind fun r t =>
      match r with
      | none => .done none t
      | some b => (readBitList k t).bind fun rs u => .done (rs.map (b :: ·)) u

/-- `ReadBits(n)`: the first bit read is the most significant bit of the value (R132). -/
def readBits (n : Nat) (s : State) : Res (Option Nat) :=
  (readBitList n s).bind fun r t => .done (r.map natOfMsbBits) t

end Sys2Proof.Machine
end

