-- ==== Sys2Proof/Machine/BitWriter.lean ====
section
/-! DEFINITION. The bit writer's commands: WBIT, WFLUSH, WRST (40_bitwriter.md). -/

namespace Sys2Proof.Machine

/-- How a command ends: with a response, or by the exception an internal operation raised (00_scope.md R11). -/
def endCommand (r : Res (Status × BitVec 9)) : Result :=
  match r with
  | .done (st, data) s => .next (respond st data s)
  | .raised e s => .next (raise e s)

/-- The start check of the writer side: while `w_fail` = 1 the command raises IOError and does nothing else (R110). -/
def writerSide (s : State) (body : Result) : Result :=
  if s.bw.w_fail then .next (raise .ioError s) else body

/-- The start check of the reader side, on `r_fail` (41_bitreader.md R130). -/
def readerSide (s : State) (body : Result) : Result :=
  if s.br.r_fail then .next (raise .ioError s) else body

/-- WBIT b (R115). -/
def execWbit (b : Bool) (s : State) : Result :=
  writerSide s (endCommand ((writeBit b s).bind fun _ t => .done (.ok, 0#9) t))

/-- WFLUSH: the response carries the number of padding bits (R116). -/
def execWflush (s : State) : Result :=
  writerSide s (endCommand ((flush s).bind fun pad t => .done (.ok, BitVec.ofNat 9 pad) t))

/-- WRST: no start check, no transaction (R117). -/
def execWrst (s : State) : Result := .next (respond .ok 0#9 (resetWriter s))

end Sys2Proof.Machine
end

