-- ==== Sys2Proof/Machine/BitReader.lean ====
section
/-! DEFINITION. The bit reader's commands: RBIT, RALIGN, RRST (41_bitreader.md). -/

namespace Sys2Proof.Machine

/-- RBIT: OK with the bit, or EOS (R133). -/
def execRbit (s : State) : Result :=
  readerSide s (endCommand ((readBit s).bind fun r t =>
    match r with
    | none => .done (.eos, 0#9) t
    | some b => .done (.ok, (BitVec.ofBool b).setWidth 9) t))

/-- The cursor moves to the next byte boundary, never over a whole byte, and no SrcRead is made (R134). -/
def alignCursor (s : State) : State :=
  if s.br.r_bit = 0 then s else { s with br := { s.br with r_bit := 0, r_pos := s.br.r_pos + 1 } }

/-- RALIGN: the response carries the number of bits skipped (R134). -/
def execRalign (s : State) : Result :=
  readerSide s (.next (respond .ok (BitVec.ofNat 9 (bitsToBoundary s.br.r_bit)) (alignCursor s)))

/-- RRST: no start check; `src_pos` is not moved back (R135). -/
def execRrst (s : State) : Result := .next (respond .ok 0#9 (resetReader s))

end Sys2Proof.Machine
end

