-- ==== Sys2Proof/Machine/TreeCodec.lean ====
section
/-! DEFINITION. The tree codec (42_treecodec.md): the passes of the two loops, which are the meanings of the four data
rows of the opcode table (assumption log 5), and TSER and TDES, which run their loop to its end. -/

namespace Sys2Proof.Machine

/-- TSER and TDES start with nothing counted, an empty stack, and the given node and free index (R153, R154). -/
def startCodec (p : Phase) (cur : NodeIdx) (next : Nat) (s : State) : State :=
  { s with phase := p, tc := { t_cur := cur, t_next := next, t_nint := 0, t_nleaf := 0, t_stk := [] } }

/-- One more leaf has been seen. -/
def countLeaf (s : State) : State := { s with tc := { s.tc with t_nleaf := s.tc.t_nleaf + 1 } }

/-- The codec's last leaf: the response carries the number of leaves (R153, R154, R160). -/
def endCodec (s : State) : Result := .next (respond .ok (BitVec.ofNat 9 s.tc.t_nleaf) s)

/-! ## The serializer -/

/-- After a leaf of TSER: done, or on to the pending right subtree (R153). -/
def nextSubtree (s : State) : Result :=
  match s.tc.t_stk with
  | [] => endCodec s
  | top :: below => .next { s with phase := .serializing, tc := { s.tc with t_cur := top, t_stk := below } }

/-- NODE_LEAF, the pass of TSER's loop on a leaf: flag 0, then the symbol; `left` and `right` are not read (R153). -/
def execNodeLeaf (sym : Symbol) (_left _right : NodeIdx) (s : State) : Result :=
  match (writeBit false s).bind fun _ t => writeBits sym t with
  | .done _ t => nextSubtree (countLeaf t)
  | .raised e t => .next (raise e t)

/-- The visit of an internal node is counted, its right child is pushed and its left child is next (R153). -/
def enterNode (left right : NodeIdx) (s : State) : State :=
  { s with
    phase := .serializing
    tc := { s.tc with t_nint := s.tc.t_nint + 1, t_stk := right :: s.tc.t_stk, t_cur := left } }

/-- NODE_INTERNAL, the pass of TSER's loop on an internal node: the capacity test, then flag 1, then on to the left
child; `sym` is not read (R153, R158). -/
def execNodeInternal (_sym : Symbol) (left right : NodeIdx) (s : State) : Result :=
  if s.tc.t_nint = Config.maxInternal then .next (raise .badTree s)
  else
    match writeBit true s with
    | .done _ t => .next (enterNode left right t)
    | .raised e t => .next (raise e t)

/-- One pass of TSER's loop: fetch the entry at `t_cur` and act on its kind (R153). -/
def serializePass (s : State) : Result :=
  match memRead s s.tc.t_cur with
  | none => .fault (.unwrittenNode s.tc.t_cur)
  | some e =>
    if entryKind e then execNodeInternal (entrySym e) (entryLeft e) (entryRight e) s
    else execNodeLeaf (entrySym e) (entryLeft e) (entryRight e) s

/-! ## The deserializer -/

/-- The next record of the stream BR reads, none at the end of the stream: a flag bit, and 8 more for a leaf (R90,
R154). -/
def fetchRecord (s : State) : Res (Option Record) :=
  (readBit s).bind fun f t =>
    match f with
    | none => .done none t
    | some true => .done (some .internal) t
    | some false => (readBits 8 t).bind fun v u => .done (v.map fun n => .leaf (BitVec.ofNat 8 n)) u

/-- A node is built in the next free entry (R154). -/
def buildNode (v : NodeWord) (s : State) : State :=
  let t := memWrite (nodeIdx s.tc.t_next) v s
  { t with tc := { t.tc with t_next := t.tc.t_next + 1 } }

/-- After a leaf of TDES: done, or the parent pushed last, the top of `t_stk`, gets the node built next as its right
child (R154). -/
def linkRight (s : State) : Result :=
  match s.tc.t_stk with
  | [] => endCodec s
  | p :: below =>
    let t := memWrite p (mkEntry true 0#8 (p + 1#9) (nodeIdx s.tc.t_next)) s
    .next { t with phase := .deserializing, tc := { t.tc with t_stk := below } }

/-- LEAF, the pass of TDES's loop on a leaf record (R154). -/
def execLeaf (sym : Symbol) (s : State) : Result :=
  linkRight (countLeaf (buildNode (mkEntry false sym 0#9 0#9) s))

/-- An internal node has been built at index i: it is counted and waits for its right child (R154). -/
def openNode (i : NodeIdx) (s : State) : State :=
  { s with
    phase := .deserializing
    tc := { s.tc with t_nint := s.tc.t_nint + 1, t_stk := i :: s.tc.t_stk } }

/-- INTERNAL, the pass of TDES's loop on an internal record: the capacity test, then a node whose left child is the
node built next and whose right child is set later (R154, R158). -/
def execInternal (s : State) : Result :=
  if s.tc.t_nint = Config.maxInternal then .next (raiseInTdes .corruptTree s)
  else
    .next (openNode (nodeIdx s.tc.t_next)
      (buildNode (mkEntry true 0#8 (nodeIdx (s.tc.t_next + 1)) 0#9) s))

/-- Act on a record (R154). -/
def execRecord (r : Record) (s : State) : Result :=
  match r with
  | .leaf sym => execLeaf sym s
  | .internal => execInternal s

/-- One pass of TDES's loop: fetch a record and act on it; the end of the stream is CorruptTree (R154, R173). -/
def deserializePass (s : State) : Result :=
  match fetchRecord s with
  | .done (some r) t => execRecord r t
  | .done none t => .next (raiseInTdes .corruptTree t)
  | .raised e t => .next (raiseInTdes e t)

/-! ## The commands -/

/-- Passes of a loop until the command has ended, at most `fuel` of them. -/
def codecLoop (pass : State → Result) (fuel : Nat) (s : State) : Result :=
  match fuel with
  | 0 => .next s
  | n + 1 =>
    if s.phase = .idle then .next s
    else
      match pass s with
      | .next t => codecLoop pass n t
      | .fault f => .fault f
      | .refused r => .refused r

/-- More passes than either loop can make: at most 255 internal nodes and 256 leaves are met, and one node more is
refused (R152, R158; assumption log 19). -/
def codecFuel : Nat := Config.maxInternal + Config.maxLeaves + 1

/-- TSER root (R153). -/
def execTser (root : NodeIdx) (s : State) : Result :=
  writerSide s (codecLoop serializePass codecFuel (startCodec .serializing root s.tc.t_next s))

/-- TDES (R154). -/
def execTdes (s : State) : Result :=
  readerSide s (codecLoop deserializePass codecFuel (startCodec .deserializing s.tc.t_cur 0 s))

end Sys2Proof.Machine
end

