-- ==== Sys2Proof/Machine/Dispatch.lean ====
section
/-! DEFINITION. exec: one arm per constructor of Instr, each one call of its meaning. -/

namespace Sys2Proof.Machine

def exec (i : Instr) (s : State) : Host.Outcome State Fault Refusal :=
  match i with
  | .wbit b => Sys2Proof.Machine.execWbit b s
  | .wflush => Sys2Proof.Machine.execWflush s
  | .wrst => Sys2Proof.Machine.execWrst s
  | .rbit => Sys2Proof.Machine.execRbit s
  | .ralign => Sys2Proof.Machine.execRalign s
  | .rrst => Sys2Proof.Machine.execRrst s
  | .tser root => Sys2Proof.Machine.execTser root s
  | .tdes => Sys2Proof.Machine.execTdes s
  | .leaf sym => Sys2Proof.Machine.execLeaf sym s
  | .internal => Sys2Proof.Machine.execInternal s
  | .nodeLeaf sym left right => Sys2Proof.Machine.execNodeLeaf sym left right s
  | .nodeInternal sym left right => Sys2Proof.Machine.execNodeInternal sym left right s

end Sys2Proof.Machine
end

