-- ==== Sys2Proof/Machine/Streams.lean ====
section
/-! DEFINITION. Bit streams as values: `pack` and `unpack` of 20_memory.md R56, the bit stream a writer has accepted
(10_state.md R26 (d)) and the position of a reader (R30 (d)). The claims are stated in these terms; `withFetchWord`
uses `pack`. -/

namespace Sys2Proof.Machine

/-- Byte j of `pack(bits)`: the sum over i in 0..7 of bits[8j + i] · 2^(7 − i), a missing bit being 0 (R56). -/
def packByte (bits : List Bool) (j : Nat) : Byte :=
  BitVec.ofNat 8 (natOfMsbBits ((List.range 8).map fun i => bits.getD (8 * j + i) false))

/-- `pack(bits)`: ⌈len / 8⌉ bytes, padded with zero bits (R56, R87). -/
def pack (bits : List Bool) : List Byte :=
  (List.range ((bits.length + 7) / 8)).map (packByte bits)

/-- `unpack(bytes)`: the bits of each byte, bit 7 first (R56). -/
def unpack (bytes : List Byte) : List Bool := bytes.flatMap msbBits

/-- The top `k` bits of a byte, in stream order. -/
def topBits (byte : Byte) (k : Nat) : List Bool := (msbBits byte).take k

/-- SINK ++ `w_buf` followed by the top `w_cnt` bits of `w_acc`, as bits: the stream accepted so far (R26 (d)). -/
def acceptedBits (s : State) : List Bool :=
  unpack (s.sink.bytes ++ s.bw.w_buf) ++ topBits s.bw.w_acc s.bw.w_cnt.val

/-- How many bits of SRC have been delivered or skipped: 8 · (`src_pos` − `r_len` + `r_pos`) + `r_bit` (R30 (d)). -/
def readPosition (s : State) : Nat :=
  8 * (s.src.src_pos - s.br.r_buf.length + s.br.r_pos) + s.br.r_bit.val

/-- The bits of SRC neither delivered nor skipped yet. -/
def unreadBits (s : State) : List Bool := (unpack s.src.bytes).drop (readPosition s)

end Sys2Proof.Machine
end

