-- ==== Sys2Proof/Machine/Trees.lean ====
section
/-! DEFINITION. Trees as values (42_treecodec.md R150, R151, R155; 30_encoding.md R89): what the claims about TSER and
TDES are stated in. The codec itself never builds one. -/

namespace Sys2Proof.Machine

/-- A tree value (R150). -/
inductive Tree where
  | leaf (s : Symbol)
  | node (l r : Tree)
deriving DecidableEq, Repr

/-- leaves(T) (R150). -/
def Tree.leaves : Tree → Nat
  | .leaf _ => 1
  | .node l r => l.leaves + r.leaves

/-- internals(T) (R150). -/
def Tree.internals : Tree → Nat
  | .leaf _ => 0
  | .node l r => l.internals + r.internals + 1

/-- size(T) = 2 · leaves(T) − 1, the number of nodes (R155). -/
def Tree.size (t : Tree) : Nat := 2 * t.leaves - 1

/-- S(T): the serialization of a tree (R89, R151). -/
def Tree.serialize : Tree → List Bool
  | .leaf s => leafRecord s
  | .node l r => internalRecord ++ l.serialize ++ r.serialize

/-- The bits of a record (R88). -/
def Record.bits : Record → List Bool
  | .leaf s => leafRecord s
  | .internal => internalRecord

/-- How many of the records are those of internal nodes: `t_nint` when they have been met (R152). -/
def internalsIn : List Record → Nat
  | [] => 0
  | .leaf _ :: rs => internalsIn rs
  | .internal :: rs => internalsIn rs + 1

/-- How many of the records are those of leaves: `t_nleaf` when they have been met (R152). -/
def leavesIn : List Record → Nat
  | [] => 0
  | .leaf _ :: rs => leavesIn rs + 1
  | .internal :: rs => leavesIn rs

/-- The records of the first n entries a pre-order walk of NODE meets, when the entries of `todo` are still to be
visited, the first of them next (R88, R150, R152). None if the walk ends before that or meets an entry that holds no
value. The walk counts nothing and refuses nothing, so on a cycle it goes on for every n. -/
def Arena.visits (m : Arena) (n : Nat) (todo : List NodeIdx) : Option (List Record) :=
  match n, todo with
  | 0, _ => some []
  | _ + 1, [] => none
  | k + 1, i :: rest =>
    match m.get? i.toNat with
    | none => none
    | some e =>
      if entryKind e then (m.visits k (entryLeft e :: entryRight e :: rest)).map (.internal :: ·)
      else (m.visits k rest).map (.leaf (entrySym e) :: ·)

/-- `TreeAt(i)` is defined and is T: the entries reachable from index i spell T (R150). Sharing is allowed. -/
def Arena.holdsTree (m : Arena) (i : NodeIdx) : Tree → Bool
  | .leaf s =>
    match m.get? i.toNat with
    | some e => !entryKind e && entrySym e == s
    | none => false
  | .node l r =>
    match m.get? i.toNat with
    | some e => entryKind e && m.holdsTree (entryLeft e) l && m.holdsTree (entryRight e) r
    | none => false

/-- NODE has been laid out as Layout(T, b) (R155). -/
def Arena.holdsLayout (m : Arena) (b : Nat) : Tree → Bool
  | .leaf s => m.get? b == some (mkEntry false s 0#9 0#9)
  | .node l r =>
    m.get? b == some (mkEntry true 0#8 (nodeIdx (b + 1)) (nodeIdx (b + 1 + l.size)))
      && m.holdsLayout (b + 1) l && m.holdsLayout (b + 1 + l.size) r

end Sys2Proof.Machine
end

