-- ==== Sys2Proof/Machine/Fetch.lean ====
section
/-! DEFINITION. Where the next thing to do comes from: the host's moves between commands (00_scope.md R12, R13), and
the fetches of the codec inside TSER and TDES (assumption log 5). -/

namespace Sys2Proof.Machine

/-! ## The host's moves -/

/-- A command word arrives: a legal one runs, an illegal one is answered ILLEGAL and changes nothing (R86, R178). -/
def runCommand (w : CmdWord) (s : State) : Result :=
  match decodeCommand w with
  | .instr i => exec i s
  | .illegal _ => .next (answerIllegal s)

/-- HostNodeRead(i): the host receives the entry (20_memory.md R51); an entry with no value faults (U3). -/
def hostNodeRead (i : NodeIdx) (s : State) : Result :=
  match memRead s i with
  | none => .fault (.unwrittenNode i)
  | some v => .next { s with host := { s.host with nodeReads := s.host.nodeReads ++ [v] } }

/-- HostNodeWrite(i, v) (R51). -/
def hostNodeWrite (i : NodeIdx) (v : NodeWord) (s : State) : Result := .next (memWrite i v s)

/-- BW is in its reset state: it holds nothing and has not failed (70_reset_and_hazards.md R213). -/
def Bw.inResetState (w : Bw) : Bool := w == Bw.reset

/-- BR is in its reset state (R213). -/
def Br.inResetState (r : Br) : Bool := r == Br.reset

/-- The host replaces or repositions SINK; it has this move only while BW is in its reset state (R213, U11;
assumption log 9). -/
def placeSink (bs : List Byte) (s : State) : Result :=
  if s.bw.inResetState then .next { s with sink := { s.sink with bytes := bs } } else .refused .sinkInUse

/-- The host replaces SRC or repositions it; it has this move only while BR is in its reset state, and only to a
position within SRC (R213, U11, R37; assumption log 9). -/
def placeSrc (bs : List Byte) (pos : Nat) (s : State) : Result :=
  if s.br.inResetState then
    if pos ≤ bs.length then .next { s with src := { s.src with bytes := bs, src_pos := pos } }
    else .refused .srcPositionOutside
  else .refused .srcInUse

/-- One move of the host. -/
def hostMove (m : HostMove) (s : State) : Result :=
  match m with
  | .command w => runCommand w s
  | .nodeRead i => hostNodeRead i s
  | .nodeWrite i v => hostNodeWrite i v s
  | .blockReset => .next (blockReset s)
  | .placeSink bs => placeSink bs s
  | .placeSrc bs pos => placeSrc bs pos s

/-- The host has made its next move: it is no longer to come. -/
def dropMove (s : State) : State := { s with host := { s.host with pending := s.host.pending.tail } }

/-- Between commands: the host's next move, or waiting for one (70_reset_and_hazards.md R202; log 6). -/
def stepIdle (s : State) : Result :=
  match s.host.pending with
  | [] => .next s
  | m :: _ => hostMove m (dropMove s)

/-! ## The codec's fetches -/

/-- TSER's next entry (R153). -/
def fetchEntry (s : State) : Option Instr := (memRead s s.tc.t_cur).map decodeEntry

/-- Inside TSER: the entry at `t_cur` is fetched and executed. -/
def stepSerializing (s : State) : Result :=
  match fetchEntry s with
  | none => .fault (.unwrittenNode s.tc.t_cur)
  | some i => exec i s

/-- Inside TDES: the next record is fetched through BR and executed (R154). -/
def stepDeserializing (s : State) : Result :=
  match fetchRecord s with
  | .done (some r) t => exec r.instr t
  | .done none t => .next (raiseInTdes .corruptTree t)
  | .raised e t => .next (raiseInTdes e t)

end Sys2Proof.Machine
end

