-- ==== Sys2Proof/Machine/Step.lean ====
section
/-! DEFINITION. One step of the machine, and how a word is put where the next step fetches it. -/

namespace Sys2Proof.Machine

/-- One step: a whole move of the host (00_scope.md R3, R12), or, inside a codec loop, one pass of it. -/
def step (s : State) : Host.Outcome State Fault Refusal :=
  match s.phase with
  | .idle => stepIdle s
  | .serializing => stepSerializing s
  | .deserializing => stepDeserializing s

/-- Put one instruction where the next step fetches it (assumption logs 5, 6, 13): a command word is the host's next
move; a node entry stands in NODE at `t_cur`, inside TSER; a record stands in a fresh `r_buf`, inside TDES. -/
def State.withFetchWord (s : State) (nbits w : Nat) : State :=
  match codeOfTableWord nbits w with
  | some (.command c) =>
    { s with phase := .idle, host := { s.host with pending := .command c :: s.host.pending } }
  | some (.entry e) => memWrite s.tc.t_cur e { s with phase := .serializing }
  | some (.record bits) => { s with phase := .deserializing, br := { Br.reset with r_buf := pack bits } }
  | none => s

end Sys2Proof.Machine
end

