-- ==== Sys2Proof/Machine/Assembler.lean ====
section
/-! DEFINITION. The textual form of a command stream (30_encoding.md R94), the pseudo-instructions (R95), and how the
host runs the moves of one line. All of this is the host's: the block sees only the moves. -/

namespace Sys2Proof.Machine

/-! ## What a line stands for -/

/-- The command word of a command (R81); the data rows have none. -/
def commandWord? (i : Instr) : Option CmdWord :=
  match encode i with
  | .command w => some w
  | .entry _ => none
  | .record _ => none

/-- The host issues a command. -/
def issue (i : Instr) : List HostMove := (commandWord? i).toList.map .command

/-- One `wbit` per bit, in order (R95). -/
def issueBits (bs : List Bool) : List HostMove := bs.flatMap fun b => issue (.wbit b)

/-- The moves a well-formed line expands to (R94, R95). -/
def lineMoves : Line → List HostMove
  | .wbit b => issue (.wbit (b == 1))
  | .wflush => issue .wflush
  | .wrst => issue .wrst
  | .rbit => issue .rbit
  | .ralign => issue .ralign
  | .rrst => issue .rrst
  | .tser root => issue (.tser (nodeIdx root))
  | .tdes => issue .tdes
  | .nodeLeaf i sym => [.nodeWrite (nodeIdx i) (mkEntry false (BitVec.ofNat 8 sym) 0#9 0#9)]
  | .nodeInt i left right => [.nodeWrite (nodeIdx i) (mkEntry true 0#8 (nodeIdx left) (nodeIdx right))]
  | .wbits n v => issueBits (msbBits (BitVec.ofNat n v))
  | .wbyte v => issueBits (msbBits (BitVec.ofNat 8 v))
  | .wu32 v => issueBits (msbBits (BitVec.ofNat 32 v))
  | .rbits n => (List.replicate n (issue .rbit)).flatten
  | .rbyte => (List.replicate 8 (issue .rbit)).flatten
  | .ru32 => (List.replicate 32 (issue .rbit)).flatten
  | .wcode bits => issueBits bits

/-- The expansion of a line, none for an ill-formed one. -/
def expandLine (l : Line) : Option (List HostMove) := if l.wellFormed then some (lineMoves l) else none

/-- The host's result of `rbits`: the sum of bit_i · 2^(n − 1 − i) over the responses to its `rbit`s (R95). -/
def rbitsValue (rs : List RspWord) : Nat := natOfMsbBits (rs.map fun r => (rspData r).getLsbD 0)

/-- A move was answered by no response other than OK. -/
def answeredOk (before after : State) : Bool :=
  (after.host.responses.drop before.host.responses.length).all fun r => rspStatus r == Status.ok.code

/-- The host makes the moves of one line in order and stops at the first response whose status is not OK (R95). -/
def runLine (ms : List HostMove) (s : State) : Result :=
  match ms with
  | [] => .next s
  | m :: rest =>
    match hostMove m s with
    | .next t => if answeredOk s t then runLine rest t else .next t
    | .fault f => .fault f
    | .refused r => .refused r

/-- A sequence of instructions, each executed whole, stopping only where one does. -/
def execSeq (is : List Instr) (s : State) : Result :=
  match is with
  | [] => .next s
  | i :: rest =>
    match exec i s with
    | .next t => execSeq rest t
    | .fault f => .fault f
    | .refused r => .refused r

/-! ## Reading the text of a line (R94) -/

/-- A line of text is blank (nothing but a comment), one line of R94 or R95, or neither. -/
inductive ParsedLine where
  | blank
  | line (l : Line)
  | bad
deriving DecidableEq, Repr

/-- What stands before the `;` that starts a comment. -/
def stripComment (cs : List Char) : List Char := cs.takeWhile (· != ';')

/-- The words of a line: runs of characters between blanks, a comma being a word by itself. -/
def tokens (cs : List Char) : List (List Char) :=
  let (word, out) := cs.foldr (fun c (acc : List Char × List (List Char)) =>
    let done := if acc.1 = [] then acc.2 else acc.1 :: acc.2
    if c = ' ' || c = '\t' then ([], done)
    else if c = ',' then ([], [','] :: done)
    else (c :: acc.1, acc.2)) ([], [])
  if word = [] then out else word :: out

/-- The value of a decimal digit. -/
def decimalDigit? (c : Char) : Option Nat :=
  if '0'.toNat ≤ c.toNat && c.toNat ≤ '9'.toNat then some (c.toNat - '0'.toNat) else none

/-- The value of a hexadecimal digit; either case is taken: DESIGN CHOICE, assumption log 22. -/
def hexDigit? (c : Char) : Option Nat :=
  if 'a'.toNat ≤ c.toNat && c.toNat ≤ 'f'.toNat then some (c.toNat - 'a'.toNat + 10)
  else if 'A'.toNat ≤ c.toNat && c.toNat ≤ 'F'.toNat then some (c.toNat - 'A'.toNat + 10)
  else decimalDigit? c

/-- The number whose digits in a base are the characters, none if one is no digit or there is none. -/
def digits? (base : Nat) (digit? : Char → Option Nat) (cs : List Char) : Option Nat :=
  if cs = [] then none
  else cs.foldl (fun acc c => acc.bind fun n => (digit? c).map fun d => base * n + d) (some 0)

/-- A number, "in decimal or with `0x` in hexadecimal" (R94). -/
def number? (cs : List Char) : Option Nat :=
  match cs with
  | '0' :: 'x' :: hex => digits? 16 hexDigit? hex
  | _ => digits? 10 decimalDigit? cs

/-- A string of bits, earliest on the left (R95). In a line's text it is a word and so never empty (log 22). -/
def bitstring? (cs : List Char) : Option (List Bool) :=
  cs.mapM fun c => if c = '0' then some false else if c = '1' then some true else none

/-- The line its words spell (R94, R95). `wcode` without an operand is no line, though R95 gives its bitstring no least
length and `Line.wcode []` is well-formed and expands to no command: DESIGN CHOICE, assumption log 22. -/
def lineOf (ws : List (List Char)) : Option Line :=
  match ws with
  | [op] =>
    if op = "wflush".toList then some .wflush
    else if op = "wrst".toList then some .wrst
    else if op = "rbit".toList then some .rbit
    else if op = "ralign".toList then some .ralign
    else if op = "rrst".toList then some .rrst
    else if op = "tdes".toList then some .tdes
    else if op = "rbyte".toList then some .rbyte
    else if op = "ru32".toList then some .ru32
    else none
  | [op, a] =>
    if op = "wbit".toList then (number? a).map .wbit
    else if op = "tser".toList then (number? a).map .tser
    else if op = "wbyte".toList then (number? a).map .wbyte
    else if op = "wu32".toList then (number? a).map .wu32
    else if op = "rbits".toList then (number? a).map .rbits
    else if op = "wcode".toList then (bitstring? a).map .wcode
    else none
  | [op, a, [','], b] =>
    if op = "wbits".toList then (number? a).bind fun n => (number? b).map fun v => .wbits n v else none
  | [op, a, [','], kind, b] =>
    if op = "node".toList && kind = "leaf".toList then
      (number? a).bind fun i => (number? b).map fun sym => .nodeLeaf i sym
    else none
  | [op, a, [','], kind, b, [','], c] =>
    if op = "node".toList && kind = "int".toList then
      (number? a).bind fun i => (number? b).bind fun l => (number? c).map fun r => .nodeInt i l r
    else none
  | _ => none

/-- One line of text: "a mnemonic in lower case, then its operand if it has one" (R94). -/
def parseLine (text : String) : ParsedLine :=
  match tokens (stripComment text.toList) with
  | [] => .blank
  | w :: ws =>
    match lineOf (w :: ws) with
    | some l => if l.wellFormed then .line l else .bad
    | none => .bad

/-- The moves a line of text stands for, none if it is no line of R94 or R95. -/
def assembleLine (text : String) : Option (List HostMove) :=
  match parseLine text with
  | .blank => some []
  | .line l => expandLine l
  | .bad => none

end Sys2Proof.Machine
end

