-- ==== Sys2Proof/Safety.lean ====
section
/-! DEFINITION. What every reachable state satisfies, and the premises claims make about the environment. -/

namespace Sys2Proof.Machine

/-- The writer's invariants (10_state.md R22, R26): while `w_fail` = 0, the unfilled bits of `w_acc` (7 − `w_cnt` down
to 0) are 0 and `w_len` < CHUNK_BYTES. -/
abbrev WriterInv (s : State) : Prop :=
  s.bw.w_fail = false →
    (∀ k : Fin 8, k.val + s.bw.w_cnt.val ≤ 7 → s.bw.w_acc.getLsbD k.val = false)
      ∧ s.bw.w_buf.length < s.chunkBytes

/-- The reader's invariants (R28, R30, R37): `src_pos` stays within SRC, and while `r_fail` = 0 the cursor stays within
the buffer, end of stream is recorded only when every byte of SRC is taken and every buffered bit is gone, and the
buffer holds the bytes of SRC that end at `src_pos`. -/
abbrev ReaderInv (s : State) : Prop :=
  s.src.src_pos ≤ s.src.bytes.length ∧
    (s.br.r_fail = false →
      s.br.r_pos ≤ s.br.r_buf.length
        ∧ s.br.r_buf.length ≤ s.chunkBytes
        ∧ (s.br.r_pos = s.br.r_buf.length → s.br.r_bit = 0)
        ∧ (s.br.r_eos = true → s.br.r_pos = s.br.r_buf.length ∧ s.src.src_pos = s.src.bytes.length)
        ∧ s.br.r_buf.length ≤ s.src.src_pos
        ∧ s.br.r_buf = (s.src.bytes.take s.src.src_pos).drop (s.src.src_pos - s.br.r_buf.length))

/-- The bounds of the traversal (42_treecodec.md R152), between two passes of a codec loop: each internal node seen has
pushed one index and each leaf seen has popped one, at most 255 internal nodes have been seen, and in TDES every node
seen has been built. -/
abbrev CodecInv (s : State) : Prop :=
  s.phase ≠ .idle →
    s.tc.t_nleaf + s.tc.t_stk.length = s.tc.t_nint
      ∧ s.tc.t_nint ≤ Config.maxInternal
      ∧ (s.phase = .deserializing → s.tc.t_next = s.tc.t_nint + s.tc.t_nleaf)

/-- The invariant of the machine: CHUNK_BYTES is at least 1 (R6), NODE is in canonical form with indices below 512
(R50), and the invariants of the three units. -/
abbrev Inv (s : State) : Prop :=
  1 ≤ s.chunkBytes ∧ Arena.wf s.node = true ∧ WriterInv s ∧ ReaderInv s ∧ CodecInv s

/-- No SinkWrite will answer `fail`: the named premise of U9 for the sink. -/
abbrev SinkNeverFails (s : State) : Prop := ∀ a ∈ s.sink.answers, a = .ok

/-- No SrcRead will answer `Fail`: the named premise of U9 for the source. -/
abbrev SrcNeverFails (s : State) : Prop := ∀ a ∈ s.src.answers, ∃ k, a = .data k

/-- The writer side can work: it has not failed, its invariant holds and no transaction will fail (U9). -/
structure WriterReady (s : State) : Prop where
  chunk : 1 ≤ s.chunkBytes
  noFail : s.bw.w_fail = false
  inv : WriterInv s
  never : SinkNeverFails s

/-- The reader side can work: it has not failed, its invariant holds and no transaction will fail (U9). -/
structure ReaderReady (s : State) : Prop where
  chunk : 1 ≤ s.chunkBytes
  noFail : s.br.r_fail = false
  inv : ReaderInv s
  never : SrcNeverFails s

/-- The status of the last response the host received. -/
abbrev LastStatus (s : State) (st : Status) : Prop :=
  s.host.responses.getLast?.map rspStatus = some st.code

/-- The last response the host received is OK with this result. -/
abbrev LastOk (s : State) (data : Nat) : Prop :=
  s.host.responses.getLast? = some (responseWord .ok (BitVec.ofNat 9 data))

/-- The frame of a writer-side command that holds no codec loop: nothing but BW, SINK and the responses differs. -/
abbrev OnlyWriterSide (s t : State) : Prop :=
  t.chunkBytes = s.chunkBytes ∧ t.br = s.br ∧ t.tc = s.tc ∧ t.src = s.src ∧ (∀ i, memRead t i = memRead s i)
    ∧ t.node = s.node ∧ t.host.pending = s.host.pending ∧ t.host.nodeReads = s.host.nodeReads

/-- The frame of a reader-side command that holds no codec loop: nothing but BR, the position in SRC and the responses
differs. -/
abbrev OnlyReaderSide (s t : State) : Prop :=
  t.chunkBytes = s.chunkBytes ∧ t.bw = s.bw ∧ t.tc = s.tc ∧ t.sink = s.sink ∧ t.src.bytes = s.src.bytes
    ∧ (∀ i, memRead t i = memRead s i) ∧ t.node = s.node ∧ t.host.pending = s.host.pending
    ∧ t.host.nodeReads = s.host.nodeReads

/-- The statuses a command can answer with (60_exceptions.md R170); the data rows are no commands. -/
def commandStatuses : Instr → List Status
  | .wbit _ => [.ok, .ioErr]
  | .wflush => [.ok, .ioErr]
  | .wrst => [.ok]
  | .rbit => [.ok, .eos, .ioErr]
  | .ralign => [.ok, .ioErr]
  | .rrst => [.ok]
  | .tser _ => [.ok, .ioErr, .badTree]
  | .tdes => [.ok, .ioErr, .corruptTree]
  | .leaf _ => []
  | .internal => []
  | .nodeLeaf _ _ _ => []
  | .nodeInternal _ _ _ => []

/-- The least and the greatest `data` of an OK response (30_encoding.md R83, 43_command_classes.md R193). -/
def commandDataRange : Instr → Nat × Nat
  | .wbit _ => (0, 0)
  | .wflush => (0, 7)
  | .wrst => (0, 0)
  | .rbit => (0, 1)
  | .ralign => (0, 7)
  | .rrst => (0, 0)
  | .tser _ => (1, 256)
  | .tdes => (1, 256)
  | .leaf _ => (0, 0)
  | .internal => (0, 0)
  | .nodeLeaf _ _ _ => (0, 0)
  | .nodeInternal _ _ _ => (0, 0)

/-- The two commands of the reader's law (41_bitreader.md R136). -/
inductive ReadMove where
  | rbit
  | ralign
deriving DecidableEq, Repr

/-- The command a move of the law is. -/
def ReadMove.instr : ReadMove → Instr
  | .rbit => .rbit
  | .ralign => .ralign

/-- The responses R136 demands for a stream `u` from position `p`: each RBIT answers OK with u[p] and moves on by one,
or EOS at the end; each RALIGN moves to the least multiple of 8 not below p and answers how far. -/
def lawResponses (u : List Bool) (p : Nat) : List ReadMove → List RspWord
  | [] => []
  | .rbit :: rest =>
    match u[p]? with
    | some b => responseWord .ok ((BitVec.ofBool b).setWidth 9) :: lawResponses u (p + 1) rest
    | none => responseWord .eos 0#9 :: lawResponses u p rest
  | .ralign :: rest =>
    responseWord .ok (BitVec.ofNat 9 ((8 - p % 8) % 8)) :: lawResponses u (p + (8 - p % 8) % 8) rest

/-- n steps of the machine, stopping where one stops. -/
def stepTimes (n : Nat) (s : State) : Result :=
  match n with
  | 0 => .next s
  | k + 1 =>
    match step s with
    | .next t => stepTimes k t
    | .fault f => .fault f
    | .refused r => .refused r

/-- The response to an RBIT that delivered `b` (41_bitreader.md R133). -/
def okBit (b : Bool) : RspWord := responseWord .ok ((BitVec.ofBool b).setWidth 9)

/-- A header count as the file holds it: four bytes, the most significant first (20_memory.md R55). -/
def bigEndian32 (v : Nat) : List Byte :=
  [BitVec.ofNat 8 (v / 2 ^ 24), BitVec.ofNat 8 (v / 2 ^ 16), BitVec.ofNat 8 (v / 2 ^ 8), BitVec.ofNat 8 v]

/-- The file of 30_encoding.md R91: the leaf count, the count of encoded symbols, the serialized tree and the payload,
the last two padded to a byte boundary. -/
def compressedFile (T : Tree) (n : Nat) (payload : List Bool) : List Byte :=
  bigEndian32 T.leaves ++ bigEndian32 n ++ pack T.serialize ++ pack payload

end Sys2Proof.Machine
end

