-- ==== Sys2Proof/Certificates/Slice0/Obligations.lean ====
section
/-! DEFINITION. The statements about the model, for the provers. Each docstring names the rule of spec/ it rests on, and
says where it rests on a choice of the model. Every statement named in a witness of Sys2Proof/Tests/Slice0.lean
(`witness_<Name>`) has a state there that meets its hypotheses. -/

open Sys2Proof Sys2Proof.Machine

/-! ## Encoding -/

/-- Words written out from R81, R84 and R88 decode to what they stand for. How a record's bits and an entry's bits are
numbered and filled up to whole bytes in the word given to the decoder (the clauses with 32, 9 and 1 bits) is the model's
choice, log 13. -/
def Obligations.HandWrittenWordsDecode : Prop :=
  decodeTableWord 16 0b0001000000000001 = some (.wbit true)
    ∧ decodeTableWord 16 0b0010000000000000 = some .wflush
    ∧ decodeTableWord 16 0b0100000000000000 = some .rbit
    ∧ decodeTableWord 16 0b1000000111111111 = some (.tser 511#9)
    ∧ decodeTableWord 16 0b1001000000000000 = some .tdes
    ∧ decodeTableWord 9 0b001100001 = some (.leaf 0x61#8)
    ∧ decodeTableWord 1 0b1 = some .internal
    ∧ decodeTableWord 32 0b001100001000000000000000000 = some (.nodeLeaf 0x61#8 0#9 0#9)
    ∧ decodeTableWord 32 0b100000000000000001000000010 = some (.nodeInternal 0#8 1#9 2#9)

/-- Decode and encode agree on every well-formed instruction, with every operand at every value (R80 to R84, R88). -/
def Obligations.DecodeOfEncodeIsTheInstruction : Prop :=
  ∀ i : Instr, i.wellFormed = true → decode (encode i) = .instr i

/-- Each code has one meaning: a code that decodes to an instruction is that instruction's encoding (R80 to R90). -/
def Obligations.EncodeOfDecodedCodeIsTheCode : Prop :=
  ∀ (c : Code) (i : Instr), decode c = .instr i → encode i = c

/-- R86: which command words are illegal, said by fields and by the rows of R81, and what an illegal one does: it is
answered ILLEGAL and nothing else changes (the host's move is used up, which is the model's way to say that the word has
been issued: assumption log 6). 0x0000 and 0xFFFF are illegal. -/
def Obligations.IllegalWordsAreThoseOfR86 : Prop :=
  (∀ w : CmdWord, (∃ why, decodeCommand w = .illegal why) ↔
      (cmdOp w = 0x0#4 ∨ cmdOp w = 0x7#4 ∨ 0xA ≤ (cmdOp w).toNat)
        ∨ cmdZ w ≠ 0#3
        ∨ (cmdOp w = 0x1#4 ∧ (cmdArg w).toNat / 2 ≠ 0)
        ∨ ((cmdOp w = 0x2#4 ∨ cmdOp w = 0x3#4 ∨ cmdOp w = 0x4#4 ∨ cmdOp w = 0x5#4 ∨ cmdOp w = 0x6#4 ∨ cmdOp w = 0x9#4)
            ∧ cmdArg w ≠ 0#9))
    ∧ (∀ w : CmdWord, (∃ i, decodeCommand w = .instr i) ↔ (opcodeTable.filter fun r => r.selects w).length = 1)
    ∧ (∀ (s : State) (w : CmdWord) (why : Illegal) (rest : List HostMove), s.phase = .idle →
        s.host.pending = .command w :: rest → decodeCommand w = .illegal why →
        step s = .next { s with host := { s.host with
          pending := rest, responses := s.host.responses ++ [0x5000#16] } })
    ∧ (∃ why, decodeCommand 0x0000#16 = .illegal why) ∧ (∃ why, decodeCommand 0xFFFF#16 = .illegal why)

/-- R83, R85: the fields of a response word; `data` is 0 whenever the status is not OK, and `z` is 000. -/
def Obligations.ResponseWordFields : Prop :=
  ∀ (st : Status) (d : BitVec 9),
    rspStatus (responseWord st d) = st.code
      ∧ rspData (responseWord st d) = (if st = .ok then d else 0#9)
      ∧ (responseWord st d).extractLsb' 9 3 = 0#3

/-- R84: a node entry is its four fields, and is nothing else. -/
def Obligations.NodeEntryIsItsFields : Prop :=
  (∀ (k : Bool) (sym : Symbol) (l r : NodeIdx),
      entryKind (mkEntry k sym l r) = k ∧ entrySym (mkEntry k sym l r) = sym
        ∧ entryLeft (mkEntry k sym l r) = l ∧ entryRight (mkEntry k sym l r) = r)
    ∧ ∀ e : NodeWord, mkEntry (entryKind e) (entrySym e) (entryLeft e) (entryRight e) = e

/-- R56, R87: bit k of unpack(bytes) is bit 7 − (k mod 8) of byte k div 8; packing takes ⌈n / 8⌉ bytes; what is packed
unpacks to the bits and then zeros up to the byte boundary; whole bytes pack to themselves. -/
def Obligations.PackingIsMsbFirstWithZeroPadding : Prop :=
  (∀ (bytes : List Byte) (k : Nat) (h : k < 8 * bytes.length),
      (unpack bytes)[k]? = some ((bytes[k / 8]'(by omega)).getLsbD (7 - k % 8)))
    ∧ (∀ bits : List Bool, (pack bits).length = (bits.length + 7) / 8
        ∧ unpack (pack bits) = bits ++ List.replicate ((8 - bits.length % 8) % 8) false)
    ∧ ∀ bytes : List Byte, pack (unpack bytes) = bytes

/-- R94: the lines of the textual form stand for their command words and their NODE writes. -/
def Obligations.LinesExpandToTheirWords : Prop :=
  expandLine (.wbit 0) = some [.command 0x1000#16] ∧ expandLine (.wbit 1) = some [.command 0x1001#16]
    ∧ expandLine .wflush = some [.command 0x2000#16] ∧ expandLine .wrst = some [.command 0x3000#16]
    ∧ expandLine .rbit = some [.command 0x4000#16] ∧ expandLine .ralign = some [.command 0x5000#16]
    ∧ expandLine .rrst = some [.command 0x6000#16] ∧ expandLine .tdes = some [.command 0x9000#16]
    ∧ (∀ root, root ≤ 511 → expandLine (.tser root) = some [.command (BitVec.ofNat 16 (0x8000 + root))])
    ∧ (∀ i sym, i ≤ 511 → sym ≤ 255 →
        expandLine (.nodeLeaf i sym) = some [.nodeWrite (BitVec.ofNat 9 i) (mkEntry false (BitVec.ofNat 8 sym) 0#9 0#9)])
    ∧ ∀ i l r, i ≤ 511 → l ≤ 511 → r ≤ 511 →
        expandLine (.nodeInt i l r)
          = some [.nodeWrite (BitVec.ofNat 9 i) (mkEntry true 0#8 (BitVec.ofNat 9 l) (BitVec.ofNat 9 r))]

/-! ## Reset and invariants -/

/-- R36: the reset value of every element of the three units, after block reset (and in State.reset), after WRST and
after RRST, with what each leaves unchanged. That an entry that holds no value reads as none is log 3, and that block
reset leaves CHUNK_BYTES and the host's side as they are is log 12: both are read from the spec by inference. -/
def Obligations.ResetTable : Prop :=
  (∀ s : State, (s = State.reset ∨ ∃ u, s = blockReset u) →
      s.bw.w_acc = 0x00#8 ∧ s.bw.w_cnt = 0 ∧ s.bw.w_buf = [] ∧ s.bw.w_fail = false
        ∧ s.br.r_buf = [] ∧ s.br.r_pos = 0 ∧ s.br.r_bit = 0 ∧ s.br.r_eos = false ∧ s.br.r_fail = false
        ∧ ∀ i, memRead s i = none)
    ∧ (∀ u : State, (blockReset u).sink = u.sink ∧ (blockReset u).src = u.src
        ∧ (blockReset u).chunkBytes = u.chunkBytes ∧ (blockReset u).host = u.host)
    ∧ (∀ u : State, ∃ t, exec .wrst u = .next t ∧ t.bw.w_acc = 0x00#8 ∧ t.bw.w_cnt = 0 ∧ t.bw.w_buf = []
        ∧ t.bw.w_fail = false ∧ t.br = u.br ∧ t.node = u.node ∧ t.tc = u.tc ∧ t.sink = u.sink ∧ t.src = u.src)
    ∧ ∀ u : State, ∃ t, exec .rrst u = .next t ∧ t.br.r_buf = [] ∧ t.br.r_pos = 0 ∧ t.br.r_bit = 0
        ∧ t.br.r_eos = false ∧ t.br.r_fail = false ∧ t.bw = u.bw ∧ t.node = u.node ∧ t.tc = u.tc
        ∧ t.sink = u.sink ∧ t.src = u.src

/-- The invariant of the machine holds right after reset (R22, R26, R28, R30, R50, R152). -/
def Obligations.ResetMeetsTheInvariant : Prop := Inv State.reset

/-- Every step keeps the invariant of the machine, from every state that meets it: CHUNK_BYTES at least 1, NODE in
canonical form with indices below 512, the writer's R22 and R26 (a) to (c), the reader's R28 and R30 (a) to (d), and
between two passes of a codec loop the bounds of R152. -/
def Obligations.StepKeepsTheInvariant : Prop :=
  ∀ s t : State, Inv s → step s = .next t → Inv t

/-- R12: a command runs whole. From a state between commands, a step leaves a state between commands: no codec loop is
ever seen half done. (`phase` is the model's own field, log 5.) -/
def Obligations.StepsBetweenCommandsStayBetweenCommands : Prop :=
  ∀ s t : State, s.phase = .idle → step s = .next t → t.phase = .idle

/-! ## The step -/

/-- A step runs what is fetched: between commands the command word the host issues next, which is then used up; inside
TSER the entry at `t_cur`; inside TDES the record BR gives. With no move of the host to come the block waits (R12, R153,
R154, R202; logs 5 and 6). -/
def Obligations.StepRunsTheFetchedInstruction : Prop :=
  (∀ (s : State) (w : CmdWord) (rest : List HostMove) (i : Instr), s.phase = .idle →
      s.host.pending = .command w :: rest → decode (.command w) = .instr i →
      step s = exec i { s with host := { s.host with pending := rest } })
    ∧ (∀ (s : State) (e : NodeWord) (i : Instr), s.phase = .serializing → memRead s s.tc.t_cur = some e →
        decode (.entry e) = .instr i → step s = exec i s)
    ∧ (∀ (s t : State) (r : Record), s.phase = .deserializing → fetchRecord s = .done (some r) t →
        step s = exec r.instr t)
    ∧ ∀ s : State, s.phase = .idle → s.host.pending = [] → step s = .next s

/-- R90: the record TDES fetches is the one the decoder reads from the bits that stand next in SRC, it consumes exactly
the bits of that record, and there is none when those bits end first. Nothing but the reader side changes. -/
def Obligations.FetchedRecordIsTheDecodedOne : Prop :=
  ∀ s : State, ReaderReady s →
    ∃ t, fetchRecord s = .done ((decodeRecord (unreadBits s)).map Prod.fst) t
      ∧ (∀ r rest, decodeRecord (unreadBits s) = some (r, rest) →
          unreadBits t = rest ∧ encode r.instr = .record ((unreadBits s).take (readPosition t - readPosition s)))
      ∧ OnlyReaderSide s t ∧ t.phase = s.phase ∧ t.host = s.host

/-- R51, R200, R213: the host's other moves. A NODE access is one whole entry; a read of an entry that holds no value
faults (U3); block reset; SINK and SRC are placed only while BW, respectively BR, is in its reset state (U11). That a unit
is in its reset state when it equals its reset value, and that a read position outside SRC (R37) is refused, are the
model's reading, log 9. -/
def Obligations.HostMovesDoWhatTheySay : Prop :=
  (∀ (s : State) (i j : NodeIdx) (v : NodeWord), ∃ t, hostMove (.nodeWrite i v) s = .next t
      ∧ (memRead t j = if j = i then some v else memRead s j)
      ∧ t.bw = s.bw ∧ t.br = s.br ∧ t.tc = s.tc ∧ t.sink = s.sink ∧ t.src = s.src ∧ t.host = s.host)
    ∧ (∀ (s : State) (i : NodeIdx) (v : NodeWord), memRead s i = some v →
        hostMove (.nodeRead i) s
          = .next { s with host := { s.host with nodeReads := s.host.nodeReads ++ [v] } })
    ∧ (∀ (s : State) (i : NodeIdx), memRead s i = none →
        hostMove (.nodeRead i) s = .fault (.unwrittenNode i))
    ∧ (∀ s : State, hostMove .blockReset s = .next (blockReset s))
    ∧ (∀ (s : State) (bs : List Byte), s.bw = Bw.reset →
        hostMove (.placeSink bs) s = .next { s with sink := { s.sink with bytes := bs } })
    ∧ (∀ (s : State) (bs : List Byte), s.bw ≠ Bw.reset → hostMove (.placeSink bs) s = .refused .sinkInUse)
    ∧ (∀ (s : State) (bs : List Byte) (pos : Nat), s.br = Br.reset → pos ≤ bs.length →
        hostMove (.placeSrc bs pos) s = .next { s with src := { s.src with bytes := bs, src_pos := pos } })
    ∧ (∀ (s : State) (bs : List Byte) (pos : Nat), s.br = Br.reset → bs.length < pos →
        hostMove (.placeSrc bs pos) s = .refused .srcPositionOutside)
    ∧ ∀ (s : State) (bs : List Byte) (pos : Nat), s.br ≠ Br.reset → hostMove (.placeSrc bs pos) s = .refused .srcInUse

/-- R83, R170, R193: every command is answered by exactly one response, its status is one of those R170 gives the
command, and the `data` of an OK response lies in the command's range. -/
def Obligations.EachCommandGetsOneResponseOfItsOwn : Prop :=
  ∀ (i : Instr) (s t : State), i.isCommand = true → exec i s = .next t →
    ∃ st d, t.host.responses = s.host.responses ++ [responseWord st d]
      ∧ st ∈ commandStatuses i
      ∧ (st = .ok → (commandDataRange i).1 ≤ d.toNat ∧ d.toNat ≤ (commandDataRange i).2)
      ∧ t.host.pending = s.host.pending ∧ t.host.nodeReads = s.host.nodeReads

/-- R60, R110, R130, R153, R154: no instruction but TSER ever stops, and TSER stops only on an entry that holds no value
(U3): every other command, and every pass, answers a next state in every state. -/
def Obligations.OnlyTserOnAnUnwrittenEntryStops : Prop :=
  ∀ (i : Instr) (s : State),
    (∃ t, exec i s = .next t)
      ∨ ∃ root j, i = .tser root ∧ memRead s j = none ∧ exec i s = .fault (.unwrittenNode j)

/-! ## The bit writer -/

/-- R111, R115: a WBIT that does not complete a byte puts the bit at position 7 − `w_cnt` of `w_acc` and answers OK. -/
def Obligations.WbitPlacesTheBit : Prop :=
  ∀ (b : Bool) (s : State), s.bw.w_fail = false → s.bw.w_cnt ≠ 7 →
    exec (.wbit b) s = .next (respond .ok 0#9 { s with bw := { s.bw with
      w_acc := setStreamBit s.bw.w_acc s.bw.w_cnt b, w_cnt := s.bw.w_cnt + 1 } })

/-- R111, R115 (a): the 8th bit of a byte moves it to the buffer, when that does not fill the buffer. -/
def Obligations.WbitCompletesAByte : Prop :=
  ∀ (b : Bool) (s : State), s.bw.w_fail = false → s.bw.w_cnt = 7 → s.bw.w_buf.length + 1 ≠ s.chunkBytes →
    exec (.wbit b) s = .next (respond .ok 0#9 { s with bw := { s.bw with
      w_buf := s.bw.w_buf ++ [setStreamBit s.bw.w_acc 7 b], w_acc := 0x00#8, w_cnt := 0 } })

/-- R111, R112, R115 (b): the bit that fills the buffer makes one transaction of CHUNK_BYTES bytes inside the command;
when the sink answers ok the buffer is empty again and SINK has grown by exactly it. -/
def Obligations.WbitDrainsAFullBuffer : Prop :=
  ∀ (b : Bool) (s : State), s.bw.w_fail = false → s.bw.w_cnt = 7 → s.bw.w_buf.length + 1 = s.chunkBytes →
    nextSinkAnswer s = .ok →
    ∃ t, exec (.wbit b) s = .next t ∧ t.bw = Bw.reset
      ∧ t.sink.bytes = s.sink.bytes ++ s.bw.w_buf ++ [setStreamBit s.bw.w_acc 7 b]
      ∧ t.sink.tx = s.sink.tx ++ [s.bw.w_buf ++ [setStreamBit s.bw.w_acc 7 b]]
      ∧ t.host.responses = s.host.responses ++ [0x0000#16] ∧ OnlyWriterSide s t

/-- R26 (d), R115: while no transaction fails, WBIT extends the accepted bit stream by exactly its bit, answers OK and
touches nothing but the writer side. -/
def Obligations.WbitExtendsTheStreamByItsBit : Prop :=
  ∀ (b : Bool) (s : State), WriterReady s →
    ∃ t, exec (.wbit b) s = .next t ∧ acceptedBits t = acceptedBits s ++ [b] ∧ WriterReady t
      ∧ t.host.responses = s.host.responses ++ [0x0000#16] ∧ OnlyWriterSide s t

/-- R112, R114, R175: when a transaction made by a WBIT, by a WFLUSH or by a pass of TSER fails, the command answers IOERR,
`w_fail` is set, and SINK holds what it held and then a prefix, the environment's choice, of the bytes offered. (`w_buf`,
`w_acc` and `w_cnt` are then free values: nothing is said of them.) In the pass on an internal node the bit that fills the
buffer is the flag; in the pass on a leaf it is the flag or a bit of the symbol, as `w_cnt` has it. That a pass is an
instruction is the model's choice, log 5; the whole command TSER has a statement of its own. -/
def Obligations.FailedDrainAnswersIoErr : Prop :=
  (∀ (b : Bool) (s : State) (kept : Nat), s.bw.w_fail = false → s.bw.w_cnt = 7 →
      s.bw.w_buf.length + 1 = s.chunkBytes → nextSinkAnswer s = .fail kept →
      ∃ t, exec (.wbit b) s = .next t ∧ t.bw.w_fail = true
        ∧ t.sink.bytes = s.sink.bytes ++ (s.bw.w_buf ++ [setStreamBit s.bw.w_acc 7 b]).take kept
        ∧ t.sink.tx = s.sink.tx ++ [s.bw.w_buf ++ [setStreamBit s.bw.w_acc 7 b]]
        ∧ t.host.responses = s.host.responses ++ [0x2000#16] ∧ OnlyWriterSide s t)
    ∧ (∀ (s : State) (kept : Nat), s.bw.w_fail = false → (s.bw.w_cnt ≠ 0 ∨ s.bw.w_buf ≠ []) →
      nextSinkAnswer s = .fail kept →
      ∃ t, exec .wflush s = .next t ∧ t.bw.w_fail = true
        ∧ t.sink.bytes = s.sink.bytes ++ (s.bw.w_buf ++ if s.bw.w_cnt = 0 then [] else [s.bw.w_acc]).take kept
        ∧ t.host.responses = s.host.responses ++ [0x2000#16] ∧ OnlyWriterSide s t)
    ∧ (∀ (sym : Symbol) (l r : NodeIdx) (s : State) (kept : Nat), s.bw.w_fail = false → s.bw.w_cnt = 7 →
      s.bw.w_buf.length + 1 = s.chunkBytes → nextSinkAnswer s = .fail kept → s.tc.t_nint ≠ 255 →
      ∃ t, exec (.nodeInternal sym l r) s = .next t ∧ t.bw.w_fail = true
        ∧ t.sink.bytes = s.sink.bytes ++ (s.bw.w_buf ++ [setStreamBit s.bw.w_acc 7 true]).take kept
        ∧ t.phase = .idle ∧ t.host.responses = s.host.responses ++ [0x2000#16] ∧ OnlyWriterSide s t)
    ∧ ∀ (sym : Symbol) (l r : NodeIdx) (s : State) (kept : Nat), s.bw.w_fail = false →
      s.bw.w_buf.length + 1 = s.chunkBytes → nextSinkAnswer s = .fail kept →
      ∃ t, exec (.nodeLeaf sym l r) s = .next t ∧ t.bw.w_fail = true
        ∧ t.sink.bytes = s.sink.bytes
          ++ (s.bw.w_buf ++ (pack (topBits s.bw.w_acc s.bw.w_cnt.val ++ leafRecord sym)).take 1).take kept
        ∧ t.phase = .idle ∧ t.host.responses = s.host.responses ++ [0x2000#16] ∧ OnlyWriterSide s t

/-- R113, R116: while no transaction fails, WFLUSH answers OK with the number of padding bits, (8 − `w_cnt`) mod 8; the
writer is then in its reset state and SINK holds every accepted bit and then that many zeros; nothing buffered makes no
transaction, and otherwise there is one of 1 to CHUNK_BYTES bytes. -/
def Obligations.WflushPadsAndHandsOverEverything : Prop :=
  ∀ s : State, WriterReady s →
    ∃ t, exec .wflush s = .next t
      ∧ t.bw.w_cnt = 0 ∧ t.bw.w_buf = [] ∧ t.bw.w_acc = 0x00#8 ∧ t.bw.w_fail = false
      ∧ unpack t.sink.bytes = acceptedBits s ++ List.replicate ((8 - s.bw.w_cnt.val) % 8) false
      ∧ t.host.responses = s.host.responses ++ [responseWord .ok (BitVec.ofNat 9 ((8 - s.bw.w_cnt.val) % 8))]
      ∧ (s.bw.w_cnt = 0 → s.bw.w_buf = [] → t.sink = s.sink)
      ∧ (s.bw.w_cnt ≠ 0 ∨ s.bw.w_buf ≠ [] → ∃ c, t.sink.tx = s.sink.tx ++ [c]
          ∧ t.sink.bytes = s.sink.bytes ++ c ∧ 1 ≤ c.length ∧ c.length ≤ s.chunkBytes)
      ∧ OnlyWriterSide s t

/-- R117: WRST discards what is buffered, clears `w_fail`, makes no transaction and touches nothing else. -/
def Obligations.WrstReturnsTheWriterToReset : Prop :=
  ∀ s : State, exec .wrst s = .next (respond .ok 0#9 { s with bw :=
    { w_acc := 0x00#8, w_cnt := 0, w_buf := [], w_fail := false } })

/-- R110, R175: while `w_fail` = 1 the writer-side commands answer IOERR and change nothing (a state between commands
gains one response); WRST alone still acts. -/
def Obligations.FailedWriterOnlyAnswersIoErr : Prop :=
  ∀ (s : State) (i : Instr), s.phase = .idle → s.bw.w_fail = true →
    ((∃ b, i = .wbit b) ∨ i = .wflush ∨ (∃ root, i = .tser root) →
      exec i s = .next { s with host := { s.host with responses := s.host.responses ++ [0x2000#16] } })
    ∧ (i = .wrst → ∃ t, exec i s = .next t ∧ t.bw = Bw.reset ∧ t.host.responses = s.host.responses ++ [0x0000#16])

/-- R118, the writer's law: segments of WBITs, each ended by a WFLUSH, from a writer in its reset state with no failing
transaction, leave SINK holding the packed segments one after another, for every CHUNK_BYTES; the transactions are the
same bytes, each of a WBIT carries exactly CHUNK_BYTES bytes and each of a WFLUSH 1 to CHUNK_BYTES. -/
def Obligations.SinkHoldsThePackedSegments : Prop :=
  (∀ (s : State) (segments : List (List Bool)), 1 ≤ s.chunkBytes → s.bw = Bw.reset → SinkNeverFails s →
      ∃ t, execSeq (segments.flatMap fun g => g.map Instr.wbit ++ [.wflush]) s = .next t
        ∧ t.sink.bytes = s.sink.bytes ++ segments.flatMap pack
        ∧ (∃ txs, t.sink.tx = s.sink.tx ++ txs ∧ txs.flatten = segments.flatMap pack)
        ∧ OnlyWriterSide s t)
    ∧ (∀ (b : Bool) (s t : State), exec (.wbit b) s = .next t →
        t.sink.tx = s.sink.tx ∨ ∃ c, t.sink.tx = s.sink.tx ++ [c] ∧ c.length = s.chunkBytes)
    ∧ ∀ s t : State, 1 ≤ s.chunkBytes → WriterInv s → exec .wflush s = .next t →
        t.sink.tx = s.sink.tx ∨ ∃ c, t.sink.tx = s.sink.tx ++ [c] ∧ 1 ≤ c.length ∧ c.length ≤ s.chunkBytes

/-- R55, R92, R95: the pseudo-instruction `wu32` appends the four bytes of the count, most significant byte first. -/
def Obligations.HeaderCountIsWrittenBigEndian : Prop :=
  ∀ (v : Nat) (s : State), v < 2 ^ 32 → WriterReady s →
    ∃ t, runLine (lineMoves (.wu32 v)) s = .next t
      ∧ acceptedBits t = acceptedBits s ++ unpack
          [BitVec.ofNat 8 (v / 2 ^ 24), BitVec.ofNat 8 (v / 2 ^ 16), BitVec.ofNat 8 (v / 2 ^ 8), BitVec.ofNat 8 v]
      ∧ t.host.responses = s.host.responses ++ List.replicate 32 0x0000#16

/-! ## The bit reader -/

/-- R131, R133: with a byte at the cursor, RBIT answers OK with its bit 7 − `r_bit` and moves the cursor on by one bit,
without a transaction. -/
def Obligations.RbitDeliversTheBitAtTheCursor : Prop :=
  ∀ (s : State) (byte : Byte), s.br.r_fail = false → s.br.r_buf[s.br.r_pos]? = some byte →
    exec .rbit s = .next (respond .ok ((BitVec.ofBool (byte.getLsbD (7 - s.br.r_bit.val))).setWidth 9)
      { s with br := { s.br with
        r_pos := if s.br.r_bit = 7 then s.br.r_pos + 1 else s.br.r_pos
        r_bit := if s.br.r_bit = 7 then 0 else s.br.r_bit + 1 } })

/-- R54, R131: an exhausted reader refills on demand. Whatever count within R54's range the environment chooses, the
buffer holds that many next bytes of SRC, `src_pos` has advanced by it, and the bit delivered is the first of them. -/
def Obligations.RbitRefillsAnExhaustedBuffer : Prop :=
  ∀ (s : State) (k : Nat), 1 ≤ s.chunkBytes → s.br.r_fail = false → s.br.r_pos = s.br.r_buf.length →
    s.br.r_eos = false → s.src.src_pos < s.src.bytes.length → nextSrcAnswer s = .data k →
    ∃ t n, exec .rbit s = .next t
      ∧ 1 ≤ n ∧ n ≤ s.chunkBytes ∧ n ≤ s.src.bytes.length - s.src.src_pos
      ∧ (1 ≤ k → k ≤ s.chunkBytes → k ≤ s.src.bytes.length - s.src.src_pos → n = k)
      ∧ t.br = { r_buf := (s.src.bytes.drop s.src.src_pos).take n, r_pos := 0, r_bit := 1, r_eos := false, r_fail := false }
      ∧ t.src.src_pos = s.src.src_pos + n ∧ t.src.tx = s.src.tx ++ [.data n]
      ∧ (∃ byte, s.src.bytes[s.src.src_pos]? = some byte ∧ t.host.responses = s.host.responses
          ++ [responseWord .ok ((BitVec.ofBool (byte.getLsbD 7)).setWidth 9)])
      ∧ OnlyReaderSide s t

/-- R29, R131, R133: with no bit left RBIT answers EOS and `r_eos` is 1; once it is 1, no further SrcRead is made; the
reader is not failed and stays usable. -/
def Obligations.RbitAtTheEndAnswersEos : Prop :=
  ∀ s : State, s.br.r_fail = false → s.br.r_pos = s.br.r_buf.length →
    (s.br.r_eos = true →
      exec .rbit s = .next (respond .eos 0#9 s))
    ∧ (∀ k, s.br.r_eos = false → s.src.src_pos = s.src.bytes.length → nextSrcAnswer s = .data k →
      ∃ t, exec .rbit s = .next t ∧ t.br = { s.br with r_eos := true } ∧ t.src.src_pos = s.src.src_pos
        ∧ t.src.tx = s.src.tx ++ [.ended] ∧ t.host.responses = s.host.responses ++ [0x1000#16]
        ∧ OnlyReaderSide s t)

/-- R54, R131, R154, R161, R175: a failed refill. (a) When the refill an RBIT needs fails, the command answers IOERR,
`r_fail` is set, and `src_pos` has advanced by an amount within R54's bound. (b) The same of a TDES whose first bit needs
the refill; entries 0 to 510 then hold no value (log 3). (c) The same of a TDES that has read a beginning of a tree, of
whatever length, when the refill for its next bit fails: source and reader stand where that refill left them. (d) Whatever
a TDES met: if any SrcRead it made answered Fail, it answered IOERR with `r_fail` set, and it answers IOERR for no other
reason. (`r_buf`, `r_pos` and `r_bit` are then free values.) -/
def Obligations.FailedRefillAnswersIoErr : Prop :=
  (∀ (s : State) (a : Nat), s.br.r_fail = false → s.br.r_pos = s.br.r_buf.length → s.br.r_eos = false →
      nextSrcAnswer s = .fail a →
      (∃ t, exec .rbit s = .next t ∧ t.br.r_fail = true ∧ t.br.r_eos = false
        ∧ t.src.src_pos = s.src.src_pos + min a (min s.chunkBytes (s.src.bytes.length - s.src.src_pos))
        ∧ t.host.responses = s.host.responses ++ [0x2000#16] ∧ OnlyReaderSide s t)
      ∧ ∃ t, exec .tdes s = .next t ∧ t.br.r_fail = true ∧ t.br.r_eos = false
        ∧ t.src.src_pos = s.src.src_pos + min a (min s.chunkBytes (s.src.bytes.length - s.src.src_pos))
        ∧ t.host.responses = s.host.responses ++ [0x2000#16] ∧ t.phase = .idle
        ∧ (∀ i, memRead t i = if i.toNat ≤ 510 then none else memRead s i)
        ∧ t.chunkBytes = s.chunkBytes ∧ t.bw = s.bw ∧ t.sink = s.sink ∧ t.src.bytes = s.src.bytes
        ∧ t.host.pending = s.host.pending ∧ t.host.nodeReads = s.host.nodeReads)
    ∧ (∀ (T : Tree) (bits missing : List Bool) (s u v : State), s.br.r_fail = false → T.leaves ≤ 256 →
      bits ++ missing = T.serialize → missing ≠ [] → readBitList bits.length s = .done (some bits) u →
      readBit u = .raised .ioError v →
      ∃ t, exec .tdes s = .next t ∧ t.br = v.br ∧ t.br.r_fail = true ∧ t.src = v.src
        ∧ t.host.responses = s.host.responses ++ [0x2000#16] ∧ t.phase = .idle
        ∧ (∀ i, memRead t i = if i.toNat ≤ 510 then none else memRead s i)
        ∧ t.chunkBytes = s.chunkBytes ∧ t.bw = s.bw ∧ t.sink = s.sink
        ∧ t.host.pending = s.host.pending ∧ t.host.nodeReads = s.host.nodeReads)
    ∧ ∀ s t : State, s.br.r_fail = false → exec .tdes s = .next t →
      ∃ replies, t.src.tx = s.src.tx ++ replies
        ∧ (.failed ∈ replies → t.br.r_fail = true ∧ t.host.responses = s.host.responses ++ [0x2000#16]
          ∧ ∀ i, memRead t i = if i.toNat ≤ 510 then none else memRead s i)
        ∧ (LastStatus t .ioErr ∨ t.br.r_fail = true → .failed ∈ replies)

/-- R134: RALIGN skips the unread bits of the current byte, never a whole byte, answers how many, (8 − `r_bit`) mod 8, and
makes no SrcRead. -/
def Obligations.RalignSkipsToTheByteBoundary : Prop :=
  ∀ s : State, s.br.r_fail = false →
    exec .ralign s = .next (respond .ok (BitVec.ofNat 9 ((8 - s.br.r_bit.val) % 8)) { s with br := { s.br with
      r_pos := if s.br.r_bit = 0 then s.br.r_pos else s.br.r_pos + 1, r_bit := 0 } })

/-- R135: RRST discards what is read ahead, clears `r_eos` and `r_fail`, does not move `src_pos` back and touches nothing
else. -/
def Obligations.RrstReturnsTheReaderToReset : Prop :=
  ∀ s : State, exec .rrst s = .next (respond .ok 0#9 { s with br :=
    { r_buf := [], r_pos := 0, r_bit := 0, r_eos := false, r_fail := false } })

/-- R130, R175: while `r_fail` = 1 the reader-side commands answer IOERR and change nothing (a state between commands
gains one response), NODE included (R161); RRST alone still acts. -/
def Obligations.FailedReaderOnlyAnswersIoErr : Prop :=
  ∀ (s : State) (i : Instr), s.phase = .idle → s.br.r_fail = true →
    (i = .rbit ∨ i = .ralign ∨ i = .tdes →
      exec i s = .next { s with host := { s.host with responses := s.host.responses ++ [0x2000#16] } })
    ∧ (i = .rrst → ∃ t, exec i s = .next t ∧ t.br = Br.reset ∧ t.host.responses = s.host.responses ++ [0x0000#16])

/-- R136, the reader's law: RBITs and RALIGNs from a reader in its reset state at the start of SRC, with no failing
transaction, answer the bits of SRC in order, then EOS, for every CHUNK_BYTES and every choice of short reads. When SRC
is what a writer run has left in SINK (R118), those bits are the written segments, each followed by its padding. -/
def Obligations.ReaderDeliversSrcInOrder : Prop :=
  (∀ (s : State) (moves : List ReadMove), 1 ≤ s.chunkBytes → s.br = Br.reset → s.src.src_pos = 0 → SrcNeverFails s →
    ∃ t, execSeq (moves.map ReadMove.instr) s = .next t
      ∧ t.host.responses = s.host.responses ++ lawResponses (unpack s.src.bytes) 0 moves
      ∧ OnlyReaderSide s t)
    ∧ ∀ (s : State) (segments : List (List Bool)) (moves : List ReadMove), 1 ≤ s.chunkBytes → s.br = Br.reset →
      s.src.src_pos = 0 → SrcNeverFails s → s.src.bytes = segments.flatMap pack →
      ∃ t, execSeq (moves.map ReadMove.instr) s = .next t
        ∧ t.host.responses = s.host.responses ++ lawResponses
          (segments.flatMap fun g => g ++ List.replicate ((8 - g.length % 8) % 8) false) 0 moves

/-! ## The tree codec: one pass -/

/-- R88, R153: TSER's pass on a leaf's entry writes exactly the record of the leaf, whatever `left` and `right` hold,
counts the leaf, and then either answers OK with the number of leaves or goes on with the pending right subtree. -/
def Obligations.NodeLeafPassWritesTheLeafRecord : Prop :=
  ∀ (sym : Symbol) (l r : NodeIdx) (s : State), WriterReady s →
    ∃ t, exec (.nodeLeaf sym l r) s = .next t
      ∧ acceptedBits t = acceptedBits s ++ leafRecord sym ∧ WriterReady t
      ∧ t.tc.t_nleaf = s.tc.t_nleaf + 1 ∧ t.tc.t_nint = s.tc.t_nint ∧ t.tc.t_next = s.tc.t_next
      ∧ (s.tc.t_stk = [] → t.phase = .idle ∧ t.tc.t_stk = [] ∧ t.host.responses
          = s.host.responses ++ [responseWord .ok (BitVec.ofNat 9 (s.tc.t_nleaf + 1))])
      ∧ (∀ top below, s.tc.t_stk = top :: below →
          t.phase = .serializing ∧ t.tc.t_cur = top ∧ t.tc.t_stk = below ∧ t.host.responses = s.host.responses)
      ∧ t.chunkBytes = s.chunkBytes ∧ t.br = s.br ∧ t.src = s.src ∧ (∀ i, memRead t i = memRead s i)
      ∧ t.host.pending = s.host.pending ∧ t.host.nodeReads = s.host.nodeReads

/-- R88, R153: TSER's pass on an internal node's entry writes exactly the flag 1, whatever `sym` holds, counts the node,
and goes on with the left child, the right child waiting on the stack. -/
def Obligations.NodeInternalPassWritesTheFlag : Prop :=
  ∀ (sym : Symbol) (l r : NodeIdx) (s : State), WriterReady s → s.tc.t_nint ≠ 255 →
    ∃ t, exec (.nodeInternal sym l r) s = .next t
      ∧ acceptedBits t = acceptedBits s ++ [true] ∧ WriterReady t ∧ t.phase = .serializing
      ∧ t.tc = { t_cur := l, t_next := s.tc.t_next, t_nint := s.tc.t_nint + 1, t_nleaf := s.tc.t_nleaf,
                 t_stk := r :: s.tc.t_stk }
      ∧ t.chunkBytes = s.chunkBytes ∧ t.br = s.br ∧ t.src = s.src ∧ (∀ i, memRead t i = memRead s i)
      ∧ t.host = s.host

/-- R154: TDES's pass on a leaf record builds the leaf in the next free entry, with `left` and `right` 0, counts it, and
then either answers OK with the number of leaves or gives the parent pushed last, the top of the stack, the node built
next as its right child. Nothing else in NODE changes. -/
def Obligations.LeafPassBuildsTheLeaf : Prop :=
  ∀ (sym : Symbol) (s : State), s.tc.t_next < 511 → (∀ p ∈ s.tc.t_stk, p.toNat < s.tc.t_next) →
    ∃ t, exec (.leaf sym) s = .next t
      ∧ memRead t (BitVec.ofNat 9 s.tc.t_next) = some (mkEntry false sym 0#9 0#9)
      ∧ t.tc.t_next = s.tc.t_next + 1 ∧ t.tc.t_nleaf = s.tc.t_nleaf + 1 ∧ t.tc.t_nint = s.tc.t_nint
      ∧ (s.tc.t_stk = [] → t.phase = .idle
          ∧ t.host.responses = s.host.responses ++ [responseWord .ok (BitVec.ofNat 9 (s.tc.t_nleaf + 1))]
          ∧ ∀ i, i ≠ BitVec.ofNat 9 s.tc.t_next → memRead t i = memRead s i)
      ∧ (∀ p below, s.tc.t_stk = p :: below → t.phase = .deserializing ∧ t.tc.t_stk = below
          ∧ memRead t p = some (mkEntry true 0#8 (p + 1#9) (BitVec.ofNat 9 (s.tc.t_next + 1)))
          ∧ t.host.responses = s.host.responses
          ∧ ∀ i, i ≠ BitVec.ofNat 9 s.tc.t_next → i ≠ p → memRead t i = memRead s i)
      ∧ t.chunkBytes = s.chunkBytes ∧ t.bw = s.bw ∧ t.br = s.br ∧ t.sink = s.sink ∧ t.src = s.src
      ∧ t.host.pending = s.host.pending ∧ t.host.nodeReads = s.host.nodeReads

/-- R154: TDES's pass on an internal record builds a node in the next free entry whose left child is the node built next
and whose right child is 0 for now; the node waits on the stack. Nothing else in NODE changes. -/
def Obligations.InternalPassOpensANode : Prop :=
  ∀ s : State, s.tc.t_nint ≠ 255 →
    ∃ t, exec .internal s = .next t ∧ t.phase = .deserializing
      ∧ t.tc = { t_cur := s.tc.t_cur, t_next := s.tc.t_next + 1, t_nint := s.tc.t_nint + 1, t_nleaf := s.tc.t_nleaf,
                 t_stk := BitVec.ofNat 9 s.tc.t_next :: s.tc.t_stk }
      ∧ (∀ i, memRead t i = if i = BitVec.ofNat 9 s.tc.t_next
            then some (mkEntry true 0#8 (BitVec.ofNat 9 (s.tc.t_next + 1)) 0#9) else memRead s i)
      ∧ t.chunkBytes = s.chunkBytes ∧ t.bw = s.bw ∧ t.br = s.br ∧ t.sink = s.sink ∧ t.src = s.src ∧ t.host = s.host

/-- R158, R175, R179: the 256th internal node is refused. (a) The pass of TSER on it raises BadTree before it writes
anything for the node, whatever the sink would have answered; (b) the pass of TDES raises CorruptTree, which leaves
NODE[0..510] without a value (R161; log 3). That a pass is an instruction is the model's choice, log 5. (c) The whole
command TSER, when its walk meets 255 internal nodes and then another one, answers BAD_TREE, having written the records
met before it; `w_fail` stays 0 and NODE is unchanged. (d) The whole command TDES, when the stream goes on with records
that complete no tree and of which 255 are internal, and then with a flag 1, answers CORRUPT_TREE; that flag stays
consumed and nothing after it is. -/
def Obligations.The256thInternalNodeIsRefused : Prop :=
  (∀ (sym : Symbol) (l r : NodeIdx) (s : State), s.tc.t_nint = 255 →
      exec (.nodeInternal sym l r) s = .next { s with
        phase := .idle, host := { s.host with responses := s.host.responses ++ [0x4000#16] } })
    ∧ (∀ s : State, s.tc.t_nint = 255 →
        ∃ t, exec .internal s = .next t ∧ t.phase = .idle ∧ t.host.responses = s.host.responses ++ [0x3000#16]
          ∧ (∀ i, memRead t i = if i.toNat ≤ 510 then none else memRead s i)
          ∧ t.bw = s.bw ∧ t.br = s.br ∧ t.tc = s.tc ∧ t.sink = s.sink ∧ t.src = s.src)
    ∧ (∀ (root : NodeIdx) (rs : List Record) (s : State), WriterReady s →
        Arena.visits s.node (rs.length + 1) [root] = some (rs ++ [.internal]) → internalsIn rs = 255 →
        ∃ t, exec (.tser root) s = .next t ∧ t.host.responses = s.host.responses ++ [0x4000#16]
          ∧ acceptedBits t = acceptedBits s ++ rs.flatMap Record.bits ∧ WriterReady t
          ∧ t.phase = .idle ∧ t.chunkBytes = s.chunkBytes ∧ t.br = s.br ∧ t.src = s.src
          ∧ (∀ i, memRead t i = memRead s i) ∧ t.host.pending = s.host.pending ∧ t.host.nodeReads = s.host.nodeReads)
    ∧ ∀ (rs : List Record) (rest : List Bool) (s : State), ReaderReady s →
        unreadBits s = rs.flatMap Record.bits ++ true :: rest → internalsIn rs = 255 →
        (∀ k, leavesIn (rs.take k) ≤ internalsIn (rs.take k)) →
        ∃ t, exec .tdes s = .next t ∧ t.host.responses = s.host.responses ++ [0x3000#16]
          ∧ unreadBits t = rest ∧ readPosition t = readPosition s + (rs.flatMap Record.bits).length + 1 ∧ ReaderReady t
          ∧ (∀ i, memRead t i = if i.toNat ≤ 510 then none else memRead s i)
          ∧ t.phase = .idle ∧ t.chunkBytes = s.chunkBytes ∧ t.bw = s.bw ∧ t.sink = s.sink
          ∧ t.src.bytes = s.src.bytes ∧ t.host.pending = s.host.pending ∧ t.host.nodeReads = s.host.nodeReads

/-! ## The tree codec: whole commands -/

/-- R89: len(S(T)) = 10L − 1, and the form is self-delimiting: no serialization of a tree is a proper beginning of
another's. -/
def Obligations.SerializationIsSelfDelimiting : Prop :=
  (∀ T : Tree, T.serialize.length = 10 * T.leaves - 1 ∧ T.internals = T.leaves - 1)
    ∧ ∀ (T U : Tree) (x y : List Bool), T.serialize ++ x = U.serialize ++ y → T = U ∧ x = y

/-- R151, R153, R216: on a tree of at most 256 leaves TSER hands the writer exactly S(T), whatever the indices, the fields
a node does not use and the position of the writer, answers OK with the number of leaves, only reads NODE, and makes
⌊(8 · w_len + w_cnt + 10L − 1) / (8 · CHUNK_BYTES)⌋ transactions. -/
def Obligations.TserWritesTheSerialization : Prop :=
  ∀ (T : Tree) (root : NodeIdx) (s : State), WriterReady s → T.leaves ≤ 256 →
    Arena.holdsTree s.node root T = true →
    ∃ t, exec (.tser root) s = .next t
      ∧ acceptedBits t = acceptedBits s ++ T.serialize ∧ WriterReady t
      ∧ t.host.responses = s.host.responses ++ [responseWord .ok (BitVec.ofNat 9 T.leaves)]
      ∧ t.sink.tx.length = s.sink.tx.length
          + (8 * s.bw.w_buf.length + s.bw.w_cnt.val + (10 * T.leaves - 1)) / (8 * s.chunkBytes)
      ∧ t.phase = .idle ∧ t.chunkBytes = s.chunkBytes ∧ t.br = s.br ∧ t.src = s.src
      ∧ (∀ i, memRead t i = memRead s i) ∧ t.host.pending = s.host.pending ∧ t.host.nodeReads = s.host.nodeReads

/-- R154, R155: on a stream that goes on with S(T), T of at most 256 leaves, TDES consumes exactly S(T), answers OK with
the number of leaves and leaves Layout(T, 0) in NODE, so that T stands at index 0; entries from 2L − 1 upward are not
written, and the writer side is not touched. -/
def Obligations.TdesBuildsTheLayout : Prop :=
  ∀ (T : Tree) (rest : List Bool) (s : State), ReaderReady s → T.leaves ≤ 256 →
    unreadBits s = T.serialize ++ rest →
    ∃ t, exec .tdes s = .next t
      ∧ Arena.holdsLayout t.node 0 T = true ∧ Arena.holdsTree t.node 0#9 T = true
      ∧ (∀ i : NodeIdx, 2 * T.leaves - 1 ≤ i.toNat → memRead t i = memRead s i)
      ∧ unreadBits t = rest ∧ readPosition t = readPosition s + (10 * T.leaves - 1) ∧ ReaderReady t
      ∧ t.host.responses = s.host.responses ++ [responseWord .ok (BitVec.ofNat 9 T.leaves)]
      ∧ t.phase = .idle ∧ t.chunkBytes = s.chunkBytes ∧ t.bw = s.bw ∧ t.sink = s.sink
      ∧ t.src.bytes = s.src.bytes ∧ t.host.pending = s.host.pending ∧ t.host.nodeReads = s.host.nodeReads

/-- R154, R155: a TDES that answered OK has consumed exactly the serialization of a tree of at most 256 leaves and
has left its layout: nothing else makes it answer OK. -/
def Obligations.SuccessfulTdesConsumedATree : Prop :=
  ∀ s t : State, ReaderReady s → exec .tdes s = .next t → LastStatus t .ok →
    ∃ T : Tree, T.leaves ≤ 256 ∧ unreadBits s = T.serialize ++ unreadBits t
      ∧ Arena.holdsLayout t.node 0 T = true ∧ LastOk t T.leaves

/-- R156: the round trips. (a) The bits TSER wrote for a tree of at most 256 leaves, presented to TDES, with anything
after them, build a tree of the same value at index 0. (b) If TDES answered OK after consuming bits q, then TSER 0 writes
exactly q. -/
def Obligations.TreeRoundTrips : Prop :=
  (∀ (T : Tree) (root : NodeIdx) (s t u : State) (q rest : List Bool), WriterReady s → T.leaves ≤ 256 →
      Arena.holdsTree s.node root T = true → exec (.tser root) s = .next t → acceptedBits t = acceptedBits s ++ q →
      ReaderReady u → unreadBits u = q ++ rest →
      ∃ v, exec .tdes u = .next v ∧ LastOk v T.leaves ∧ Arena.holdsTree v.node 0#9 T = true)
    ∧ ∀ (s t : State) (q : List Bool), ReaderReady s → WriterReady s → exec .tdes s = .next t → LastStatus t .ok →
      unreadBits s = q ++ unreadBits t →
      ∃ u, exec (.tser 0#9) t = .next u ∧ acceptedBits u = acceptedBits t ++ q ∧ LastStatus u .ok

/-- R91, R203: the lines of R203 lay the file of R91 through SINK: both header counts, the serialized tree padded to a
byte boundary, and the payload padded to a byte boundary; nothing stays in the writer. An empty payload is the `wcode` of no
bits, which is the model's choice, log 22. -/
def Obligations.FileIsLaidThroughSink : Prop :=
  ∀ (T : Tree) (root : NodeIdx) (n : Nat) (payload : List Bool) (s : State), WriterReady s → s.bw = Bw.reset →
    T.leaves ≤ 256 → n < 2 ^ 32 → Arena.holdsTree s.node root T = true →
    ∃ t, runLine ([Line.wu32 T.leaves, .wu32 n, .tser root.toNat, .wflush, .wcode payload, .wflush].flatMap lineMoves) s
        = .next t
      ∧ t.sink.bytes = s.sink.bytes ++ compressedFile T n payload ∧ t.bw = Bw.reset

/-- R91, R204, R208: the lines of R204 read the file of R91 back from SRC: the two counts, the tree, which then stands
at index 0, the padding that RALIGN skips, and every bit of the payload. -/
def Obligations.FileIsReadBackFromSrc : Prop :=
  (∀ (T : Tree) (n : Nat) (payload : List Bool) (s : State), ReaderReady s → s.br = Br.reset → T.leaves ≤ 256 →
    s.src.bytes.drop s.src.src_pos = compressedFile T n payload →
    ∃ t, runLine ([Line.ru32, .ru32, .tdes, .ralign].flatMap lineMoves
          ++ List.replicate payload.length (.command 0x4000#16)) s = .next t
      ∧ t.host.responses = s.host.responses
          ++ (msbBits (BitVec.ofNat 32 T.leaves)).map okBit ++ (msbBits (BitVec.ofNat 32 n)).map okBit
          ++ [responseWord .ok (BitVec.ofNat 9 T.leaves),
              responseWord .ok (BitVec.ofNat 9 ((8 - (10 * T.leaves - 1) % 8) % 8))]
          ++ payload.map okBit
      ∧ Arena.holdsTree t.node 0#9 T = true)
    ∧ ∀ v : Nat, v < 2 ^ 32 → rbitsValue ((msbBits (BitVec.ofNat 32 v)).map okBit) = v

/-- R173, R154 (b), (c): a stream that ends inside a tree is answered CORRUPT_TREE, wherever it ends. -/
def Obligations.TruncatedTreeIsCorrupt : Prop :=
  ∀ (T : Tree) (missing : List Bool) (s : State), ReaderReady s → missing ≠ [] →
    unreadBits s ++ missing = T.serialize →
    ∃ t, exec .tdes s = .next t ∧ t.host.responses = s.host.responses ++ [0x3000#16]

/-- R161: after a TDES that did not answer OK, entries 0 to 510 hold no value (log 3), unless the command was refused
before its loop began, and then NODE is unchanged; entry 511 is never written. The illegal word is R86's statement. -/
def Obligations.FailedTdesLeavesNoTree : Prop :=
  ∀ s t : State, exec .tdes s = .next t →
    (s.br.r_fail = true → t.node = s.node)
      ∧ (s.br.r_fail = false → ¬ LastStatus t .ok → ∀ i : NodeIdx, i.toNat ≤ 510 → memRead t i = none)
      ∧ memRead t 511#9 = memRead s 511#9

/-- R158, R177: TSER answers BAD_TREE, changes nothing in NODE, leaves `w_fail` 0 and has written the records of 255 internal
nodes and of the leaves between them, (a) of a tree of more than 256 leaves; (b) of any arena in which every entry that
can be reached from the root holds a value and which holds no tree of at most 256 leaves there: so of every cycle,
through whichever child and over however many entries. (c) Of a root that is its own left child those records are 255
one-bits, whatever the rest of NODE holds. -/
def Obligations.CyclicOrTooLargeArenaIsABadTree : Prop :=
  (∀ (T : Tree) (root : NodeIdx) (s : State), WriterReady s → 256 < T.leaves → Arena.holdsTree s.node root T = true →
      ∃ t rs rest, exec (.tser root) s = .next t ∧ t.host.responses = s.host.responses ++ [0x4000#16]
        ∧ T.serialize = rs.flatMap Record.bits ++ true :: rest ∧ internalsIn rs = 255
        ∧ acceptedBits t = acceptedBits s ++ rs.flatMap Record.bits ∧ t.bw.w_fail = false
        ∧ ∀ i, memRead t i = memRead s i)
    ∧ (∀ (root : NodeIdx) (reachable : NodeIdx → Prop) (s : State), WriterReady s → reachable root →
      (∀ i, reachable i → ∃ e, memRead s i = some e
        ∧ (entryKind e = true → reachable (entryLeft e) ∧ reachable (entryRight e))) →
      (∀ T : Tree, Arena.holdsTree s.node root T = true → 256 < T.leaves) →
      ∃ t rs, exec (.tser root) s = .next t ∧ t.host.responses = s.host.responses ++ [0x4000#16]
        ∧ Arena.visits s.node (rs.length + 1) [root] = some (rs ++ [.internal]) ∧ internalsIn rs = 255
        ∧ acceptedBits t = acceptedBits s ++ rs.flatMap Record.bits ∧ t.bw.w_fail = false
        ∧ ∀ i, memRead t i = memRead s i)
    ∧ ∀ (root : NodeIdx) (e : NodeWord) (s : State), WriterReady s → memRead s root = some e → entryKind e = true →
      entryLeft e = root →
      ∃ t, exec (.tser root) s = .next t ∧ t.host.responses = s.host.responses ++ [0x4000#16]
        ∧ acceptedBits t = acceptedBits s ++ List.replicate 255 true ∧ t.bw.w_fail = false
        ∧ ∀ i, memRead t i = memRead s i

/-- R112, R153, R171, R175, R179: a transaction that fails anywhere inside TSER. (a) When the first entries its walk meets
spell records, at most 255 of them internal, whose bits fill the buffer k + 1 times, the sink answers ok k times and then
fail, TSER answers IOERR with `w_fail` set; SINK has grown by the first k full buffers of the stream and a prefix, the
environment's choice, of the next one. (b) Whatever a TSER met: it answers IOERR exactly when it leaves `w_fail` set, and
SINK has then grown by the chunks offered, of the last a prefix. -/
def Obligations.FailedDrainInsideTserAnswersIoErr : Prop :=
  (∀ (root : NodeIdx) (n k kept : Nat) (rs : List Record) (rest : List SinkAnswer) (s : State), s.bw.w_fail = false →
      s.bw.w_buf.length < s.chunkBytes → Arena.visits s.node n [root] = some rs → internalsIn rs ≤ 255 →
      s.sink.answers = List.replicate k .ok ++ .fail kept :: rest →
      (k + 1) * (8 * s.chunkBytes) ≤ 8 * s.bw.w_buf.length + s.bw.w_cnt.val + (rs.flatMap Record.bits).length →
      ∃ t stream, exec (.tser root) s = .next t
        ∧ stream = s.bw.w_buf ++ pack (topBits s.bw.w_acc s.bw.w_cnt.val ++ rs.flatMap Record.bits)
        ∧ t.bw.w_fail = true ∧ t.host.responses = s.host.responses ++ [0x2000#16]
        ∧ t.sink.bytes = s.sink.bytes ++ stream.take (k * s.chunkBytes)
          ++ ((stream.drop (k * s.chunkBytes)).take s.chunkBytes).take kept
        ∧ t.sink.tx.length = s.sink.tx.length + k + 1
        ∧ t.phase = .idle ∧ t.chunkBytes = s.chunkBytes ∧ t.br = s.br ∧ t.src = s.src
        ∧ (∀ i, memRead t i = memRead s i) ∧ t.host.pending = s.host.pending ∧ t.host.nodeReads = s.host.nodeReads)
    ∧ ∀ (root : NodeIdx) (s t : State), s.bw.w_fail = false → exec (.tser root) s = .next t →
      (t.bw.w_fail = true ↔ t.host.responses = s.host.responses ++ [0x2000#16])
        ∧ (t.bw.w_fail = true → ∃ chunks last kept, t.sink.tx = s.sink.tx ++ chunks ++ [last]
          ∧ t.sink.bytes = s.sink.bytes ++ chunks.flatten ++ last.take kept)

/-- U3, D25: TSER of a root whose entry holds no value stops with the fault, and reads it as nothing else. -/
def Obligations.TserOfAnUnwrittenRootFaults : Prop :=
  ∀ (root : NodeIdx) (s : State), s.bw.w_fail = false → memRead s root = none →
    exec (.tser root) s = .fault (.unwrittenNode root)

/-! ## Whole-machine rules -/

/-- R59, R64, R115 to R117, R153, R191: the writer-side commands never touch BR, SRC or NODE, nor the host's moves; those
without a codec loop touch TC neither. -/
def Obligations.WriterCommandsLeaveTheRestAlone : Prop :=
  ∀ (i : Instr) (s t : State), exec i s = .next t →
    ((∃ b, i = .wbit b) ∨ i = .wflush ∨ i = .wrst → OnlyWriterSide s t)
      ∧ ((∃ root, i = .tser root) → t.chunkBytes = s.chunkBytes ∧ t.br = s.br ∧ t.src = s.src
          ∧ (∀ j, memRead t j = memRead s j) ∧ t.host.pending = s.host.pending ∧ t.host.nodeReads = s.host.nodeReads)

/-- R59, R64, R133 to R135, R154, R191: the reader-side commands never touch BW or SINK, nor SRC's bytes, nor the host's
moves; those without a codec loop touch neither NODE nor TC. -/
def Obligations.ReaderCommandsLeaveTheRestAlone : Prop :=
  ∀ (i : Instr) (s t : State), exec i s = .next t →
    (i = .rbit ∨ i = .ralign ∨ i = .rrst → OnlyReaderSide s t)
      ∧ (i = .tdes → t.chunkBytes = s.chunkBytes ∧ t.bw = s.bw ∧ t.sink = s.sink ∧ t.src.bytes = s.src.bytes
          ∧ t.host.pending = s.host.pending ∧ t.host.nodeReads = s.host.nodeReads)

/-- R66, R185: the two sides share no state but NODE. What a writer-side command does is the same whatever BR and the
source hold, and what a reader-side command does is the same whatever BW and the sink hold. -/
def Obligations.TheTwoSidesDoNotInterfere : Prop :=
  (∀ (i : Instr) (s : State) (br : Br) (src : Src),
      ((∃ b, i = .wbit b) ∨ i = .wflush ∨ i = .wrst ∨ ∃ root, i = .tser root) →
      exec i { s with br := br, src := src } =
        match exec i s with
        | .next t => .next { t with br := br, src := src }
        | .fault f => .fault f
        | .refused r => .refused r)
    ∧ ∀ (i : Instr) (s : State) (bw : Bw) (sink : Sink),
      (i = .rbit ∨ i = .ralign ∨ i = .rrst ∨ i = .tdes) →
      exec i { s with bw := bw, sink := sink } =
        match exec i s with
        | .next t => .next { t with bw := bw, sink := sink }
        | .fault f => .fault f
        | .refused r => .refused r

/-- R12, R153, R154: TSER and TDES are their loops: started, stepped and ended. Between two passes a step of the machine
is the pass, so the atomic command comes to what the steps come to (the passes as steps are the model's own, log 5). -/
def Obligations.CodecCommandsAreRunsOfTheStep : Prop :=
  (∀ s : State, s.phase = .serializing → step s = serializePass s)
    ∧ (∀ s : State, s.phase = .deserializing → step s = deserializePass s)
    ∧ (∀ (root : NodeIdx) (s t : State), s.bw.w_fail = false → exec (.tser root) s = .next t →
        ∃ n, stepTimes n { s with
          phase := .serializing
          tc := { t_cur := root, t_next := s.tc.t_next, t_nint := 0, t_nleaf := 0, t_stk := [] } } = .next t
          ∧ t.phase = .idle)
    ∧ ∀ s t : State, s.br.r_fail = false → exec .tdes s = .next t →
        ∃ n, stepTimes n { s with
          phase := .deserializing
          tc := { t_cur := s.tc.t_cur, t_next := 0, t_nint := 0, t_nleaf := 0, t_stk := [] } } = .next t
          ∧ t.phase = .idle

/-- R25, R29, R33, R182: the sticky flags. In a host move `w_fail` goes from 1 to 0 only by WRST or block reset, `r_fail`
and `r_eos` only by RRST or block reset. -/
def Obligations.StickyFlagsAreClearedOnlyByResets : Prop :=
  ∀ (m : HostMove) (s t : State), hostMove m s = .next t →
    (s.bw.w_fail = true → t.bw.w_fail = false → m = .command 0x3000#16 ∨ m = .blockReset)
      ∧ (s.br.r_fail = true → t.br.r_fail = false → m = .command 0x6000#16 ∨ m = .blockReset)
      ∧ (s.br.r_eos = true → t.br.r_eos = false → m = .command 0x6000#16 ∨ m = .blockReset)

/-- R31, R51, R201: NODE is changed only by the host's own write, by TDES and by block reset. -/
def Obligations.OnlyTheHostAndTdesWriteNode : Prop :=
  ∀ (m : HostMove) (s t : State), hostMove m s = .next t → t.node ≠ s.node →
    (∃ i v, m = .nodeWrite i v) ∨ m = .command 0x9000#16 ∨ m = .blockReset

/-- R37, R53, R54, R59: SINK only grows, at its end; SRC is never written, and its read position never moves back nor out
of SRC. -/
def Obligations.SinkIsAppendedToAndSrcIsReadInOrder : Prop :=
  ∀ (i : Instr) (s t : State), exec i s = .next t →
    s.sink.bytes <+: t.sink.bytes ∧ t.src.bytes = s.src.bytes ∧ s.src.src_pos ≤ t.src.src_pos
      ∧ (s.src.src_pos ≤ s.src.bytes.length → t.src.src_pos ≤ s.src.bytes.length)

/-- R95: the host makes the moves of a line in order and stops at the first response whose status is not OK. -/
def Obligations.ALineStopsAtTheFirstResponseNotOk : Prop :=
  ∀ (m : HostMove) (rest : List HostMove) (s t : State), hostMove m s = .next t →
    (answeredOk s t = true → runLine (m :: rest) s = runLine rest t)
      ∧ (answeredOk s t = false → runLine (m :: rest) s = .next t)
end

