-- ==== Sys2Proof/Laws/State.lean ====
section
/-! SUPPORT. One lemma per field and update of State: an update leaves every other field as it was, and what it does to
its own. All hold by unfolding, so that no later proof unfolds a record update. -/

namespace Sys2Proof.Machine

/-! ### `respond` -/

@[simp] theorem respond_chunkBytes (st : Status) (data : BitVec 9) (s : State) : (respond st data s).chunkBytes = s.chunkBytes := rfl
@[simp] theorem respond_bw (st : Status) (data : BitVec 9) (s : State) : (respond st data s).bw = s.bw := rfl
@[simp] theorem respond_br (st : Status) (data : BitVec 9) (s : State) : (respond st data s).br = s.br := rfl
@[simp] theorem respond_tc (st : Status) (data : BitVec 9) (s : State) : (respond st data s).tc = s.tc := rfl
@[simp] theorem respond_node (st : Status) (data : BitVec 9) (s : State) : (respond st data s).node = s.node := rfl
@[simp] theorem respond_sink (st : Status) (data : BitVec 9) (s : State) : (respond st data s).sink = s.sink := rfl
@[simp] theorem respond_src (st : Status) (data : BitVec 9) (s : State) : (respond st data s).src = s.src := rfl

/-! ### `memWrite` -/

@[simp] theorem memWrite_chunkBytes (i : NodeIdx) (v : NodeWord) (s : State) : (memWrite i v s).chunkBytes = s.chunkBytes := rfl
@[simp] theorem memWrite_bw (i : NodeIdx) (v : NodeWord) (s : State) : (memWrite i v s).bw = s.bw := rfl
@[simp] theorem memWrite_br (i : NodeIdx) (v : NodeWord) (s : State) : (memWrite i v s).br = s.br := rfl
@[simp] theorem memWrite_tc (i : NodeIdx) (v : NodeWord) (s : State) : (memWrite i v s).tc = s.tc := rfl
@[simp] theorem memWrite_phase (i : NodeIdx) (v : NodeWord) (s : State) : (memWrite i v s).phase = s.phase := rfl
@[simp] theorem memWrite_sink (i : NodeIdx) (v : NodeWord) (s : State) : (memWrite i v s).sink = s.sink := rfl
@[simp] theorem memWrite_src (i : NodeIdx) (v : NodeWord) (s : State) : (memWrite i v s).src = s.src := rfl
@[simp] theorem memWrite_host (i : NodeIdx) (v : NodeWord) (s : State) : (memWrite i v s).host = s.host := rfl

/-! ### `spoilNode` -/

@[simp] theorem spoilNode_chunkBytes (s : State) : (spoilNode s).chunkBytes = s.chunkBytes := rfl
@[simp] theorem spoilNode_bw (s : State) : (spoilNode s).bw = s.bw := rfl
@[simp] theorem spoilNode_br (s : State) : (spoilNode s).br = s.br := rfl
@[simp] theorem spoilNode_tc (s : State) : (spoilNode s).tc = s.tc := rfl
@[simp] theorem spoilNode_phase (s : State) : (spoilNode s).phase = s.phase := rfl
@[simp] theorem spoilNode_sink (s : State) : (spoilNode s).sink = s.sink := rfl
@[simp] theorem spoilNode_src (s : State) : (spoilNode s).src = s.src := rfl
@[simp] theorem spoilNode_host (s : State) : (spoilNode s).host = s.host := rfl

/-! ### `resetWriter` -/

@[simp] theorem resetWriter_chunkBytes (s : State) : (resetWriter s).chunkBytes = s.chunkBytes := rfl
@[simp] theorem resetWriter_br (s : State) : (resetWriter s).br = s.br := rfl
@[simp] theorem resetWriter_tc (s : State) : (resetWriter s).tc = s.tc := rfl
@[simp] theorem resetWriter_node (s : State) : (resetWriter s).node = s.node := rfl
@[simp] theorem resetWriter_phase (s : State) : (resetWriter s).phase = s.phase := rfl
@[simp] theorem resetWriter_sink (s : State) : (resetWriter s).sink = s.sink := rfl
@[simp] theorem resetWriter_src (s : State) : (resetWriter s).src = s.src := rfl
@[simp] theorem resetWriter_host (s : State) : (resetWriter s).host = s.host := rfl

/-! ### `resetReader` -/

@[simp] theorem resetReader_chunkBytes (s : State) : (resetReader s).chunkBytes = s.chunkBytes := rfl
@[simp] theorem resetReader_bw (s : State) : (resetReader s).bw = s.bw := rfl
@[simp] theorem resetReader_tc (s : State) : (resetReader s).tc = s.tc := rfl
@[simp] theorem resetReader_node (s : State) : (resetReader s).node = s.node := rfl
@[simp] theorem resetReader_phase (s : State) : (resetReader s).phase = s.phase := rfl
@[simp] theorem resetReader_sink (s : State) : (resetReader s).sink = s.sink := rfl
@[simp] theorem resetReader_src (s : State) : (resetReader s).src = s.src := rfl
@[simp] theorem resetReader_host (s : State) : (resetReader s).host = s.host := rfl

/-! ### `blockReset` -/

@[simp] theorem blockReset_chunkBytes (s : State) : (blockReset s).chunkBytes = s.chunkBytes := rfl
@[simp] theorem blockReset_sink (s : State) : (blockReset s).sink = s.sink := rfl
@[simp] theorem blockReset_src (s : State) : (blockReset s).src = s.src := rfl
@[simp] theorem blockReset_host (s : State) : (blockReset s).host = s.host := rfl

/-! ### `setWFail` -/

@[simp] theorem setWFail_chunkBytes (s : State) : (setWFail s).chunkBytes = s.chunkBytes := rfl
@[simp] theorem setWFail_br (s : State) : (setWFail s).br = s.br := rfl
@[simp] theorem setWFail_tc (s : State) : (setWFail s).tc = s.tc := rfl
@[simp] theorem setWFail_node (s : State) : (setWFail s).node = s.node := rfl
@[simp] theorem setWFail_phase (s : State) : (setWFail s).phase = s.phase := rfl
@[simp] theorem setWFail_sink (s : State) : (setWFail s).sink = s.sink := rfl
@[simp] theorem setWFail_src (s : State) : (setWFail s).src = s.src := rfl
@[simp] theorem setWFail_host (s : State) : (setWFail s).host = s.host := rfl

/-! ### `setRFail` -/

@[simp] theorem setRFail_chunkBytes (s : State) : (setRFail s).chunkBytes = s.chunkBytes := rfl
@[simp] theorem setRFail_bw (s : State) : (setRFail s).bw = s.bw := rfl
@[simp] theorem setRFail_tc (s : State) : (setRFail s).tc = s.tc := rfl
@[simp] theorem setRFail_node (s : State) : (setRFail s).node = s.node := rfl
@[simp] theorem setRFail_phase (s : State) : (setRFail s).phase = s.phase := rfl
@[simp] theorem setRFail_sink (s : State) : (setRFail s).sink = s.sink := rfl
@[simp] theorem setRFail_src (s : State) : (setRFail s).src = s.src := rfl
@[simp] theorem setRFail_host (s : State) : (setRFail s).host = s.host := rfl

/-! ### `setREos` -/

@[simp] theorem setREos_chunkBytes (s : State) : (setREos s).chunkBytes = s.chunkBytes := rfl
@[simp] theorem setREos_bw (s : State) : (setREos s).bw = s.bw := rfl
@[simp] theorem setREos_tc (s : State) : (setREos s).tc = s.tc := rfl
@[simp] theorem setREos_node (s : State) : (setREos s).node = s.node := rfl
@[simp] theorem setREos_phase (s : State) : (setREos s).phase = s.phase := rfl
@[simp] theorem setREos_sink (s : State) : (setREos s).sink = s.sink := rfl
@[simp] theorem setREos_src (s : State) : (setREos s).src = s.src := rfl
@[simp] theorem setREos_host (s : State) : (setREos s).host = s.host := rfl

/-! ### `scrambleWriter` -/

@[simp] theorem scrambleWriter_chunkBytes (s : State) : (scrambleWriter s).chunkBytes = s.chunkBytes := rfl
@[simp] theorem scrambleWriter_br (s : State) : (scrambleWriter s).br = s.br := rfl
@[simp] theorem scrambleWriter_tc (s : State) : (scrambleWriter s).tc = s.tc := rfl
@[simp] theorem scrambleWriter_node (s : State) : (scrambleWriter s).node = s.node := rfl
@[simp] theorem scrambleWriter_phase (s : State) : (scrambleWriter s).phase = s.phase := rfl
@[simp] theorem scrambleWriter_src (s : State) : (scrambleWriter s).src = s.src := rfl
@[simp] theorem scrambleWriter_host (s : State) : (scrambleWriter s).host = s.host := rfl

/-! ### `scrambleReader` -/

@[simp] theorem scrambleReader_chunkBytes (s : State) : (scrambleReader s).chunkBytes = s.chunkBytes := rfl
@[simp] theorem scrambleReader_bw (s : State) : (scrambleReader s).bw = s.bw := rfl
@[simp] theorem scrambleReader_tc (s : State) : (scrambleReader s).tc = s.tc := rfl
@[simp] theorem scrambleReader_node (s : State) : (scrambleReader s).node = s.node := rfl
@[simp] theorem scrambleReader_phase (s : State) : (scrambleReader s).phase = s.phase := rfl
@[simp] theorem scrambleReader_sink (s : State) : (scrambleReader s).sink = s.sink := rfl
@[simp] theorem scrambleReader_host (s : State) : (scrambleReader s).host = s.host := rfl

/-! ### `pushByte` -/

@[simp] theorem pushByte_chunkBytes (byte : Byte) (s : State) : (pushByte byte s).chunkBytes = s.chunkBytes := rfl
@[simp] theorem pushByte_br (byte : Byte) (s : State) : (pushByte byte s).br = s.br := rfl
@[simp] theorem pushByte_tc (byte : Byte) (s : State) : (pushByte byte s).tc = s.tc := rfl
@[simp] theorem pushByte_node (byte : Byte) (s : State) : (pushByte byte s).node = s.node := rfl
@[simp] theorem pushByte_phase (byte : Byte) (s : State) : (pushByte byte s).phase = s.phase := rfl
@[simp] theorem pushByte_sink (byte : Byte) (s : State) : (pushByte byte s).sink = s.sink := rfl
@[simp] theorem pushByte_src (byte : Byte) (s : State) : (pushByte byte s).src = s.src := rfl
@[simp] theorem pushByte_host (byte : Byte) (s : State) : (pushByte byte s).host = s.host := rfl

/-! ### `emptyBuffer` -/

@[simp] theorem emptyBuffer_chunkBytes (s : State) : (emptyBuffer s).chunkBytes = s.chunkBytes := rfl
@[simp] theorem emptyBuffer_br (s : State) : (emptyBuffer s).br = s.br := rfl
@[simp] theorem emptyBuffer_tc (s : State) : (emptyBuffer s).tc = s.tc := rfl
@[simp] theorem emptyBuffer_node (s : State) : (emptyBuffer s).node = s.node := rfl
@[simp] theorem emptyBuffer_phase (s : State) : (emptyBuffer s).phase = s.phase := rfl
@[simp] theorem emptyBuffer_sink (s : State) : (emptyBuffer s).sink = s.sink := rfl
@[simp] theorem emptyBuffer_src (s : State) : (emptyBuffer s).src = s.src := rfl
@[simp] theorem emptyBuffer_host (s : State) : (emptyBuffer s).host = s.host := rfl

/-! ### `placeBit` -/

@[simp] theorem placeBit_chunkBytes (b : Bool) (s : State) : (placeBit b s).chunkBytes = s.chunkBytes := rfl
@[simp] theorem placeBit_br (b : Bool) (s : State) : (placeBit b s).br = s.br := rfl
@[simp] theorem placeBit_tc (b : Bool) (s : State) : (placeBit b s).tc = s.tc := rfl
@[simp] theorem placeBit_node (b : Bool) (s : State) : (placeBit b s).node = s.node := rfl
@[simp] theorem placeBit_phase (b : Bool) (s : State) : (placeBit b s).phase = s.phase := rfl
@[simp] theorem placeBit_sink (b : Bool) (s : State) : (placeBit b s).sink = s.sink := rfl
@[simp] theorem placeBit_src (b : Bool) (s : State) : (placeBit b s).src = s.src := rfl
@[simp] theorem placeBit_host (b : Bool) (s : State) : (placeBit b s).host = s.host := rfl

/-! ### `sinkTransaction` -/

@[simp] theorem sinkTransaction_chunkBytes (kept offered : List Byte) (s : State) : (sinkTransaction kept offered s).chunkBytes = s.chunkBytes := rfl
@[simp] theorem sinkTransaction_bw (kept offered : List Byte) (s : State) : (sinkTransaction kept offered s).bw = s.bw := rfl
@[simp] theorem sinkTransaction_br (kept offered : List Byte) (s : State) : (sinkTransaction kept offered s).br = s.br := rfl
@[simp] theorem sinkTransaction_tc (kept offered : List Byte) (s : State) : (sinkTransaction kept offered s).tc = s.tc := rfl
@[simp] theorem sinkTransaction_node (kept offered : List Byte) (s : State) : (sinkTransaction kept offered s).node = s.node := rfl
@[simp] theorem sinkTransaction_phase (kept offered : List Byte) (s : State) : (sinkTransaction kept offered s).phase = s.phase := rfl
@[simp] theorem sinkTransaction_src (kept offered : List Byte) (s : State) : (sinkTransaction kept offered s).src = s.src := rfl
@[simp] theorem sinkTransaction_host (kept offered : List Byte) (s : State) : (sinkTransaction kept offered s).host = s.host := rfl

/-! ### `srcTransaction` -/

@[simp] theorem srcTransaction_chunkBytes (taken : Nat) (reply : SrcReply) (s : State) : (srcTransaction taken reply s).chunkBytes = s.chunkBytes := rfl
@[simp] theorem srcTransaction_bw (taken : Nat) (reply : SrcReply) (s : State) : (srcTransaction taken reply s).bw = s.bw := rfl
@[simp] theorem srcTransaction_br (taken : Nat) (reply : SrcReply) (s : State) : (srcTransaction taken reply s).br = s.br := rfl
@[simp] theorem srcTransaction_tc (taken : Nat) (reply : SrcReply) (s : State) : (srcTransaction taken reply s).tc = s.tc := rfl
@[simp] theorem srcTransaction_node (taken : Nat) (reply : SrcReply) (s : State) : (srcTransaction taken reply s).node = s.node := rfl
@[simp] theorem srcTransaction_phase (taken : Nat) (reply : SrcReply) (s : State) : (srcTransaction taken reply s).phase = s.phase := rfl
@[simp] theorem srcTransaction_sink (taken : Nat) (reply : SrcReply) (s : State) : (srcTransaction taken reply s).sink = s.sink := rfl
@[simp] theorem srcTransaction_host (taken : Nat) (reply : SrcReply) (s : State) : (srcTransaction taken reply s).host = s.host := rfl

/-! ### `loadBuffer` -/

@[simp] theorem loadBuffer_chunkBytes (bs : List Byte) (s : State) : (loadBuffer bs s).chunkBytes = s.chunkBytes := rfl
@[simp] theorem loadBuffer_bw (bs : List Byte) (s : State) : (loadBuffer bs s).bw = s.bw := rfl
@[simp] theorem loadBuffer_tc (bs : List Byte) (s : State) : (loadBuffer bs s).tc = s.tc := rfl
@[simp] theorem loadBuffer_node (bs : List Byte) (s : State) : (loadBuffer bs s).node = s.node := rfl
@[simp] theorem loadBuffer_phase (bs : List Byte) (s : State) : (loadBuffer bs s).phase = s.phase := rfl
@[simp] theorem loadBuffer_sink (bs : List Byte) (s : State) : (loadBuffer bs s).sink = s.sink := rfl
@[simp] theorem loadBuffer_src (bs : List Byte) (s : State) : (loadBuffer bs s).src = s.src := rfl
@[simp] theorem loadBuffer_host (bs : List Byte) (s : State) : (loadBuffer bs s).host = s.host := rfl

/-! ### `startCodec` -/

@[simp] theorem startCodec_chunkBytes (p : Phase) (cur : NodeIdx) (next : Nat) (s : State) : (startCodec p cur next s).chunkBytes = s.chunkBytes := rfl
@[simp] theorem startCodec_bw (p : Phase) (cur : NodeIdx) (next : Nat) (s : State) : (startCodec p cur next s).bw = s.bw := rfl
@[simp] theorem startCodec_br (p : Phase) (cur : NodeIdx) (next : Nat) (s : State) : (startCodec p cur next s).br = s.br := rfl
@[simp] theorem startCodec_node (p : Phase) (cur : NodeIdx) (next : Nat) (s : State) : (startCodec p cur next s).node = s.node := rfl
@[simp] theorem startCodec_sink (p : Phase) (cur : NodeIdx) (next : Nat) (s : State) : (startCodec p cur next s).sink = s.sink := rfl
@[simp] theorem startCodec_src (p : Phase) (cur : NodeIdx) (next : Nat) (s : State) : (startCodec p cur next s).src = s.src := rfl
@[simp] theorem startCodec_host (p : Phase) (cur : NodeIdx) (next : Nat) (s : State) : (startCodec p cur next s).host = s.host := rfl

/-! ### `countLeaf` -/

@[simp] theorem countLeaf_chunkBytes (s : State) : (countLeaf s).chunkBytes = s.chunkBytes := rfl
@[simp] theorem countLeaf_bw (s : State) : (countLeaf s).bw = s.bw := rfl
@[simp] theorem countLeaf_br (s : State) : (countLeaf s).br = s.br := rfl
@[simp] theorem countLeaf_node (s : State) : (countLeaf s).node = s.node := rfl
@[simp] theorem countLeaf_phase (s : State) : (countLeaf s).phase = s.phase := rfl
@[simp] theorem countLeaf_sink (s : State) : (countLeaf s).sink = s.sink := rfl
@[simp] theorem countLeaf_src (s : State) : (countLeaf s).src = s.src := rfl
@[simp] theorem countLeaf_host (s : State) : (countLeaf s).host = s.host := rfl

/-! ### `enterNode` -/

@[simp] theorem enterNode_chunkBytes (l r : NodeIdx) (s : State) : (enterNode l r s).chunkBytes = s.chunkBytes := rfl
@[simp] theorem enterNode_bw (l r : NodeIdx) (s : State) : (enterNode l r s).bw = s.bw := rfl
@[simp] theorem enterNode_br (l r : NodeIdx) (s : State) : (enterNode l r s).br = s.br := rfl
@[simp] theorem enterNode_node (l r : NodeIdx) (s : State) : (enterNode l r s).node = s.node := rfl
@[simp] theorem enterNode_sink (l r : NodeIdx) (s : State) : (enterNode l r s).sink = s.sink := rfl
@[simp] theorem enterNode_src (l r : NodeIdx) (s : State) : (enterNode l r s).src = s.src := rfl
@[simp] theorem enterNode_host (l r : NodeIdx) (s : State) : (enterNode l r s).host = s.host := rfl

/-! ### `openNode` -/

@[simp] theorem openNode_chunkBytes (i : NodeIdx) (s : State) : (openNode i s).chunkBytes = s.chunkBytes := rfl
@[simp] theorem openNode_bw (i : NodeIdx) (s : State) : (openNode i s).bw = s.bw := rfl
@[simp] theorem openNode_br (i : NodeIdx) (s : State) : (openNode i s).br = s.br := rfl
@[simp] theorem openNode_node (i : NodeIdx) (s : State) : (openNode i s).node = s.node := rfl
@[simp] theorem openNode_sink (i : NodeIdx) (s : State) : (openNode i s).sink = s.sink := rfl
@[simp] theorem openNode_src (i : NodeIdx) (s : State) : (openNode i s).src = s.src := rfl
@[simp] theorem openNode_host (i : NodeIdx) (s : State) : (openNode i s).host = s.host := rfl

/-! ### `buildNode` -/

@[simp] theorem buildNode_chunkBytes (v : NodeWord) (s : State) : (buildNode v s).chunkBytes = s.chunkBytes := rfl
@[simp] theorem buildNode_bw (v : NodeWord) (s : State) : (buildNode v s).bw = s.bw := rfl
@[simp] theorem buildNode_br (v : NodeWord) (s : State) : (buildNode v s).br = s.br := rfl
@[simp] theorem buildNode_phase (v : NodeWord) (s : State) : (buildNode v s).phase = s.phase := rfl
@[simp] theorem buildNode_sink (v : NodeWord) (s : State) : (buildNode v s).sink = s.sink := rfl
@[simp] theorem buildNode_src (v : NodeWord) (s : State) : (buildNode v s).src = s.src := rfl
@[simp] theorem buildNode_host (v : NodeWord) (s : State) : (buildNode v s).host = s.host := rfl

/-! ### `dropMove` -/

@[simp] theorem dropMove_chunkBytes (s : State) : (dropMove s).chunkBytes = s.chunkBytes := rfl
@[simp] theorem dropMove_bw (s : State) : (dropMove s).bw = s.bw := rfl
@[simp] theorem dropMove_br (s : State) : (dropMove s).br = s.br := rfl
@[simp] theorem dropMove_tc (s : State) : (dropMove s).tc = s.tc := rfl
@[simp] theorem dropMove_node (s : State) : (dropMove s).node = s.node := rfl
@[simp] theorem dropMove_phase (s : State) : (dropMove s).phase = s.phase := rfl
@[simp] theorem dropMove_sink (s : State) : (dropMove s).sink = s.sink := rfl
@[simp] theorem dropMove_src (s : State) : (dropMove s).src = s.src := rfl

/-! ### `advanceCursor` -/

@[simp] theorem advanceCursor_chunkBytes (s : State) : (advanceCursor s).chunkBytes = s.chunkBytes := by unfold advanceCursor; split <;> rfl
@[simp] theorem advanceCursor_bw (s : State) : (advanceCursor s).bw = s.bw := by unfold advanceCursor; split <;> rfl
@[simp] theorem advanceCursor_tc (s : State) : (advanceCursor s).tc = s.tc := by unfold advanceCursor; split <;> rfl
@[simp] theorem advanceCursor_node (s : State) : (advanceCursor s).node = s.node := by unfold advanceCursor; split <;> rfl
@[simp] theorem advanceCursor_phase (s : State) : (advanceCursor s).phase = s.phase := by unfold advanceCursor; split <;> rfl
@[simp] theorem advanceCursor_sink (s : State) : (advanceCursor s).sink = s.sink := by unfold advanceCursor; split <;> rfl
@[simp] theorem advanceCursor_src (s : State) : (advanceCursor s).src = s.src := by unfold advanceCursor; split <;> rfl
@[simp] theorem advanceCursor_host (s : State) : (advanceCursor s).host = s.host := by unfold advanceCursor; split <;> rfl

/-! ### `alignCursor` -/

@[simp] theorem alignCursor_chunkBytes (s : State) : (alignCursor s).chunkBytes = s.chunkBytes := by unfold alignCursor; split <;> rfl
@[simp] theorem alignCursor_bw (s : State) : (alignCursor s).bw = s.bw := by unfold alignCursor; split <;> rfl
@[simp] theorem alignCursor_tc (s : State) : (alignCursor s).tc = s.tc := by unfold alignCursor; split <;> rfl
@[simp] theorem alignCursor_node (s : State) : (alignCursor s).node = s.node := by unfold alignCursor; split <;> rfl
@[simp] theorem alignCursor_phase (s : State) : (alignCursor s).phase = s.phase := by unfold alignCursor; split <;> rfl
@[simp] theorem alignCursor_sink (s : State) : (alignCursor s).sink = s.sink := by unfold alignCursor; split <;> rfl
@[simp] theorem alignCursor_src (s : State) : (alignCursor s).src = s.src := by unfold alignCursor; split <;> rfl
@[simp] theorem alignCursor_host (s : State) : (alignCursor s).host = s.host := by unfold alignCursor; split <;> rfl

/-! ### `completeByte` -/

@[simp] theorem completeByte_chunkBytes (s : State) : (completeByte s).chunkBytes = s.chunkBytes := by unfold completeByte; split <;> rfl
@[simp] theorem completeByte_br (s : State) : (completeByte s).br = s.br := by unfold completeByte; split <;> rfl
@[simp] theorem completeByte_tc (s : State) : (completeByte s).tc = s.tc := by unfold completeByte; split <;> rfl
@[simp] theorem completeByte_node (s : State) : (completeByte s).node = s.node := by unfold completeByte; split <;> rfl
@[simp] theorem completeByte_phase (s : State) : (completeByte s).phase = s.phase := by unfold completeByte; split <;> rfl
@[simp] theorem completeByte_sink (s : State) : (completeByte s).sink = s.sink := by unfold completeByte; split <;> rfl
@[simp] theorem completeByte_src (s : State) : (completeByte s).src = s.src := by unfold completeByte; split <;> rfl
@[simp] theorem completeByte_host (s : State) : (completeByte s).host = s.host := by unfold completeByte; split <;> rfl
/-! ### The fields each update does change -/

@[simp] theorem respond_phase (st : Status) (data : BitVec 9) (s : State) : (respond st data s).phase = .idle := rfl
@[simp] theorem respond_pending (st : Status) (data : BitVec 9) (s : State) :
    (respond st data s).host.pending = s.host.pending := rfl
@[simp] theorem respond_nodeReads (st : Status) (data : BitVec 9) (s : State) :
    (respond st data s).host.nodeReads = s.host.nodeReads := rfl
@[simp] theorem respond_responses (st : Status) (data : BitVec 9) (s : State) :
    (respond st data s).host.responses = s.host.responses ++ [responseWord st data] := rfl
@[simp] theorem memWrite_node (i : NodeIdx) (v : NodeWord) (s : State) :
    (memWrite i v s).node = Arena.put s.node i.toNat v := rfl
@[simp] theorem spoilNode_node (s : State) : (spoilNode s).node = Arena.spoil s.node := rfl
@[simp] theorem resetWriter_bw (s : State) : (resetWriter s).bw = Bw.reset := rfl
@[simp] theorem resetReader_br (s : State) : (resetReader s).br = Br.reset := rfl
@[simp] theorem blockReset_bw (s : State) : (blockReset s).bw = Bw.reset := rfl
@[simp] theorem blockReset_br (s : State) : (blockReset s).br = Br.reset := rfl
@[simp] theorem blockReset_tc (s : State) : (blockReset s).tc = Tc.reset := rfl
@[simp] theorem blockReset_node (s : State) : (blockReset s).node = [] := rfl
@[simp] theorem blockReset_phase (s : State) : (blockReset s).phase = .idle := rfl
@[simp] theorem setWFail_w_fail (s : State) : (setWFail s).bw.w_fail = true := rfl
@[simp] theorem setRFail_r_fail (s : State) : (setRFail s).br.r_fail = true := rfl
@[simp] theorem setREos_r_eos (s : State) : (setREos s).br.r_eos = true := rfl
@[simp] theorem setREos_r_fail (s : State) : (setREos s).br.r_fail = s.br.r_fail := rfl
@[simp] theorem setREos_r_buf (s : State) : (setREos s).br.r_buf = s.br.r_buf := rfl
@[simp] theorem setREos_r_pos (s : State) : (setREos s).br.r_pos = s.br.r_pos := rfl
@[simp] theorem setREos_r_bit (s : State) : (setREos s).br.r_bit = s.br.r_bit := rfl
@[simp] theorem scrambleWriter_w_fail (s : State) : (scrambleWriter s).bw.w_fail = s.bw.w_fail := rfl
@[simp] theorem scrambleWriter_sink_bytes (s : State) : (scrambleWriter s).sink.bytes = s.sink.bytes := rfl
@[simp] theorem scrambleWriter_sink_answers (s : State) : (scrambleWriter s).sink.answers = s.sink.answers := rfl
@[simp] theorem scrambleWriter_sink_tx (s : State) : (scrambleWriter s).sink.tx = s.sink.tx := rfl
@[simp] theorem scrambleReader_r_fail (s : State) : (scrambleReader s).br.r_fail = s.br.r_fail := rfl
@[simp] theorem scrambleReader_src_bytes (s : State) : (scrambleReader s).src.bytes = s.src.bytes := rfl
@[simp] theorem scrambleReader_src_pos (s : State) : (scrambleReader s).src.src_pos = s.src.src_pos := rfl
@[simp] theorem pushByte_w_buf (byte : Byte) (s : State) : (pushByte byte s).bw.w_buf = s.bw.w_buf ++ [byte] := rfl
@[simp] theorem pushByte_w_acc (byte : Byte) (s : State) : (pushByte byte s).bw.w_acc = 0#8 := rfl
@[simp] theorem pushByte_w_cnt (byte : Byte) (s : State) : (pushByte byte s).bw.w_cnt = 0 := rfl
@[simp] theorem pushByte_w_fail (byte : Byte) (s : State) : (pushByte byte s).bw.w_fail = s.bw.w_fail := rfl
@[simp] theorem emptyBuffer_bw (s : State) : (emptyBuffer s).bw = { s.bw with w_buf := [] } := rfl
@[simp] theorem placeBit_bw (b : Bool) (s : State) :
    (placeBit b s).bw = { s.bw with w_acc := accWith b s, w_cnt := s.bw.w_cnt + 1 } := rfl
@[simp] theorem sinkTransaction_sink (kept offered : List Byte) (s : State) :
    (sinkTransaction kept offered s).sink = { s.sink with
      bytes := s.sink.bytes ++ kept, answers := s.sink.answers.tail, tx := s.sink.tx ++ [offered] } := rfl
@[simp] theorem srcTransaction_src (taken : Nat) (reply : SrcReply) (s : State) :
    (srcTransaction taken reply s).src = { s.src with
      src_pos := s.src.src_pos + taken, answers := s.src.answers.tail, tx := s.src.tx ++ [reply] } := rfl
@[simp] theorem loadBuffer_br (bs : List Byte) (s : State) :
    (loadBuffer bs s).br = { s.br with r_buf := bs, r_pos := 0, r_bit := 0 } := rfl
@[simp] theorem startCodec_phase (p : Phase) (cur : NodeIdx) (next : Nat) (s : State) :
    (startCodec p cur next s).phase = p := rfl
@[simp] theorem startCodec_tc (p : Phase) (cur : NodeIdx) (next : Nat) (s : State) :
    (startCodec p cur next s).tc = { t_cur := cur, t_next := next, t_nint := 0, t_nleaf := 0, t_stk := [] } := rfl
@[simp] theorem countLeaf_tc (s : State) : (countLeaf s).tc = { s.tc with t_nleaf := s.tc.t_nleaf + 1 } := rfl
@[simp] theorem enterNode_tc (l r : NodeIdx) (s : State) : (enterNode l r s).tc =
    { s.tc with t_nint := s.tc.t_nint + 1, t_stk := r :: s.tc.t_stk, t_cur := l } := rfl
@[simp] theorem enterNode_phase (l r : NodeIdx) (s : State) : (enterNode l r s).phase = .serializing := rfl
@[simp] theorem openNode_tc (i : NodeIdx) (s : State) : (openNode i s).tc =
    { s.tc with t_nint := s.tc.t_nint + 1, t_stk := i :: s.tc.t_stk } := rfl
@[simp] theorem openNode_phase (i : NodeIdx) (s : State) : (openNode i s).phase = .deserializing := rfl
@[simp] theorem buildNode_tc (v : NodeWord) (s : State) :
    (buildNode v s).tc = { s.tc with t_next := s.tc.t_next + 1 } := rfl
@[simp] theorem buildNode_node (v : NodeWord) (s : State) :
    (buildNode v s).node = Arena.put s.node (nodeIdx s.tc.t_next).toNat v := rfl
@[simp] theorem dropMove_pending (s : State) : (dropMove s).host.pending = s.host.pending.tail := rfl
@[simp] theorem dropMove_responses (s : State) : (dropMove s).host.responses = s.host.responses := rfl
@[simp] theorem dropMove_nodeReads (s : State) : (dropMove s).host.nodeReads = s.host.nodeReads := rfl

/-! ### Exceptions are answers -/

@[simp] theorem raise_eq_respond (e : Exc) (s : State) : raise e s = respond e.status 0#9 s := rfl
@[simp] theorem raiseInTdes_eq_respond (e : Exc) (s : State) :
    raiseInTdes e s = respond e.status 0#9 (spoilNode s) := rfl
@[simp] theorem answerIllegal_eq_respond (s : State) : answerIllegal s = respond .illegal 0#9 s := rfl

end Sys2Proof.Machine
end

