-- ==== Sys2Proof/Laws/Memory.lean ====
section
/-! SUPPORT. The laws of NODE: a read after a write, and that every operation keeps the canonical form. -/

namespace Sys2Proof.Machine

theorem Arena.get?_put_same (m : Arena) (i : Nat) (v : NodeWord) : (m.put i v).get? i = some v := by
  induction m with
  | nil => simp [put, get?]
  | cons c rest ih =>
    obtain ⟨j, w⟩ := c
    unfold put
    split
    · simp [get?]
    · split
      · simp [get?]
      · have h : j ≠ i := fun e => by omega
        simp [get?, h, ih]

theorem Arena.get?_put_other (m : Arena) {i j : Nat} (v : NodeWord) (h : j ≠ i) :
    (m.put i v).get? j = m.get? j := by
  induction m with
  | nil => simp [put, get?, Ne.symm h]
  | cons c rest ih =>
    obtain ⟨k, w⟩ := c
    unfold put
    split
    · simp [get?, Ne.symm h]
    · split
      · rename_i hk
        subst hk
        simp [get?, Ne.symm h]
      · simp only [get?, ih]

theorem Arena.get?_put (m : Arena) (i j : Nat) (v : NodeWord) :
    (m.put i v).get? j = if j = i then some v else m.get? j := by
  split
  · rename_i h
    rw [h, m.get?_put_same]
  · rename_i h
    exact m.get?_put_other v h

theorem Arena.get?_spoil (m : Arena) (i : Nat) :
    m.spoil.get? i = if i ≤ 510 then none else m.get? i := by
  induction m with
  | nil => simp [spoil, get?]
  | cons c rest ih =>
    obtain ⟨j, w⟩ := c
    unfold spoil at *
    by_cases hj : 510 < j <;> by_cases hi : j = i
    · subst hi
      simp [hj, get?]
    · simpa [List.filter_cons, hj, get?, hi] using ih
    · subst hi
      have hle : j ≤ 510 := by omega
      simpa [List.filter_cons, hj, get?, hle] using ih
    · simpa [List.filter_cons, hj, get?, hi] using ih

/-- What the canonical form says, as propositions. -/
theorem Arena.wf_iff (m : Arena) :
    m.wf = true ↔ (m.Pairwise fun a b => a.1 < b.1) ∧ ∀ c ∈ m, c.1 < 512 := by
  simp only [wf, Bool.and_eq_true, decide_eq_true_eq, List.all_eq_true]
  exact Iff.rfl

theorem Arena.wf_nil : Arena.wf [] = true := by decide

theorem Arena.mem_put {m : Arena} {i : Nat} {v : NodeWord} {c : Nat × NodeWord} (h : c ∈ m.put i v) :
    c = (i, v) ∨ c ∈ m := by
  induction m with
  | nil => simpa [put] using h
  | cons d rest ih =>
    obtain ⟨j, w⟩ := d
    unfold put at h
    split at h
    · simpa using h
    · split at h
      · rcases List.mem_cons.mp h with h | h
        · exact .inl h
        · exact .inr (List.mem_cons_of_mem _ h)
      · rcases List.mem_cons.mp h with h | h
        · exact .inr (h ▸ List.mem_cons_self)
        · exact (ih h).imp id (List.mem_cons_of_mem _)

/-- A write keeps the canonical form. -/
theorem Arena.wf_put {m : Arena} {i : Nat} (v : NodeWord) (h : m.wf = true) (hi : i < 512) :
    (m.put i v).wf = true := by
  rw [wf_iff] at *
  obtain ⟨hs, hb⟩ := h
  refine ⟨?_, fun c hc => (mem_put hc).elim (fun e => e ▸ hi) (hb c)⟩
  clear hb
  induction m with
  | nil => simp [put]
  | cons d rest ih =>
    obtain ⟨j, w⟩ := d
    rw [List.pairwise_cons] at hs
    unfold put
    split
    · rename_i hlt
      refine List.pairwise_cons.mpr ⟨fun c hc => ?_, List.pairwise_cons.mpr hs⟩
      rcases List.mem_cons.mp hc with rfl | hc
      · exact hlt
      · exact Nat.lt_trans hlt (hs.1 c hc)
    · split
      · rename_i heq
        subst heq
        exact List.pairwise_cons.mpr hs
      · refine List.pairwise_cons.mpr ⟨fun c hc => ?_, ih hs.2⟩
        rcases mem_put hc with rfl | hc
        · show j < i
          omega
        · exact hs.1 c hc

/-- Spoiling keeps the canonical form. -/
theorem Arena.wf_spoil {m : Arena} (h : m.wf = true) : m.spoil.wf = true := by
  rw [wf_iff] at *
  exact ⟨h.1.filter _, fun c hc => h.2 c (List.mem_of_mem_filter hc)⟩

/-! ### Reads of the state -/

@[simp] theorem memRead_respond (st : Status) (d : BitVec 9) (s : State) (i : NodeIdx) :
    memRead (respond st d s) i = memRead s i := rfl

theorem memRead_congr {s t : State} (h : t.node = s.node) (i : NodeIdx) : memRead t i = memRead s i := by
  unfold memRead
  rw [h]

theorem memRead_memWrite (i j : NodeIdx) (v : NodeWord) (s : State) :
    memRead (memWrite i v s) j = if j = i then some v else memRead s j := by
  simp only [memRead, memWrite_node, Arena.get?_put, BitVec.toNat_inj]

theorem memRead_spoilNode (s : State) (i : NodeIdx) :
    memRead (spoilNode s) i = if i.toNat ≤ 510 then none else memRead s i := by
  simp only [memRead, spoilNode_node, Arena.get?_spoil]

theorem wf_memWrite {s : State} (i : NodeIdx) (v : NodeWord) (h : Arena.wf s.node = true) :
    Arena.wf (memWrite i v s).node = true := Arena.wf_put v h i.isLt

end Sys2Proof.Machine
end

