-- ==== Sys2Proof/Laws/Streams.lean ====
section
/-! SUPPORT. The laws of bit strings: most significant bit first in words, packing and unpacking (20_memory.md R56). -/

namespace Sys2Proof

/-! ### Words as bit strings -/

@[simp] theorem length_msbBits {n : Nat} (v : BitVec n) : (msbBits v).length = n := by simp [msbBits]

theorem getElem_msbBits {n : Nat} (v : BitVec n) (i : Nat) (h : i < (msbBits v).length) :
    (msbBits v)[i] = v.getMsbD i := by simp [msbBits]

theorem msbBits_inj {n : Nat} {v w : BitVec n} (h : msbBits v = msbBits w) : v = w := by
  apply BitVec.eq_of_getMsbD_eq
  intro i hi
  have hv : i < (msbBits v).length := by simpa using hi
  have hw : i < (msbBits w).length := by simpa using hi
  rw [← getElem_msbBits v i hv, ← getElem_msbBits w i hw]
  simp only [h]

theorem natOfMsbBits_concat (bs : List Bool) (b : Bool) :
    natOfMsbBits (bs ++ [b]) = 2 * natOfMsbBits bs + b.toNat := by
  simp [natOfMsbBits]

theorem testBit_natOfMsbBits (bs : List Bool) (i : Nat) :
    (natOfMsbBits bs).testBit i = bs.reverse.getD i false := by
  induction bs using List.reverseRecOn generalizing i with
  | nil => simp [natOfMsbBits]
  | append_singleton bs b ih =>
    rw [natOfMsbBits_concat, List.reverse_concat]
    cases i with
    | zero => cases b <;> simp [Nat.testBit_zero, Nat.add_mod]
    | succ i =>
      rw [Nat.testBit_succ, List.getD_cons_succ, ← ih]
      congr 1
      cases b <;> (simp; try omega)

/-- A word is the number its bits spell. -/
theorem natOfMsbBits_msbBits {n : Nat} (v : BitVec n) : natOfMsbBits (msbBits v) = v.toNat := by
  apply Nat.eq_of_testBit_eq
  intro i
  rw [testBit_natOfMsbBits, BitVec.testBit_toNat]
  by_cases hi : i < n
  · rw [List.getD_eq_getElem _ _ (by simpa using hi), List.getElem_reverse, getElem_msbBits,
      BitVec.getMsbD, length_msbBits]
    simp only [show n - 1 - i < n by omega, decide_true, Bool.true_and]
    congr 1
    omega
  · rw [List.getD_eq_default _ _ (by simpa using hi), BitVec.getLsbD_of_ge _ _ (by omega)]

theorem natOfMsbBits_lt (bs : List Bool) : natOfMsbBits bs < 2 ^ bs.length := by
  induction bs using List.reverseRecOn with
  | nil => simp [natOfMsbBits]
  | append_singleton bs b ih =>
    rw [natOfMsbBits_concat, List.length_append, List.length_singleton, Nat.pow_succ]
    cases b <;> simp <;> omega

/-- Eight bits are the bits of the byte they spell. -/
theorem msbBits_symbolOfBits {bs : List Bool} (h : bs.length = 8) : msbBits (symbolOfBits bs) = bs := by
  apply List.ext_getElem (by simp [h])
  intro i h1 h2
  have hi : i < 8 := by simpa using h1
  rw [getElem_msbBits, BitVec.getMsbD, symbolOfBits, BitVec.getLsbD_ofNat, testBit_natOfMsbBits,
    List.getD_eq_getElem _ _ (by simp [h]; omega), List.getElem_reverse]
  simp only [hi, show 8 - 1 - i < 8 by omega, decide_true, Bool.true_and]
  congr 1
  omega

@[simp] theorem symbolOfBits_msbBits (s : Symbol) : symbolOfBits (msbBits s) = s := by
  rw [symbolOfBits, natOfMsbBits_msbBits, BitVec.ofNat_toNat, BitVec.setWidth_eq]

namespace Machine

/-! ### Unpacking -/

@[simp] theorem unpack_nil : unpack [] = [] := rfl

@[simp] theorem unpack_cons (b : Byte) (bs : List Byte) : unpack (b :: bs) = msbBits b ++ unpack bs := rfl

@[simp] theorem unpack_append (as bs : List Byte) : unpack (as ++ bs) = unpack as ++ unpack bs := by
  simp [unpack]

@[simp] theorem length_unpack (bs : List Byte) : (unpack bs).length = 8 * bs.length := by
  induction bs with
  | nil => rfl
  | cons b bs ih => simp [ih]; omega

theorem unpack_inj {as bs : List Byte} (h : unpack as = unpack bs) : as = bs := by
  induction as generalizing bs with
  | nil =>
    have hl := congrArg List.length h
    simp only [unpack_nil, List.length_nil, length_unpack] at hl
    exact (List.length_eq_zero_iff.mp (by omega)).symm
  | cons a as ih =>
    cases bs with
    | nil =>
      have hl := congrArg List.length h
      simp at hl
    | cons b bs =>
      rw [unpack_cons, unpack_cons] at h
      obtain ⟨h1, h2⟩ := List.append_inj h (by simp)
      rw [msbBits_inj h1, ih h2]

/-- Bit k of `unpack(bytes)` is bit 7 − (k mod 8) of byte k div 8 (R56). -/
theorem getElem?_unpack (bs : List Byte) (k : Nat) :
    (unpack bs)[k]? = (bs[k / 8]?).map fun b => b.getMsbD (k % 8) := by
  induction bs generalizing k with
  | nil => simp
  | cons b bs ih =>
    rw [unpack_cons]
    by_cases hk : k < 8
    · have h1 : k / 8 = 0 := by omega
      have h2 : k % 8 = k := by omega
      rw [List.getElem?_append_left (by simpa using hk), h1, h2,
        List.getElem?_eq_getElem (by simpa using hk), getElem_msbBits]
      rfl
    · have h1 : k / 8 = (k - 8) / 8 + 1 := by omega
      have h2 : k % 8 = (k - 8) % 8 := by omega
      rw [List.getElem?_append_right (by simpa using hk), length_msbBits, ih, h1, h2, List.getElem?_cons_succ]

theorem unpack_drop (bs : List Byte) (n : Nat) : unpack (bs.drop n) = (unpack bs).drop (8 * n) := by
  induction n generalizing bs with
  | zero => simp
  | succ n ih =>
    cases bs with
    | nil => simp
    | cons b bs =>
      have h : 8 * (n + 1) = (msbBits b).length + 8 * n := by rw [length_msbBits]; omega
      rw [List.drop_succ_cons, ih, unpack_cons, h, List.drop_length_add_append]

theorem unpack_take (bs : List Byte) (n : Nat) : unpack (bs.take n) = (unpack bs).take (8 * n) := by
  induction n generalizing bs with
  | zero => simp
  | succ n ih =>
    cases bs with
    | nil => simp
    | cons b bs =>
      have h : 8 * (n + 1) = (msbBits b).length + 8 * n := by rw [length_msbBits]; omega
      rw [List.take_succ_cons, unpack_cons, ih, unpack_cons, h, List.take_length_add_append]

/-! ### Packing -/

theorem packByte_append {xs : List Bool} (h : xs.length = 8) (rest : List Bool) (j : Nat) :
    packByte (xs ++ rest) (j + 1) = packByte rest j := by
  unfold packByte
  congr 3
  funext i
  rw [List.getD_append_right _ _ _ _ (by omega)]
  congr 1
  omega

theorem packByte_zero {xs : List Bool} (h : xs.length = 8) (rest : List Bool) :
    packByte (xs ++ rest) 0 = symbolOfBits xs := by
  unfold packByte symbolOfBits
  congr 2
  apply List.ext_getElem (by simp [h])
  intro i h1 h2
  simp only [List.getElem_map, List.getElem_range, Nat.mul_zero, Nat.zero_add]
  rw [List.getD_append _ _ _ _ h2, List.getD_eq_getElem _ _ h2]

@[simp] theorem pack_nil : pack [] = [] := rfl

theorem length_pack (bits : List Bool) : (pack bits).length = (bits.length + 7) / 8 := by simp [pack]

/-- A whole byte of bits packs to that byte. -/
theorem pack_eight {xs : List Bool} (h : xs.length = 8) (rest : List Bool) :
    pack (xs ++ rest) = symbolOfBits xs :: pack rest := by
  have hn : ((xs ++ rest).length + 7) / 8 = (rest.length + 7) / 8 + 1 := by
    rw [List.length_append, h]; omega
  unfold pack
  rw [hn, List.range_succ_eq_map, List.map_cons, packByte_zero h, List.map_map]
  congr 1
  apply List.map_congr_left
  intro j _
  exact packByte_append h rest j

/-- Whole bytes pack to themselves. -/
theorem pack_unpack_append (bs : List Byte) (rest : List Bool) : pack (unpack bs ++ rest) = bs ++ pack rest := by
  induction bs with
  | nil => simp
  | cons b bs ih =>
    rw [unpack_cons, List.append_assoc, pack_eight (by simp), symbolOfBits_msbBits, ih, List.cons_append]

theorem pack_unpack (bs : List Byte) : pack (unpack bs) = bs := by
  simpa using pack_unpack_append bs []

/-- Fewer than eight bits pack to one byte, which holds them and then zeros. -/
theorem pack_short {xs : List Bool} (h0 : xs ≠ []) (h : xs.length < 8) :
    pack xs = [symbolOfBits (xs ++ List.replicate (8 - xs.length) false)] := by
  have hp : 0 < xs.length := List.length_pos_iff.mpr h0
  have hn : (xs.length + 7) / 8 = 1 := by omega
  unfold pack
  rw [hn]
  simp only [List.range_one, List.map_cons, List.map_nil]
  congr 1
  unfold packByte symbolOfBits
  congr 2
  apply List.ext_getElem (by simp; omega)
  intro i h1 h2
  simp only [List.getElem_map, List.getElem_range, Nat.mul_zero, Nat.zero_add]
  by_cases hi : i < xs.length
  · rw [List.getElem_append_left hi, List.getD_eq_getElem _ _ hi]
  · rw [List.getElem_append_right (by omega), List.getD_eq_default _ _ (by omega), List.getElem_replicate]

/-- Every bit string is whole bytes and fewer than eight bits after them. -/
theorem bits_cases (bits : List Bool) : ∃ (bs : List Byte) (rest : List Bool), bits = unpack bs ++ rest ∧ rest.length < 8 := by
  induction hn : bits.length using Nat.strong_induction_on generalizing bits with
  | _ n ih =>
    by_cases h : bits.length < 8
    · exact ⟨[], bits, by simp, h⟩
    · obtain ⟨bs, rest, hb, hr⟩ := ih (bits.drop 8).length (by simp; omega) (bits.drop 8) rfl
      refine ⟨symbolOfBits (bits.take 8) :: bs, rest, ?_, hr⟩
      rw [unpack_cons, msbBits_symbolOfBits (by simp; omega), List.append_assoc, ← hb, List.take_append_drop]

/-- Unpacking what was packed gives the bits and the zero padding (R56, R87). -/
theorem unpack_pack (bits : List Bool) :
    unpack (pack bits) = bits ++ List.replicate ((8 - bits.length % 8) % 8) false := by
  obtain ⟨bs, rest, rfl, hr⟩ := bits_cases bits
  have hm : (unpack bs ++ rest).length % 8 = rest.length := by
    rw [List.length_append, length_unpack]; omega
  rw [pack_unpack_append, unpack_append, hm, List.append_assoc]
  congr 1
  by_cases h0 : rest = []
  · subst h0; simp
  · have hp : 0 < rest.length := List.length_pos_iff.mpr h0
    rw [pack_short h0 hr, unpack_cons, unpack_nil, List.append_nil, msbBits_symbolOfBits (by simp; omega)]
    congr 2
    omega

end Machine
end Sys2Proof
end

