-- ==== Sys2Proof/Laws/Writer.lean ====
section
/-! SUPPORT. What the writer's internal operations can do (40_bitwriter.md R111 to R114): their frame, the invariant
they keep, and the bit stream they extend. -/

namespace Sys2Proof.Machine

/-- A property of the state an internal operation leaves, however it ends. -/
def Res.leaves {α : Type} (P : State → Prop) : Res α → Prop
  | .done _ t => P t
  | .raised _ t => P t

theorem Res.leaves_bind {α β : Type} {P Q : State → Prop} {r : Res α} {f : α → State → Res β}
    (hr : r.leaves P) (hraise : ∀ t, P t → Q t) (hf : ∀ a t, P t → (f a t).leaves Q) : (r.bind f).leaves Q := by
  cases r with
  | done a t => exact hf a t hr
  | raised e t => exact hraise t hr

theorem Res.leaves_mono {α : Type} {P Q : State → Prop} {r : Res α} (h : r.leaves P) (hpq : ∀ t, P t → Q t) :
    r.leaves Q := by
  cases r <;> exact hpq _ h

@[simp] theorem Res.bind_done {α β : Type} (a : α) (s : State) (f : α → State → Res β) :
    (Res.done a s).bind f = f a s := rfl

@[simp] theorem Res.bind_raised {α β : Type} (e : Exc) (s : State) (f : α → State → Res β) :
    (Res.raised e s : Res α).bind f = .raised e s := rfl

/-! ### The bits of a byte -/

theorem getLsbD_setStreamBit (byte : Byte) (k : Fin 8) (b : Bool) {j : Nat} (hj : j < 8) :
    (setStreamBit byte k b).getLsbD j = if j = 7 - k.val then b else byte.getLsbD j := by
  have hone : ((1#8 : Byte) <<< bitPosition k).getLsbD j = decide (j = 7 - k.val) := by
    rw [BitVec.getLsbD_shiftLeft, BitVec.getLsbD_one]
    unfold bitPosition
    by_cases h : j = 7 - k.val
    · simp [h]; omega
    · simp [h]; omega
  unfold setStreamBit
  cases b
  · simp only [Bool.false_eq_true, if_false, BitVec.getLsbD_and, BitVec.getLsbD_not, hone, hj]
    by_cases h : j = 7 - k.val <;> simp [h]
  · simp only [if_true, BitVec.getLsbD_or, hone]
    by_cases h : j = 7 - k.val <;> simp [h]

theorem getMsbD_setStreamBit (byte : Byte) (k : Fin 8) (b : Bool) {i : Nat} (hi : i < 8) :
    (setStreamBit byte k b).getMsbD i = if i = k.val then b else byte.getMsbD i := by
  simp only [BitVec.getMsbD, hi, decide_true, Bool.true_and]
  rw [getLsbD_setStreamBit _ _ _ (by omega)]
  have h : (8 - 1 - i = 7 - k.val) ↔ (i = k.val) := by omega
  simp only [h]

theorem getElem_topBits (byte : Byte) (k i : Nat) (h : i < (topBits byte k).length) :
    (topBits byte k)[i] = byte.getMsbD i := by
  simp [topBits, getElem_msbBits]

theorem length_topBits (byte : Byte) {k : Nat} (h : k ≤ 8) : (topBits byte k).length = k := by
  simp [topBits, h]

@[simp] theorem topBits_zero (byte : Byte) : topBits byte 0 = [] := rfl

theorem topBits_eight (byte : Byte) : topBits byte 8 = msbBits byte := by
  simp [topBits, List.take_of_length_le]

/-- Placing a bit at the next free position extends the bits of the byte by it (R111). -/
theorem topBits_setStreamBit (byte : Byte) (k : Fin 8) (b : Bool) :
    topBits (setStreamBit byte k b) (k.val + 1) = topBits byte k.val ++ [b] := by
  apply List.ext_getElem
  · rw [length_topBits _ (by omega), List.length_append, length_topBits _ (by omega), List.length_singleton]
  intro i h1 h2
  rw [length_topBits _ (by omega)] at h1
  rw [getElem_topBits, getMsbD_setStreamBit _ _ _ (by omega)]
  by_cases h : i < k.val
  · rw [List.getElem_append_left (by rw [length_topBits _ (by omega)]; exact h), getElem_topBits,
      if_neg (by omega)]
  · rw [List.getElem_append_right (by rw [length_topBits _ (by omega)]; omega), if_pos (by omega)]
    simp

/-- The free positions of the byte under assembly are 0 (R22). -/
abbrev LowZero (byte : Byte) (k : Fin 8) : Prop := ∀ j : Fin 8, j.val + k.val ≤ 7 → byte.getLsbD j.val = false

theorem lowZero_zero (k : Fin 8) : LowZero 0#8 k := by
  intro j _
  simp

theorem lowZero_setStreamBit {byte : Byte} {k : Fin 8} (b : Bool) (hk : k ≠ 7) (h : LowZero byte k) :
    LowZero (setStreamBit byte k b) (k + 1) := by
  intro j hj
  have hv : (k + 1 : Fin 8).val = k.val + 1 := by
    have : k.val ≠ 7 := fun e => hk (Fin.ext e)
    rw [Fin.val_add_one_of_lt' (by omega)]
  rw [hv] at hj
  rw [getLsbD_setStreamBit _ _ _ j.isLt, if_neg (by omega)]
  exact h j (by omega)

/-- The byte under assembly is its filled bits and zeros. -/
theorem msbBits_of_lowZero {byte : Byte} {k : Fin 8} (h : LowZero byte k) :
    msbBits byte = topBits byte k.val ++ List.replicate (8 - k.val) false := by
  apply List.ext_getElem
  · simp [length_topBits byte (show k.val ≤ 8 by omega)]
  intro i h1 h2
  have hi : i < 8 := by simpa using h1
  rw [getElem_msbBits]
  by_cases hk : i < k.val
  · rw [List.getElem_append_left (by rw [length_topBits _ (by omega)]; exact hk), getElem_topBits]
  · rw [List.getElem_append_right (by rw [length_topBits _ (by omega)]; omega), List.getElem_replicate,
      BitVec.getMsbD]
    simp only [hi, decide_true, Bool.true_and]
    exact h ⟨8 - 1 - i, by omega⟩ (by simp; omega)

/-! ### The frame of the writer -/

/-- Everything but BW and the sink is the same. -/
structure WriterFrame (s t : State) : Prop where
  chunkBytes : t.chunkBytes = s.chunkBytes
  br : t.br = s.br
  tc : t.tc = s.tc
  node : t.node = s.node
  phase : t.phase = s.phase
  src : t.src = s.src
  host : t.host = s.host

theorem WriterFrame.refl (s : State) : WriterFrame s s := ⟨rfl, rfl, rfl, rfl, rfl, rfl, rfl⟩

theorem WriterFrame.trans {s t u : State} (h : WriterFrame s t) (k : WriterFrame t u) : WriterFrame s u :=
  ⟨k.1.trans h.1, k.2.trans h.2, k.3.trans h.3, k.4.trans h.4, k.5.trans h.5, k.6.trans h.6, k.7.trans h.7⟩

theorem emptyBuffer_frame (s : State) : WriterFrame s (emptyBuffer s) := ⟨rfl, rfl, rfl, rfl, rfl, rfl, rfl⟩

theorem pushByte_frame (byte : Byte) (s : State) : WriterFrame s (pushByte byte s) := ⟨rfl, rfl, rfl, rfl, rfl, rfl, rfl⟩

theorem placeBit_frame (b : Bool) (s : State) : WriterFrame s (placeBit b s) := ⟨rfl, rfl, rfl, rfl, rfl, rfl, rfl⟩

/-- What `Drain()` can do (R112): nothing, one transaction that succeeds, or one that fails. -/
theorem drain_cases (s : State) :
    (s.bw.w_buf = [] ∧ drain s = .done () s)
    ∨ (s.bw.w_buf ≠ [] ∧ nextSinkAnswer s = .ok ∧
        drain s = .done () (emptyBuffer (sinkTransaction s.bw.w_buf s.bw.w_buf s)))
    ∨ (s.bw.w_buf ≠ [] ∧ ∃ kept, nextSinkAnswer s = .fail kept ∧
        drain s = .raised .ioError
          (scrambleWriter (setWFail (sinkTransaction (s.bw.w_buf.take kept) s.bw.w_buf s)))) := by
  by_cases h : s.bw.w_buf = []
  · exact .inl ⟨h, by simp [drain, h]⟩
  · cases ha : nextSinkAnswer s with
    | ok => exact .inr (.inl ⟨h, rfl, by simp [drain, sinkWrite, h, ha]⟩)
    | fail kept => exact .inr (.inr ⟨h, kept, rfl, by simp [drain, sinkWrite, h, ha]⟩)

theorem drain_frame (s : State) : (drain s).leaves (WriterFrame s) := by
  obtain ⟨_, h⟩ | ⟨_, _, h⟩ | ⟨_, k, _, h⟩ := drain_cases s <;> rw [h]
  · exact WriterFrame.refl s
  · exact ⟨rfl, rfl, rfl, rfl, rfl, rfl, rfl⟩
  · exact ⟨rfl, rfl, rfl, rfl, rfl, rfl, rfl⟩

/-- What `WriteBit(b)` can do (R111): place the bit in the byte, complete a byte, or complete one and drain. -/
theorem writeBit_cases (b : Bool) (s : State) :
    (s.bw.w_cnt ≠ 7 ∧ writeBit b s = .done () (placeBit b s))
    ∨ (s.bw.w_cnt = 7 ∧ s.bw.w_buf.length + 1 ≠ s.chunkBytes ∧ writeBit b s = .done () (pushByte (accWith b s) s))
    ∨ (s.bw.w_cnt = 7 ∧ s.bw.w_buf.length + 1 = s.chunkBytes ∧ writeBit b s = drain (pushByte (accWith b s) s)) := by
  by_cases hk : s.bw.w_cnt = 7
  · by_cases hf : s.bw.w_buf.length + 1 = s.chunkBytes
    · exact .inr (.inr ⟨hk, hf, by simp [writeBit, drainIfFull, hk, hf]⟩)
    · exact .inr (.inl ⟨hk, hf, by simp [writeBit, drainIfFull, hk, hf]⟩)
  · exact .inl ⟨hk, by simp [writeBit, hk]⟩

theorem writeBit_frame (b : Bool) (s : State) : (writeBit b s).leaves (WriterFrame s) := by
  obtain ⟨_, h⟩ | ⟨_, _, h⟩ | ⟨_, _, h⟩ := writeBit_cases b s <;> rw [h]
  · exact placeBit_frame b s
  · exact pushByte_frame _ s
  · exact Res.leaves_mono (drain_frame _) fun _ k => (pushByte_frame _ s).trans k

theorem writeBitList_frame (bs : List Bool) (s : State) : (writeBitList bs s).leaves (WriterFrame s) := by
  induction bs generalizing s with
  | nil => exact WriterFrame.refl s
  | cons b bs ih =>
    exact Res.leaves_bind (writeBit_frame b s) (fun _ h => h) fun _ t h => Res.leaves_mono (ih t) fun _ k => h.trans k

theorem completeByte_frame (s : State) : WriterFrame s (completeByte s) := by
  unfold completeByte
  split
  · exact .refl s
  · exact pushByte_frame _ s

theorem flush_frame (s : State) : (flush s).leaves (WriterFrame s) :=
  Res.leaves_bind (Res.leaves_mono (drain_frame _) fun _ h => (completeByte_frame s).trans h) (fun _ h => h)
    fun _ _ h => h

/-! ### The invariant of the writer -/

/-- What a writer operation needs and keeps: the writer's invariant and a chunk size of at least 1. -/
def WriterOk (s : State) : Prop := 1 ≤ s.chunkBytes ∧ WriterInv s

theorem drain_writerOk {s : State} (hc : 1 ≤ s.chunkBytes)
    (hz : s.bw.w_fail = false → LowZero s.bw.w_acc s.bw.w_cnt) : (drain s).leaves WriterOk := by
  obtain ⟨he, h⟩ | ⟨_, _, h⟩ | ⟨_, k, _, h⟩ := drain_cases s <;> rw [h]
  · exact ⟨hc, fun hf => ⟨hz hf, by simp only [he, List.length_nil]; omega⟩⟩
  · exact ⟨hc, fun hf => ⟨hz hf, hc⟩⟩
  · exact ⟨hc, fun hf => by simp at hf⟩

theorem writeBit_writerOk (b : Bool) {s : State} (h : WriterOk s) : (writeBit b s).leaves WriterOk := by
  obtain ⟨hc, hw⟩ := h
  obtain ⟨hk, h⟩ | ⟨_, hne, h⟩ | ⟨_, _, h⟩ := writeBit_cases b s <;> rw [h]
  · exact ⟨hc, fun hf => ⟨lowZero_setStreamBit b hk (hw hf).1, (hw hf).2⟩⟩
  · refine ⟨hc, fun hf => ⟨lowZero_zero _, ?_⟩⟩
    have hlt := (hw hf).2
    simp only [pushByte_w_buf, List.length_append, List.length_singleton, pushByte_chunkBytes]
    omega
  · exact drain_writerOk hc fun _ => lowZero_zero _

theorem writeBitList_writerOk (bs : List Bool) {s : State} (h : WriterOk s) : (writeBitList bs s).leaves WriterOk := by
  induction bs generalizing s with
  | nil => exact h
  | cons b bs ih => exact Res.leaves_bind (writeBit_writerOk b h) (fun _ k => k) fun _ t k => ih k

theorem completeByte_lowZero {s : State} (h : LowZero s.bw.w_acc s.bw.w_cnt) :
    LowZero (completeByte s).bw.w_acc (completeByte s).bw.w_cnt := by
  unfold completeByte
  split
  · exact h
  · exact lowZero_zero _

theorem flush_writerOk {s : State} (h : WriterOk s) : (flush s).leaves WriterOk := by
  obtain ⟨hc, hw⟩ := h
  refine Res.leaves_bind (drain_writerOk (by simpa using hc) fun hf => completeByte_lowZero (hw ?_).1)
    (fun _ k => k) fun _ t k => k
  unfold completeByte at hf
  split at hf <;> exact hf

/-! ### The bit stream the writer extends, when no transaction fails -/

theorem WriterReady.nextSinkAnswer {s : State} (h : WriterReady s) : nextSinkAnswer s = .ok := by
  have hn := h.never
  unfold Machine.nextSinkAnswer
  split
  · rfl
  · rename_i a rest ha
    exact hn a (by rw [ha]; exact List.mem_cons_self)

theorem sinkNeverFails_tail {s : State} (h : SinkNeverFails s) : ∀ a ∈ s.sink.answers.tail, a = .ok :=
  fun a ha => h a (List.mem_of_mem_tail ha)

/-- `t` has made the transactions `txs` since `s`, each of exactly CHUNK_BYTES bytes, and SINK has grown by them. -/
structure FullChunks (s t : State) (txs : List (List Byte)) : Prop where
  tx : t.sink.tx = s.sink.tx ++ txs
  bytes : t.sink.bytes = s.sink.bytes ++ txs.flatten
  full : ∀ c ∈ txs, c.length = s.chunkBytes

theorem acceptedBits_pushByte (b : Bool) {s : State} (hk : s.bw.w_cnt = 7) :
    acceptedBits (pushByte (accWith b s) s) = acceptedBits s ++ [b] := by
  have htop : topBits s.bw.w_acc s.bw.w_cnt.val ++ [b] = msbBits (accWith b s) := by
    rw [accWith, ← topBits_setStreamBit, hk, ← topBits_eight]
    rfl
  simp only [acceptedBits, pushByte_sink, pushByte_w_buf, pushByte_w_cnt, List.append_assoc, htop]
  simp

theorem acceptedBits_placeBit (b : Bool) {s : State} (hk : s.bw.w_cnt ≠ 7) :
    acceptedBits (placeBit b s) = acceptedBits s ++ [b] := by
  have hv : (s.bw.w_cnt + 1 : Fin 8).val = s.bw.w_cnt.val + 1 := by
    have : s.bw.w_cnt.val ≠ 7 := fun e => hk (Fin.ext e)
    rw [Fin.val_add_one_of_lt' (by omega)]
  simp only [acceptedBits, placeBit_sink, placeBit_bw, hv, accWith, topBits_setStreamBit, List.append_assoc]

theorem acceptedBits_drained (s : State) :
    acceptedBits (emptyBuffer (sinkTransaction s.bw.w_buf s.bw.w_buf s)) = acceptedBits s := by
  simp [acceptedBits]

theorem writeBit_live (b : Bool) {s : State} (h : WriterReady s) :
    ∃ t txs, writeBit b s = .done () t ∧ WriterReady t ∧ WriterFrame s t
      ∧ acceptedBits t = acceptedBits s ++ [b] ∧ FullChunks s t txs := by
  have hok := writeBit_writerOk b ⟨h.chunk, h.inv⟩
  have hfr := writeBit_frame b s
  obtain ⟨hk, hw⟩ | ⟨hk, _, hw⟩ | ⟨hk, hfull, hw⟩ := writeBit_cases b s
  · rw [hw] at hok hfr
    exact ⟨_, [], hw, ⟨hok.1, h.noFail, hok.2, h.never⟩, hfr, acceptedBits_placeBit b hk, by simp, by simp, by simp⟩
  · rw [hw] at hok hfr
    exact ⟨_, [], hw, ⟨hok.1, h.noFail, hok.2, h.never⟩, hfr, acceptedBits_pushByte b hk, by simp, by simp, by simp⟩
  · obtain ⟨he, _⟩ | ⟨_, _, hd⟩ | ⟨_, k, hf, _⟩ := drain_cases (pushByte (accWith b s) s)
    · simp at he
    · rw [hw, hd] at hok hfr
      refine ⟨_, [s.bw.w_buf ++ [accWith b s]], hw.trans hd, ⟨hok.1, h.noFail, hok.2, sinkNeverFails_tail h.never⟩,
        hfr, ?_, by simp, by simp, by simpa using hfull⟩
      rw [acceptedBits_drained, acceptedBits_pushByte b hk]
    · rw [show Machine.nextSinkAnswer (pushByte (accWith b s) s) = Machine.nextSinkAnswer s from rfl,
        h.nextSinkAnswer] at hf
      cases hf

theorem writeBitList_live (bs : List Bool) {s : State} (h : WriterReady s) :
    ∃ t txs, writeBitList bs s = .done () t ∧ WriterReady t ∧ WriterFrame s t
      ∧ acceptedBits t = acceptedBits s ++ bs ∧ FullChunks s t txs := by
  induction bs generalizing s with
  | nil => exact ⟨s, [], rfl, h, .refl s, by simp, by simp, by simp, by simp⟩
  | cons b bs ih =>
    obtain ⟨t, txs, hw, hl, hf, ha, hx⟩ := writeBit_live b h
    obtain ⟨u, txs', hw', hl', hf', ha', hx'⟩ := ih hl
    refine ⟨u, txs ++ txs', by simp [writeBitList, hw, hw'], hl', hf.trans hf', by simp [ha', ha],
      by rw [hx'.tx, hx.tx, List.append_assoc], by rw [hx'.bytes, hx.bytes]; simp, fun c hc => ?_⟩
    rcases List.mem_append.mp hc with hc | hc
    · exact hx.full c hc
    · rw [hx'.full c hc, hf.chunkBytes]

/-- The bits of a completed byte: those accepted and the padding (R113). -/
theorem unpack_completeByte {s : State} (hz : LowZero s.bw.w_acc s.bw.w_cnt) :
    unpack ((completeByte s).sink.bytes ++ (completeByte s).bw.w_buf)
      = acceptedBits s ++ List.replicate (bitsToBoundary s.bw.w_cnt) false := by
  unfold completeByte
  split
  · rename_i hc
    simp [acceptedBits, hc, bitsToBoundary]
  · rename_i hc
    have hv : s.bw.w_cnt.val ≠ 0 := fun e => hc (Fin.ext e)
    have hb : bitsToBoundary s.bw.w_cnt = 8 - s.bw.w_cnt.val := by unfold bitsToBoundary; omega
    rw [hb, acceptedBits, pushByte_sink, pushByte_w_buf, List.append_assoc _ (topBits _ _), ← msbBits_of_lowZero hz]
    simp

theorem completeByte_bw {s : State} (hz : LowZero s.bw.w_acc s.bw.w_cnt) :
    (completeByte s).bw
      = { w_acc := 0#8, w_cnt := 0, w_buf := (completeByte s).bw.w_buf, w_fail := s.bw.w_fail } := by
  unfold completeByte
  split
  · rename_i hc
    have h0 : s.bw.w_acc = 0#8 := by
      apply BitVec.eq_of_getLsbD_eq
      intro i hi
      rw [hz ⟨i, hi⟩ (by rw [hc]; simp; omega)]
      simp
    rw [← h0, ← hc]
  · rfl

/-- `Flush()` when no transaction fails (R113): the padding bits follow the stream, everything is in SINK, the writer is
in its reset state, and no transaction was made or one of all the buffered bytes. -/
theorem flush_live {s : State} (h : WriterReady s) :
    ∃ t, flush s = .done (bitsToBoundary s.bw.w_cnt) t ∧ WriterReady t ∧ WriterFrame s t ∧ t.bw = Bw.reset
      ∧ unpack t.sink.bytes = acceptedBits s ++ List.replicate (bitsToBoundary s.bw.w_cnt) false
      ∧ t.sink.bytes = s.sink.bytes ++ (completeByte s).bw.w_buf
      ∧ t.sink.tx = s.sink.tx ++ (if (completeByte s).bw.w_buf = [] then [] else [(completeByte s).bw.w_buf]) := by
  obtain ⟨hz, hlen⟩ := h.inv h.noFail
  have hfr := completeByte_frame s
  have hbw := completeByte_bw hz
  have hbits := unpack_completeByte hz
  rw [completeByte_sink] at hbits
  have hlive : ∀ t : State, t.chunkBytes = s.chunkBytes → t.bw = Bw.reset → SinkNeverFails t → WriterReady t :=
    fun t hc hb hn => ⟨hc ▸ h.chunk, by rw [hb]; rfl, fun _ => by
      rw [hb]; exact ⟨lowZero_zero _, by rw [hc]; exact h.chunk⟩, hn⟩
  obtain ⟨he, hd⟩ | ⟨hne, _, hd⟩ | ⟨_, k, hf, _⟩ := drain_cases (completeByte s)
  · have hr : (completeByte s).bw = Bw.reset := by rw [hbw, he, h.noFail]; rfl
    refine ⟨completeByte s, by rw [flush, hd]; rfl, hlive _ hfr.chunkBytes hr ?_, hfr, hr, ?_, by simp [he], by simp [he]⟩
    · rw [SinkNeverFails, completeByte_sink]; exact h.never
    · rw [completeByte_sink, ← hbits, he, List.append_nil]
  · have hr : (emptyBuffer (sinkTransaction (completeByte s).bw.w_buf (completeByte s).bw.w_buf (completeByte s))).bw
        = Bw.reset := by
      rw [emptyBuffer_bw, sinkTransaction_bw, hbw, h.noFail]; rfl
    refine ⟨emptyBuffer (sinkTransaction (completeByte s).bw.w_buf (completeByte s).bw.w_buf (completeByte s)),
      by rw [flush, hd]; rfl, hlive _ hfr.chunkBytes hr ?_, hfr.trans ⟨rfl, rfl, rfl, rfl, rfl, rfl, rfl⟩,
      hr, ?_, ?_, ?_⟩
    · simpa [SinkNeverFails] using sinkNeverFails_tail h.never
    · simpa using hbits
    · simp
    · simp [hne]
  · rw [show Machine.nextSinkAnswer (completeByte s) = Machine.nextSinkAnswer s by
        unfold Machine.nextSinkAnswer; rw [completeByte_sink], h.nextSinkAnswer] at hf
    cases hf

end Sys2Proof.Machine
end

