-- ==== Sys2Proof/Laws/Reader.lean ====
section
/-! SUPPORT. What the reader's internal operations can do (41_bitreader.md R131, R132): their frame, the invariant they
keep, and the bits of SRC they deliver. -/

namespace Sys2Proof.Machine

/-! ### The frame of the reader -/

/-- Everything but BR and the source is the same. -/
structure ReaderFrame (s t : State) : Prop where
  chunkBytes : t.chunkBytes = s.chunkBytes
  bw : t.bw = s.bw
  tc : t.tc = s.tc
  node : t.node = s.node
  phase : t.phase = s.phase
  sink : t.sink = s.sink
  host : t.host = s.host
  srcBytes : t.src.bytes = s.src.bytes

theorem ReaderFrame.refl (s : State) : ReaderFrame s s := ⟨rfl, rfl, rfl, rfl, rfl, rfl, rfl, rfl⟩

theorem ReaderFrame.trans {s t u : State} (h : ReaderFrame s t) (k : ReaderFrame t u) : ReaderFrame s u :=
  ⟨k.1.trans h.1, k.2.trans h.2, k.3.trans h.3, k.4.trans h.4, k.5.trans h.5, k.6.trans h.6, k.7.trans h.7,
    k.8.trans h.8⟩

theorem advanceCursor_frame (s : State) : ReaderFrame s (advanceCursor s) :=
  ⟨by simp, by simp, by simp, by simp, by simp, by simp, by simp, by simp⟩

theorem srcTransaction_frame (n : Nat) (r : SrcReply) (s : State) : ReaderFrame s (srcTransaction n r s) :=
  ⟨rfl, rfl, rfl, rfl, rfl, rfl, rfl, rfl⟩

/-- What a Data answer leaves, before its first bit is delivered (R131, R54). -/
def refilled (k : Nat) (first : Byte) (rest : List Byte) (s : State) : State :=
  loadBuffer (first :: rest.take (dataCount k s - 1)) (srcTransaction (dataCount k s) (.data (dataCount k s)) s)

/-- What `ReadBit()` can do (R131): deliver a buffered bit, repeat Eos, meet the end, refill and deliver, or fail. -/
theorem readBit_cases (s : State) :
    (∃ byte, s.br.r_buf[s.br.r_pos]? = some byte
        ∧ readBit s = .done (some (streamBit byte s.br.r_bit)) (advanceCursor s))
    ∨ (s.br.r_buf[s.br.r_pos]? = none ∧ s.br.r_eos = true ∧ readBit s = .done none s)
    ∨ (s.br.r_buf[s.br.r_pos]? = none ∧ s.br.r_eos = false ∧ srcLeft s = [] ∧ (∃ k, nextSrcAnswer s = .data k)
        ∧ readBit s = .done none (setREos (srcTransaction 0 .ended s)))
    ∨ (s.br.r_buf[s.br.r_pos]? = none ∧ s.br.r_eos = false
        ∧ ∃ k first rest, nextSrcAnswer s = .data k ∧ srcLeft s = first :: rest
        ∧ readBit s = .done (some (streamBit first 0)) (advanceCursor (refilled k first rest s)))
    ∨ (s.br.r_buf[s.br.r_pos]? = none ∧ s.br.r_eos = false ∧ ∃ a, nextSrcAnswer s = .fail a
        ∧ readBit s = .raised .ioError
            (scrambleReader (setRFail (srcTransaction (min a (mostBytes s)) .failed s)))) := by
  cases hb : s.br.r_buf[s.br.r_pos]? with
  | some byte => exact .inl ⟨byte, rfl, by simp [readBit, hb]⟩
  | none =>
    right
    cases he : s.br.r_eos with
    | true => exact .inl ⟨rfl, rfl, by simp [readBit, hb, he]⟩
    | false =>
      right
      cases ha : nextSrcAnswer s with
      | fail a => exact .inr (.inr ⟨rfl, rfl, a, rfl, by simp [readBit, hb, he, srcRead, ha]⟩)
      | data k =>
        cases hl : srcLeft s with
        | nil => exact .inl ⟨rfl, rfl, rfl, ⟨k, rfl⟩, by simp [readBit, hb, he, srcRead, ha, hl]⟩
        | cons first rest =>
          exact .inr (.inl ⟨rfl, rfl, k, first, rest, rfl, rfl, by simp [readBit, hb, he, srcRead, ha, hl, refilled]⟩)

theorem refilled_frame (k : Nat) (first : Byte) (rest : List Byte) (s : State) :
    ReaderFrame s (refilled k first rest s) := ⟨rfl, rfl, rfl, rfl, rfl, rfl, rfl, rfl⟩

theorem readBit_frame (s : State) : (readBit s).leaves (ReaderFrame s) := by
  obtain ⟨_, _, h⟩ | ⟨_, _, h⟩ | ⟨_, _, _, _, h⟩ | ⟨_, _, k, f, r, _, _, h⟩ | ⟨_, _, a, _, h⟩ := readBit_cases s <;> rw [h]
  · exact advanceCursor_frame s
  · exact .refl s
  · exact ⟨rfl, rfl, rfl, rfl, rfl, rfl, rfl, rfl⟩
  · exact (refilled_frame k f r s).trans (advanceCursor_frame _)
  · exact ⟨rfl, rfl, rfl, rfl, rfl, rfl, rfl, rfl⟩

theorem readBitList_frame (n : Nat) (s : State) : (readBitList n s).leaves (ReaderFrame s) := by
  induction n generalizing s with
  | zero => exact .refl s
  | succ n ih =>
    refine Res.leaves_bind (readBit_frame s) (fun _ h => h) fun r t h => ?_
    cases r with
    | none => exact h
    | some b => exact Res.leaves_bind (ih t) (fun _ k => h.trans k) fun _ _ k => h.trans k

theorem readBits_frame (n : Nat) (s : State) : (readBits n s).leaves (ReaderFrame s) :=
  Res.leaves_bind (readBitList_frame n s) (fun _ h => h) fun _ _ h => h

/-! ### The invariant of the reader -/

/-- What a reader operation needs and keeps: the reader's invariant and a chunk size of at least 1. -/
def ReaderOk (s : State) : Prop := 1 ≤ s.chunkBytes ∧ ReaderInv s

theorem length_srcLeft (s : State) : (srcLeft s).length = s.src.bytes.length - s.src.src_pos := by
  simp [srcLeft]

theorem mostBytes_le (s : State) : mostBytes s ≤ s.chunkBytes ∧ mostBytes s ≤ s.src.bytes.length - s.src.src_pos := by
  unfold mostBytes
  rw [length_srcLeft]
  omega

/-- A Data answer carries 1 to min(max, bytes left) bytes (R54). -/
theorem dataCount_bounds {s : State} (hc : 1 ≤ s.chunkBytes) (hl : srcLeft s ≠ []) (k : Nat) :
    1 ≤ dataCount k s ∧ dataCount k s ≤ s.chunkBytes ∧ dataCount k s ≤ (srcLeft s).length := by
  have h := List.length_pos_iff.mpr hl
  unfold dataCount mostBytes
  omega

/-- The bytes a Data answer hands over are the next of SRC (R54). -/
theorem refilled_buf {s : State} (hc : 1 ≤ s.chunkBytes) {first : Byte} {rest : List Byte}
    (hl : srcLeft s = first :: rest) (k : Nat) :
    (refilled k first rest s).br.r_buf = (srcLeft s).take (dataCount k s) := by
  have hb := dataCount_bounds hc (by rw [hl]; simp) k
  obtain ⟨n, hn⟩ : ∃ n, dataCount k s = n + 1 := ⟨dataCount k s - 1, by omega⟩
  simp [refilled, hl, hn]

theorem readerOk_advanceCursor {s : State} (h : ReaderOk s) (hp : s.br.r_pos < s.br.r_buf.length) :
    ReaderOk (advanceCursor s) := by
  obtain ⟨hc, hs, hi⟩ := h
  refine ⟨by simpa using hc, by simpa using hs, fun hf => ?_⟩
  have hf' : s.br.r_fail = false := by
    unfold advanceCursor at hf
    split at hf <;> exact hf
  obtain ⟨h1, h2, h3, h4, h5, h6⟩ := hi hf'
  have he : s.br.r_eos = false := by
    cases e : s.br.r_eos
    · rfl
    · have := (h4 e).1
      omega
  unfold advanceCursor
  split
  · exact ⟨hp, h2, fun _ => rfl, by simp [he], h5, h6⟩
  · exact ⟨h1, h2, fun e => by simp at e; omega, by simp [he], h5, h6⟩

theorem readerOk_refilled {s : State} (h : ReaderOk s) (he : s.br.r_eos = false) {first : Byte} {rest : List Byte}
    (hl : srcLeft s = first :: rest) (k : Nat) : ReaderOk (refilled k first rest s) := by
  obtain ⟨hc, hs, _⟩ := h
  have hb := dataCount_bounds hc (by rw [hl]; simp) k
  have hlen := length_srcLeft s
  have hbuf := refilled_buf hc hl k
  have hlb : (refilled k first rest s).br.r_buf.length = dataCount k s := by
    rw [hbuf, List.length_take]; omega
  have hpos : (refilled k first rest s).src.src_pos = s.src.src_pos + dataCount k s := rfl
  refine ⟨hc, ?_, fun _ => ⟨Nat.zero_le _, ?_, fun _ => rfl, ?_, ?_, ?_⟩⟩
  · show s.src.src_pos + dataCount k s ≤ s.src.bytes.length
    omega
  · rw [hlb]; exact hb.2.1
  · intro e
    exact absurd (he.symm.trans e) (by simp)
  · rw [hlb, hpos]; omega
  · rw [hlb, hbuf, hpos, Nat.add_sub_cancel, srcLeft, List.drop_take]
    congr 1
    omega

theorem readBit_readerOk {s : State} (h : ReaderOk s) : (readBit s).leaves ReaderOk := by
  obtain ⟨b, hb, h'⟩ | ⟨_, _, h'⟩ | ⟨hn, he, hl, _, h'⟩ | ⟨_, he, k, f, r, _, hl, h'⟩ | ⟨_, _, a, _, h'⟩ :=
    readBit_cases s <;> rw [h']
  · exact readerOk_advanceCursor h (List.getElem?_eq_some_iff.mp hb).1
  · exact h
  · obtain ⟨hc, hs, hi⟩ := h
    refine ⟨hc, by simpa using hs, fun hf => ?_⟩
    obtain ⟨h1, h2, h3, h4, h5, h6⟩ := hi hf
    have hp : s.br.r_buf.length ≤ s.br.r_pos := List.getElem?_eq_none_iff.mp hn
    have hl' : s.src.bytes.length ≤ s.src.src_pos := by simpa [srcLeft] using hl
    exact ⟨h1, h2, h3, fun _ => ⟨Nat.le_antisymm h1 hp, Nat.le_antisymm hs hl'⟩, h5, h6⟩
  · refine readerOk_advanceCursor (readerOk_refilled h he hl k) ?_
    simp [refilled]
  · refine ⟨h.1, ?_, fun hf => by simp at hf⟩
    have := mostBytes_le s
    have hs := h.2.1
    simp only [scrambleReader_src_pos, scrambleReader_src_bytes, setRFail_src, srcTransaction_src]
    omega

theorem readBitList_readerOk (n : Nat) {s : State} (h : ReaderOk s) : (readBitList n s).leaves ReaderOk := by
  induction n generalizing s with
  | zero => exact h
  | succ n ih =>
    refine Res.leaves_bind (readBit_readerOk h) (fun _ k => k) fun r t k => ?_
    cases r with
    | none => exact k
    | some b => exact Res.leaves_bind (ih k) (fun _ j => j) fun _ _ j => j

theorem readBits_readerOk (n : Nat) {s : State} (h : ReaderOk s) : (readBits n s).leaves ReaderOk :=
  Res.leaves_bind (readBitList_readerOk n h) (fun _ k => k) fun _ _ k => k

/-! ### The bits the reader delivers, when no transaction fails -/

theorem streamBit_eq (byte : Byte) (k : Fin 8) : streamBit byte k = byte.getMsbD k.val := by
  have h : k.val < 8 := k.isLt
  simp only [streamBit, bitPosition, BitVec.getMsbD, h, decide_true, Bool.true_and]

theorem unreadBits_cons {s : State} {byte : Byte}
    (h : s.src.bytes[s.src.src_pos - s.br.r_buf.length + s.br.r_pos]? = some byte) :
    unreadBits s = streamBit byte s.br.r_bit :: (unpack s.src.bytes).drop (readPosition s + 1) := by
  have hq : readPosition s / 8 = s.src.src_pos - s.br.r_buf.length + s.br.r_pos := by
    unfold readPosition; omega
  have hr : readPosition s % 8 = s.br.r_bit.val := by
    unfold readPosition; omega
  have hg : (unpack s.src.bytes)[readPosition s]? = some (streamBit byte s.br.r_bit) := by
    rw [getElem?_unpack, hq, hr, h, streamBit_eq]
    rfl
  obtain ⟨hlt, hval⟩ := List.getElem?_eq_some_iff.mp hg
  rw [unreadBits, List.drop_eq_getElem_cons hlt, hval]

theorem readPosition_advanceCursor (s : State) : readPosition (advanceCursor s) = readPosition s + 1 := by
  unfold readPosition advanceCursor
  split
  · rename_i h
    simp [h]
    omega
  · rename_i h
    have : s.br.r_bit.val ≠ 7 := fun e => h (Fin.ext e)
    simp only
    rw [Fin.val_add_one_of_lt' (by omega)]
    omega

theorem unreadBits_advanceCursor (s : State) :
    unreadBits (advanceCursor s) = (unpack s.src.bytes).drop (readPosition s + 1) := by
  rw [unreadBits, readPosition_advanceCursor, advanceCursor_src]

/-- A buffered byte is the byte of SRC at the reader's position. -/
theorem ReaderReady.getElem?_buf {s : State} (h : ReaderReady s) {byte : Byte}
    (hb : s.br.r_buf[s.br.r_pos]? = some byte) :
    s.src.bytes[s.src.src_pos - s.br.r_buf.length + s.br.r_pos]? = some byte := by
  obtain ⟨_, _, _, _, h5, h6⟩ := h.inv.2 h.noFail
  have hp := (List.getElem?_eq_some_iff.mp hb).1
  rw [h6, List.getElem?_drop, List.getElem?_take] at hb
  split at hb
  · exact hb
  · cases hb

/-- An exhausted reader stands at the end of the bytes taken. -/
theorem ReaderReady.exhausted {s : State} (h : ReaderReady s) (hb : s.br.r_buf[s.br.r_pos]? = none) :
    s.br.r_pos = s.br.r_buf.length ∧ s.br.r_bit = 0 ∧ readPosition s = 8 * s.src.src_pos := by
  obtain ⟨h1, _, h3, _, h5, _⟩ := h.inv.2 h.noFail
  have hp := List.getElem?_eq_none_iff.mp hb
  have he : s.br.r_pos = s.br.r_buf.length := Nat.le_antisymm h1 hp
  refine ⟨he, h3 he, ?_⟩
  unfold readPosition
  rw [h3 he, he]
  simp
  omega

theorem ReaderReady.ofOk {s t : State} (h : ReaderReady s) (ho : ReaderOk t) (hf : t.br.r_fail = false)
    (ha : ∀ a ∈ t.src.answers, a ∈ s.src.answers) : ReaderReady t :=
  ⟨ho.1, hf, ho.2, fun a hm => h.never a (ha a hm)⟩

theorem advanceCursor_r_fail (s : State) : (advanceCursor s).br.r_fail = s.br.r_fail := by
  unfold advanceCursor
  split <;> rfl

/-- `ReadBit()` when no transaction fails (R131, R136): the next bit of SRC, or Eos when there is none. -/
theorem readBit_live {s : State} (h : ReaderReady s) :
    (∃ b t, readBit s = .done (some b) t ∧ ReaderReady t ∧ ReaderFrame s t
        ∧ unreadBits s = b :: unreadBits t ∧ readPosition t = readPosition s + 1)
    ∨ (∃ t, readBit s = .done none t ∧ ReaderReady t ∧ ReaderFrame s t
        ∧ unreadBits s = [] ∧ unreadBits t = [] ∧ readPosition t = readPosition s ∧ t.br = { s.br with r_eos := true }) := by
  have hok := readBit_readerOk ⟨h.chunk, h.inv⟩
  have hfr := readBit_frame s
  obtain ⟨b, hb, h'⟩ | ⟨hn, he, h'⟩ | ⟨hn, he, hl, _, h'⟩ | ⟨hn, he, k, f, r, _, hl, h'⟩ | ⟨_, _, a, ha, h'⟩ :=
    readBit_cases s <;> rw [h'] at hok hfr
  · left
    refine ⟨_, _, h', h.ofOk hok ?_ (by simp), hfr, ?_, readPosition_advanceCursor s⟩
    · rw [advanceCursor_r_fail]; exact h.noFail
    · rw [unreadBits_advanceCursor, unreadBits_cons (h.getElem?_buf hb)]
  · right
    obtain ⟨_, _, hp⟩ := h.exhausted hn
    have hend := ((h.inv.2 h.noFail).2.2.2.1 he).2
    have hu : unreadBits s = [] := by
      rw [unreadBits, hp, hend]
      simp
    refine ⟨s, h', h, hfr, hu, hu, rfl, ?_⟩
    rw [← he]
  · right
    obtain ⟨_, _, hp⟩ := h.exhausted hn
    have hend : s.src.bytes.length ≤ s.src.src_pos := by simpa [srcLeft] using hl
    have hu : unreadBits s = [] := by
      rw [unreadBits, hp]
      simp
      omega
    exact ⟨_, h', h.ofOk hok h.noFail (fun a ha => List.mem_of_mem_tail ha), hfr, hu, hu, rfl, rfl⟩
  · left
    obtain ⟨hpl, hb0, hp⟩ := h.exhausted hn
    have hbuf := refilled_buf h.chunk hl k
    have hbd := dataCount_bounds h.chunk (by rw [hl]; simp) k
    have hlen := length_srcLeft s
    have hlb : (refilled k f r s).br.r_buf.length = dataCount k s := by
      rw [hbuf, List.length_take]; omega
    have hrp : readPosition (refilled k f r s) = readPosition s := by
      rw [hp]
      unfold readPosition
      rw [hlb]
      simp [refilled]
    have hsrc : (refilled k f r s).src.bytes[(refilled k f r s).src.src_pos - (refilled k f r s).br.r_buf.length
        + (refilled k f r s).br.r_pos]? = some f := by
      rw [hlb]
      have h0 := List.getElem?_drop (xs := s.src.bytes) (i := s.src.src_pos) (j := 0)
      rw [show s.src.bytes.drop s.src.src_pos = f :: r from hl] at h0
      simpa [refilled] using h0.symm
    refine ⟨_, _, h', h.ofOk hok ?_ ?_, hfr, ?_, ?_⟩
    · rw [advanceCursor_r_fail]; exact h.noFail
    · intro a ha
      rw [advanceCursor_src] at ha
      exact List.mem_of_mem_tail ha
    · rw [unreadBits_advanceCursor]
      have hu : unreadBits s = unreadBits (refilled k f r s) := by
        unfold unreadBits
        rw [hrp]
        rfl
      rw [hu, unreadBits_cons hsrc]
      rfl
    · rw [readPosition_advanceCursor, hrp]
  · obtain ⟨k, hk⟩ : ∃ k, nextSrcAnswer s = .data k := by
      unfold nextSrcAnswer
      split
      · exact ⟨_, rfl⟩
      · rename_i a rest hc
        exact h.never a (by rw [hc]; exact List.mem_cons_self)
    rw [hk] at ha
    cases ha

/-- `ReadBits(n)` finds the n bits that stand next in SRC (R132). -/
theorem readBitList_live (bs : List Bool) {s : State} {rest : List Bool} (h : ReaderReady s)
    (hu : unreadBits s = bs ++ rest) :
    ∃ t, readBitList bs.length s = .done (some bs) t ∧ ReaderReady t ∧ ReaderFrame s t
      ∧ unreadBits t = rest ∧ readPosition t = readPosition s + bs.length := by
  induction bs generalizing s with
  | nil => exact ⟨s, rfl, h, .refl s, by simpa using hu, rfl⟩
  | cons b bs ih =>
    obtain ⟨b', t, hr, hl, hf, hb, hp⟩ | ⟨t, _, _, _, hb, _⟩ := readBit_live h
    · rw [hb, List.cons_append, List.cons.injEq] at hu
      obtain ⟨rfl, hu⟩ := hu
      obtain ⟨u, hr', hl', hf', hu', hp'⟩ := ih hl hu
      refine ⟨u, ?_, hl', hf.trans hf', hu', by rw [hp', hp, List.length_cons]; omega⟩
      simp [readBitList, hr, hr']
    · rw [hb] at hu
      cases hu

/-- With fewer than n bits left, `ReadBits(n)` finds Eos and has consumed them all (R132). -/
theorem readBitList_short (n : Nat) {s : State} (h : ReaderReady s) (hu : (unreadBits s).length < n) :
    ∃ t, readBitList n s = .done none t ∧ ReaderReady t ∧ ReaderFrame s t ∧ unreadBits t = [] ∧ t.br.r_eos = true := by
  induction n generalizing s with
  | zero => omega
  | succ n ih =>
    obtain ⟨b, t, hr, hl, hf, hb, _⟩ | ⟨t, hr, hl, hf, _, hut, _, hbr⟩ := readBit_live h
    · rw [hb, List.length_cons] at hu
      obtain ⟨u, hr', hl', hf', hu', he'⟩ := ih hl (by omega)
      exact ⟨u, by simp [readBitList, hr, hr'], hl', hf.trans hf', hu', he'⟩
    · exact ⟨t, by simp [readBitList, hr], hl, hf, hut, by rw [hbr]⟩

/-- `ReadBits(n)` gives the number the next n bits spell (R132). -/
theorem readBits_live (bs : List Bool) {s : State} {rest : List Bool} (h : ReaderReady s)
    (hu : unreadBits s = bs ++ rest) :
    ∃ t, readBits bs.length s = .done (some (natOfMsbBits bs)) t ∧ ReaderReady t ∧ ReaderFrame s t
      ∧ unreadBits t = rest ∧ readPosition t = readPosition s + bs.length := by
  obtain ⟨t, hr, h'⟩ := readBitList_live bs h hu
  exact ⟨t, by simp [readBits, hr], h'⟩

/-- RALIGN's cursor move goes to the next byte boundary (R134, R136). -/
theorem readPosition_alignCursor (s : State) :
    readPosition (alignCursor s) = readPosition s + bitsToBoundary s.br.r_bit := by
  unfold readPosition alignCursor bitsToBoundary
  split
  · rename_i h
    simp [h]
  · rename_i h
    have : s.br.r_bit.val ≠ 0 := fun e => h (Fin.ext e)
    simp
    omega

theorem readerOk_alignCursor {s : State} (h : ReaderOk s) : ReaderOk (alignCursor s) := by
  obtain ⟨hc, hs, hi⟩ := h
  refine ⟨by simpa using hc, by simpa using hs, ?_⟩
  unfold alignCursor
  split
  · exact hi
  · rename_i hb
    intro hf
    obtain ⟨h1, h2, h3, h4, h5, h6⟩ := hi hf
    have hlt : s.br.r_pos < s.br.r_buf.length := by
      rcases Nat.lt_or_eq_of_le h1 with h | h
      · exact h
      · exact absurd (h3 h) hb
    have he : s.br.r_eos = false := by
      cases e : s.br.r_eos
      · rfl
      · have := (h4 e).1
        omega
    exact ⟨hlt, h2, fun _ => rfl, by simp [he], h5, h6⟩

end Sys2Proof.Machine
end

