-- ==== Sys2Proof/Laws/Codec.lean ====
section
/-! SUPPORT. What a pass of a codec loop can do, and what the loops of TSER and TDES come to (42_treecodec.md R152 to
R158). -/

namespace Sys2Proof.Machine

/-! ### The loop -/

@[simp] theorem codecLoop_zero (pass : State → Result) (s : State) : codecLoop pass 0 s = .next s := rfl

theorem codecLoop_idle (pass : State → Result) (n : Nat) {s : State} (h : s.phase = .idle) :
    codecLoop pass n s = .next s := by
  cases n <;> simp [codecLoop, h]

/-- Go on with the loop after a pass. -/
def afterPass (pass : State → Result) (n : Nat) (r : Result) : Result :=
  match r with
  | .next t => codecLoop pass n t
  | .fault f => .fault f
  | .refused r => .refused r

theorem codecLoop_succ (pass : State → Result) (n : Nat) {s : State} (h : s.phase ≠ .idle) :
    codecLoop pass (n + 1) s = afterPass pass n (pass s) := by
  cases hp : pass s <;> simp [codecLoop, afterPass, h, hp]

/-- A property every pass keeps holds where the loop ends. -/
theorem codecLoop_keeps {pass : State → Result} {P : State → Prop}
    (hp : ∀ s t, P s → s.phase ≠ .idle → pass s = .next t → P t) (n : Nat) {s t : State} (hs : P s)
    (h : codecLoop pass n s = .next t) : P t := by
  induction n generalizing s with
  | zero =>
    cases h
    exact hs
  | succ n ih =>
    by_cases hi : s.phase = .idle
    · rw [codecLoop_idle pass _ hi] at h
      cases h
      exact hs
    · rw [codecLoop_succ pass n hi] at h
      cases hq : pass s with
      | next u =>
        rw [hq] at h
        exact ih (hp s u hs hi hq) h
      | fault f => rw [hq] at h; cases h
      | refused r => rw [hq] at h; cases h

/-- How many nodes a codec loop has seen. -/
def nodesSeen (s : State) : Nat := s.tc.t_nint + s.tc.t_nleaf

/-- With enough fuel the loop ends idle: each pass that goes on has seen one node more, and the bounds of R152 allow no
more than 510 of them before the last leaf. -/
theorem codecLoop_ends {pass : State → Result} {P : State → Prop} {p : Phase} (hpi : p ≠ .idle)
    (hp : ∀ s t, P s → s.phase = p → pass s = .next t →
      t.phase = .idle ∨ (t.phase = p ∧ P t ∧ nodesSeen t = nodesSeen s + 1))
    (hb : ∀ s, P s → s.phase = p → nodesSeen s ≤ 510) (n : Nat) {s t : State} (hs : P s) (hph : s.phase = p)
    (hn : 511 ≤ nodesSeen s + n) (h : codecLoop pass n s = .next t) : t.phase = .idle := by
  induction n generalizing s with
  | zero =>
    have := hb s hs hph
    omega
  | succ n ih =>
    rw [codecLoop_succ pass n (hph ▸ hpi)] at h
    cases hq : pass s with
    | next u =>
      rw [hq] at h
      rcases hp s u hs hph hq with hi | ⟨hu, hPu, hsn⟩
      · rw [afterPass, codecLoop_idle pass n hi] at h
        cases h
        exact hi
      · exact ih hPu hu (by omega) h
    | fault f => rw [hq] at h; cases h
    | refused r => rw [hq] at h; cases h

/-! ### What a pass of TSER can do -/

theorem writeBitList_cons (b : Bool) (bs : List Bool) (s : State) :
    writeBitList (b :: bs) s = (writeBit b s).bind fun _ t => writeBitList bs t := rfl

/-- NODE_LEAF hands the writer the record of the leaf (R88, R153). -/
theorem execNodeLeaf_eq (sym : Symbol) (l r : NodeIdx) (s : State) :
    execNodeLeaf sym l r s =
      match writeBitList (leafRecord sym) s with
      | .done _ t => nextSubtree (countLeaf t)
      | .raised e t => .next (raise e t) := rfl

/-- The pass on a leaf: the writer fails, or the tree is complete, or the pending right subtree is next. -/
theorem execNodeLeaf_cases (sym : Symbol) (l r : NodeIdx) (s : State) :
    (∃ e t, writeBitList (leafRecord sym) s = .raised e t ∧ execNodeLeaf sym l r s = .next (raise e t))
    ∨ (∃ t, writeBitList (leafRecord sym) s = .done () t ∧ t.tc.t_stk = []
        ∧ execNodeLeaf sym l r s = .next (respond .ok (BitVec.ofNat 9 (t.tc.t_nleaf + 1)) (countLeaf t)))
    ∨ (∃ t top below, writeBitList (leafRecord sym) s = .done () t ∧ t.tc.t_stk = top :: below
        ∧ execNodeLeaf sym l r s = .next { countLeaf t with
            phase := .serializing, tc := { (countLeaf t).tc with t_cur := top, t_stk := below } }) := by
  rw [execNodeLeaf_eq]
  cases hw : writeBitList (leafRecord sym) s with
  | raised e t => exact .inl ⟨e, t, rfl, rfl⟩
  | done a t =>
    cases hs : t.tc.t_stk with
    | nil => exact .inr (.inl ⟨t, rfl, hs, by simp [nextSubtree, endCodec, hs]⟩)
    | cons top below => exact .inr (.inr ⟨t, top, below, rfl, hs, by simp [nextSubtree, hs]⟩)

/-- The pass on an internal node: refused by the capacity test, or the writer fails, or the left child is next. -/
theorem execNodeInternal_cases (sym : Symbol) (l r : NodeIdx) (s : State) :
    (s.tc.t_nint = 255 ∧ execNodeInternal sym l r s = .next (raise .badTree s))
    ∨ (s.tc.t_nint ≠ 255 ∧ ∃ e t, writeBit true s = .raised e t ∧ execNodeInternal sym l r s = .next (raise e t))
    ∨ (s.tc.t_nint ≠ 255 ∧ ∃ t, writeBit true s = .done () t
        ∧ execNodeInternal sym l r s = .next (enterNode l r t)) := by
  by_cases hn : s.tc.t_nint = 255
  · exact .inl ⟨hn, by simp [execNodeInternal, Config.maxInternal, hn]⟩
  · right
    cases hw : writeBit true s with
    | raised e t => exact .inl ⟨hn, e, t, rfl, by simp [execNodeInternal, Config.maxInternal, hn, hw]⟩
    | done a t => exact .inr ⟨hn, t, rfl, by simp [execNodeInternal, Config.maxInternal, hn, hw]⟩

/-- What TSER leaves alone: BR, the source, NODE, the configuration, and the host's moves and reads. -/
structure SerializeFrame (s t : State) : Prop where
  chunkBytes : t.chunkBytes = s.chunkBytes
  br : t.br = s.br
  node : t.node = s.node
  src : t.src = s.src
  pending : t.host.pending = s.host.pending
  nodeReads : t.host.nodeReads = s.host.nodeReads

theorem SerializeFrame.refl (s : State) : SerializeFrame s s := ⟨rfl, rfl, rfl, rfl, rfl, rfl⟩

theorem SerializeFrame.trans {s t u : State} (h : SerializeFrame s t) (k : SerializeFrame t u) : SerializeFrame s u :=
  ⟨k.1.trans h.1, k.2.trans h.2, k.3.trans h.3, k.4.trans h.4, k.5.trans h.5, k.6.trans h.6⟩

theorem WriterFrame.serialize {s t : State} (h : WriterFrame s t) : SerializeFrame s t :=
  ⟨h.chunkBytes, h.br, h.node, h.src, by rw [h.host], by rw [h.host]⟩

/-- One writer operation that did not raise, as its frame says. -/
theorem Res.leaves_done {α : Type} {P : State → Prop} {r : Res α} {a : α} {t : State} (h : r.leaves P)
    (e : r = .done a t) : P t := by
  rw [e] at h
  exact h

theorem Res.leaves_raised {α : Type} {P : State → Prop} {r : Res α} {x : Exc} {t : State} (h : r.leaves P)
    (e : r = .raised x t) : P t := by
  rw [e] at h
  exact h

/-- Everything a pass of TSER that answers a next state guarantees. -/
structure SerializePassSpec (s t : State) : Prop where
  frame : SerializeFrame s t
  writer : WriterOk s → WriterOk t
  phase : t.phase = .idle ∨ t.phase = .serializing
  codec : t.phase = .serializing → s.tc.t_nleaf + s.tc.t_stk.length = s.tc.t_nint → s.tc.t_nint ≤ 255 →
    t.tc.t_nleaf + t.tc.t_stk.length = t.tc.t_nint ∧ t.tc.t_nint ≤ 255 ∧ nodesSeen t = nodesSeen s + 1

theorem execNodeLeaf_spec {sym : Symbol} {l r : NodeIdx} {s t : State} (h : execNodeLeaf sym l r s = .next t) :
    SerializePassSpec s t := by
  have hfr := writeBitList_frame (leafRecord sym) s
  have hok := fun k => writeBitList_writerOk (leafRecord sym) (s := s) k
  obtain ⟨e, u, hw, h'⟩ | ⟨u, hw, hs, h'⟩ | ⟨u, top, below, hw, hs, h'⟩ := execNodeLeaf_cases sym l r s <;>
    rw [h'] at h <;> cases h
  · exact ⟨(Res.leaves_raised hfr hw).serialize.trans ⟨rfl, rfl, rfl, rfl, rfl, rfl⟩,
      fun k => (Res.leaves_raised (hok k) hw : WriterOk u), .inl rfl, fun hp => by cases hp⟩
  · exact ⟨(Res.leaves_done hfr hw).serialize.trans ⟨rfl, rfl, rfl, rfl, rfl, rfl⟩,
      fun k => (Res.leaves_done (hok k) hw : WriterOk u), .inl rfl, fun hp => by cases hp⟩
  · refine ⟨(Res.leaves_done hfr hw).serialize.trans ⟨rfl, rfl, rfl, rfl, rfl, rfl⟩,
      fun k => (Res.leaves_done (hok k) hw : WriterOk u), .inr rfl, fun _ h1 h2 => ?_⟩
    have htc := (Res.leaves_done hfr hw).tc
    rw [← htc] at h1 h2
    have hns : nodesSeen s = nodesSeen u := by unfold nodesSeen; rw [htc]
    rw [hs, List.length_cons] at h1
    rw [hns]
    simp only [nodesSeen, countLeaf_tc]
    omega

theorem execNodeInternal_spec {sym : Symbol} {l r : NodeIdx} {s t : State}
    (h : execNodeInternal sym l r s = .next t) : SerializePassSpec s t := by
  have hfr := writeBit_frame true s
  have hok := fun k => writeBit_writerOk true (s := s) k
  obtain ⟨hn, h'⟩ | ⟨hn, e, u, hw, h'⟩ | ⟨hn, u, hw, h'⟩ := execNodeInternal_cases sym l r s <;>
    rw [h'] at h <;> cases h
  · exact ⟨⟨rfl, rfl, rfl, rfl, rfl, rfl⟩, fun k => k, .inl rfl, fun hp => by cases hp⟩
  · exact ⟨(Res.leaves_raised hfr hw).serialize.trans ⟨rfl, rfl, rfl, rfl, rfl, rfl⟩,
      fun k => (Res.leaves_raised (hok k) hw : WriterOk u), .inl rfl, fun hp => by cases hp⟩
  · refine ⟨(Res.leaves_done hfr hw).serialize.trans ⟨rfl, rfl, rfl, rfl, rfl, rfl⟩,
      fun k => (Res.leaves_done (hok k) hw : WriterOk u), .inr rfl, fun _ h1 h2 => ?_⟩
    have htc := (Res.leaves_done hfr hw).tc
    rw [← htc] at h1 h2 hn
    have hns : nodesSeen s = nodesSeen u := by unfold nodesSeen; rw [htc]
    rw [hns]
    simp only [nodesSeen, enterNode_tc, List.length_cons]
    omega

theorem serializePass_spec {s t : State} (h : serializePass s = .next t) : SerializePassSpec s t := by
  unfold serializePass at h
  split at h
  · cases h
  · split at h
    · exact execNodeInternal_spec h
    · exact execNodeLeaf_spec h

/-! ### What a pass of TDES can do -/

/-- What TDES leaves alone: BW, SINK, the configuration, SRC's bytes, and the host's moves and reads. -/
structure DeserializeFrame (s t : State) : Prop where
  chunkBytes : t.chunkBytes = s.chunkBytes
  bw : t.bw = s.bw
  sink : t.sink = s.sink
  srcBytes : t.src.bytes = s.src.bytes
  pending : t.host.pending = s.host.pending
  nodeReads : t.host.nodeReads = s.host.nodeReads

theorem DeserializeFrame.refl (s : State) : DeserializeFrame s s := ⟨rfl, rfl, rfl, rfl, rfl, rfl⟩

theorem DeserializeFrame.trans {s t u : State} (h : DeserializeFrame s t) (k : DeserializeFrame t u) :
    DeserializeFrame s u :=
  ⟨k.1.trans h.1, k.2.trans h.2, k.3.trans h.3, k.4.trans h.4, k.5.trans h.5, k.6.trans h.6⟩

theorem ReaderFrame.deserialize {s t : State} (h : ReaderFrame s t) : DeserializeFrame s t :=
  ⟨h.chunkBytes, h.bw, h.sink, h.srcBytes, by rw [h.host], by rw [h.host]⟩

theorem fetchRecord_leaves {P : State → Prop} {s : State} (h1 : (readBit s).leaves P)
    (h8 : ∀ t, P t → (readBits 8 t).leaves P) : (fetchRecord s).leaves P := by
  refine Res.leaves_bind h1 (fun _ h => h) fun f t h => ?_
  match f with
  | none => exact h
  | some true => exact h
  | some false => exact Res.leaves_bind (h8 t h) (fun _ k => k) fun _ _ k => k

theorem fetchRecord_frame (s : State) : (fetchRecord s).leaves (ReaderFrame s) :=
  fetchRecord_leaves (readBit_frame s) fun t h => Res.leaves_mono (readBits_frame 8 t) fun _ k => h.trans k

theorem fetchRecord_readerOk {s : State} (h : ReaderOk s) : (fetchRecord s).leaves ReaderOk :=
  fetchRecord_leaves (readBit_readerOk h) fun _ k => readBits_readerOk 8 k

/-- Everything a pass of TDES that answers a next state guarantees. -/
structure DeserializePassSpec (s t : State) : Prop where
  frame : DeserializeFrame s t
  reader : ReaderOk s → ReaderOk t
  node : Arena.wf s.node = true → Arena.wf t.node = true
  phase : t.phase = .idle ∨ t.phase = .deserializing
  codec : t.phase = .deserializing → s.tc.t_nleaf + s.tc.t_stk.length = s.tc.t_nint → s.tc.t_nint ≤ 255 →
    t.tc.t_nleaf + t.tc.t_stk.length = t.tc.t_nint ∧ t.tc.t_nint ≤ 255 ∧ nodesSeen t = nodesSeen s + 1
      ∧ t.tc.t_next = s.tc.t_next + 1

theorem execLeaf_spec {sym : Symbol} {s t : State} (h : execLeaf sym s = .next t) : DeserializePassSpec s t := by
  have hwf : Arena.wf s.node = true → Arena.wf (buildNode (mkEntry false sym 0#9 0#9) s).node = true :=
    fun k => Arena.wf_put _ k (BitVec.isLt _)
  unfold execLeaf linkRight at h
  split at h
  · cases h
    exact ⟨⟨rfl, rfl, rfl, rfl, rfl, rfl⟩, fun k => k, hwf, .inl rfl, fun hp => by cases hp⟩
  · rename_i p below hs
    cases h
    refine ⟨⟨rfl, rfl, rfl, rfl, rfl, rfl⟩, fun k => k, fun k => Arena.wf_put _ (hwf k) (BitVec.isLt _), .inr rfl,
      fun _ h1 h2 => ?_⟩
    simp only [countLeaf_tc, buildNode_tc] at hs
    rw [hs, List.length_cons] at h1
    refine ⟨?_, ?_, ?_, ?_⟩ <;> simp [nodesSeen] <;> omega

theorem execInternal_spec {s t : State} (h : execInternal s = .next t) : DeserializePassSpec s t := by
  unfold execInternal at h
  split at h
  · cases h
    exact ⟨⟨rfl, rfl, rfl, rfl, rfl, rfl⟩, fun k => k, fun k => Arena.wf_spoil k, .inl rfl, fun hp => by cases hp⟩
  · rename_i hn
    cases h
    refine ⟨⟨rfl, rfl, rfl, rfl, rfl, rfl⟩, fun k => k, fun k => Arena.wf_put _ k (BitVec.isLt _), .inr rfl,
      fun _ h1 h2 => ?_⟩
    simp only [Config.maxInternal] at hn
    refine ⟨?_, ?_, ?_, ?_⟩ <;> simp [nodesSeen] <;> omega

theorem execRecord_spec {r : Record} {s t : State} (h : execRecord r s = .next t) : DeserializePassSpec s t := by
  cases r with
  | leaf sym => exact execLeaf_spec h
  | internal => exact execInternal_spec h

/-- A pass of TDES: a record is fetched and acted on, or there is none, or the source fails. -/
theorem deserializePass_cases (s : State) :
    (∃ r t, fetchRecord s = .done (some r) t ∧ deserializePass s = execRecord r t)
    ∨ (∃ t, fetchRecord s = .done none t ∧ deserializePass s = .next (raiseInTdes .corruptTree t))
    ∨ (∃ e t, fetchRecord s = .raised e t ∧ deserializePass s = .next (raiseInTdes e t)) := by
  cases hf : fetchRecord s with
  | done a t =>
    cases a with
    | none => exact .inr (.inl ⟨t, rfl, by simp [deserializePass, hf]⟩)
    | some r => exact .inl ⟨r, t, rfl, by simp [deserializePass, hf]⟩
  | raised e t => exact .inr (.inr ⟨e, t, rfl, by simp [deserializePass, hf]⟩)

theorem deserializePass_spec {s t : State} (h : deserializePass s = .next t) : DeserializePassSpec s t := by
  have hfr := fetchRecord_frame s
  have hok := fun k => fetchRecord_readerOk (s := s) k
  obtain ⟨r, u, hf, h'⟩ | ⟨u, hf, h'⟩ | ⟨e, u, hf, h'⟩ := deserializePass_cases s <;> rw [h'] at h
  · have hu := Res.leaves_done hfr hf
    obtain ⟨f, rd, nd, ph, cd⟩ := execRecord_spec h
    refine ⟨hu.deserialize.trans f, fun k => rd (Res.leaves_done (hok k) hf), fun k => nd (by rw [hu.node]; exact k), ph, ?_⟩
    unfold nodesSeen at *
    rw [hu.tc] at cd
    exact cd
  · have hu := Res.leaves_done hfr hf
    cases h
    exact ⟨hu.deserialize.trans ⟨rfl, rfl, rfl, rfl, rfl, rfl⟩, fun k => (Res.leaves_done (hok k) hf : ReaderOk u),
      fun k => Arena.wf_spoil (by rw [hu.node]; exact k), .inl rfl, fun hp => by cases hp⟩
  · have hu := Res.leaves_raised hfr hf
    cases h
    exact ⟨hu.deserialize.trans ⟨rfl, rfl, rfl, rfl, rfl, rfl⟩, fun k => (Res.leaves_raised (hok k) hf : ReaderOk u),
      fun k => Arena.wf_spoil (by rw [hu.node]; exact k), .inl rfl, fun hp => by cases hp⟩

/-- TDES never stops: every pass answers a next state. -/
theorem deserializePass_next (s : State) : ∃ t, deserializePass s = .next t := by
  obtain ⟨r, u, _, h⟩ | ⟨u, _, h⟩ | ⟨e, u, _, h⟩ := deserializePass_cases s
  · rw [h]
    cases r with
    | leaf sym =>
      unfold execRecord execLeaf linkRight
      simp only
      split <;> exact ⟨_, rfl⟩
    | internal =>
      unfold execRecord execInternal
      simp only
      split <;> exact ⟨_, rfl⟩
  · exact ⟨_, h⟩
  · exact ⟨_, h⟩

/-! ### The loops of TSER and TDES -/

/-- The counters are those of R152, between two passes. -/
def CountersOk (s : State) : Prop :=
  s.tc.t_nleaf + s.tc.t_stk.length = s.tc.t_nint ∧ s.tc.t_nint ≤ 255

theorem countersOk_startCodec (p : Phase) (c : NodeIdx) (n : Nat) (s : State) : CountersOk (startCodec p c n s) := by
  simp [CountersOk]

theorem CountersOk.nodesSeen_le {s : State} (h : CountersOk s) : nodesSeen s ≤ 510 := by
  unfold CountersOk at h
  unfold nodesSeen
  omega

/-- A run of TSER's loop from its start ends idle, whatever NODE holds (R152, R158). -/
theorem serializeLoop_idle {root : NodeIdx} {n : Nat} {s t : State}
    (h : codecLoop serializePass codecFuel (startCodec .serializing root n s) = .next t) : t.phase = .idle := by
  refine codecLoop_ends (P := CountersOk) (p := .serializing) (by simp) (fun u v hu hp hv => ?_)
    (fun u hu _ => hu.nodesSeen_le) codecFuel (countersOk_startCodec _ _ _ _) rfl
    (by simp [nodesSeen, codecFuel, Config.maxInternal, Config.maxLeaves]) h
  obtain ⟨_, _, ph, cd⟩ := serializePass_spec hv
  rcases ph with ph | ph
  · exact .inl ph
  · obtain ⟨a, b, c⟩ := cd ph hu.1 hu.2
    exact .inr ⟨ph, ⟨a, b⟩, c⟩

/-- A run of TDES's loop from its start ends idle, whatever the stream holds (R152, R158). -/
theorem deserializeLoop_idle {c : NodeIdx} {n : Nat} {s t : State}
    (h : codecLoop deserializePass codecFuel (startCodec .deserializing c n s) = .next t) : t.phase = .idle := by
  refine codecLoop_ends (P := CountersOk) (p := .deserializing) (by simp) (fun u v hu hp hv => ?_)
    (fun u hu _ => hu.nodesSeen_le) codecFuel (countersOk_startCodec _ _ _ _) rfl
    (by simp [nodesSeen, codecFuel, Config.maxInternal, Config.maxLeaves]) h
  obtain ⟨_, _, _, ph, cd⟩ := deserializePass_spec hv
  rcases ph with ph | ph
  · exact .inl ph
  · obtain ⟨a, b, c, _⟩ := cd ph hu.1 hu.2
    exact .inr ⟨ph, ⟨a, b⟩, c⟩

theorem deserializeLoop_next (n : Nat) (s : State) : ∃ t, codecLoop deserializePass n s = .next t := by
  induction n generalizing s with
  | zero => exact ⟨s, rfl⟩
  | succ n ih =>
    by_cases hi : s.phase = .idle
    · exact ⟨s, codecLoop_idle _ _ hi⟩
    · obtain ⟨t, ht⟩ := deserializePass_next s
      rw [codecLoop_succ _ _ hi, ht]
      exact ih t

end Sys2Proof.Machine
end

