-- ==== Sys2Proof/Laws/Trees.lean ====
section
/-! SUPPORT. Trees as values, and what the loops of TSER and TDES come to on one (42_treecodec.md R150 to R156). -/

namespace Sys2Proof.Machine

/-! ### Counting -/

theorem Tree.leaves_eq (t : Tree) : t.leaves = t.internals + 1 := by
  induction t with
  | leaf s => rfl
  | node l r ihl ihr => simp only [leaves, internals, ihl, ihr]; omega

theorem Tree.size_eq (t : Tree) : t.size = t.leaves + t.internals := by
  have := t.leaves_eq
  unfold size
  omega

theorem Tree.size_node (l r : Tree) : (Tree.node l r).size = l.size + r.size + 1 := by
  simp only [size_eq, leaves, internals]
  omega

@[simp] theorem length_leafRecord (s : Symbol) : (leafRecord s).length = 9 := by simp [leafRecord]

/-- len(S(T)) = 10L − 1 (R89). -/
theorem Tree.length_serialize (t : Tree) : t.serialize.length = 10 * t.leaves - 1 := by
  induction t with
  | leaf s => simp [serialize, leaves]
  | node l r ihl ihr =>
    have h1 := l.leaves_eq
    have h2 := r.leaves_eq
    simp only [serialize, internalRecord, List.length_append, List.length_singleton, ihl, ihr, leaves]
    omega

theorem leafRecord_inj {s t : Symbol} {x y : List Bool} (h : leafRecord s ++ x = leafRecord t ++ y) :
    s = t ∧ x = y := by
  obtain ⟨h1, h2⟩ := List.append_inj h (by simp)
  exact ⟨msbBits_inj (List.cons.inj h1).2, h2⟩

/-! ### The serializer -/

/-- What TSER's loop has done once it has seen the whole tree at `t_cur`, up to the count of its last leaf. -/
structure SerializedTree (T : Tree) (s u : State) (txs : List (List Byte)) : Prop where
  live : WriterReady u
  frame : SerializeFrame s u
  host : u.host = s.host
  bits : acceptedBits u = acceptedBits s ++ T.serialize
  chunks : FullChunks s u txs
  stk : u.tc.t_stk = s.tc.t_stk
  nint : u.tc.t_nint = s.tc.t_nint + T.internals
  nleaf : u.tc.t_nleaf = s.tc.t_nleaf + T.leaves

theorem FullChunks.trans {s t u : State} {x y : List (List Byte)} (h : FullChunks s t x) (k : FullChunks t u y)
    (hc : t.chunkBytes = s.chunkBytes) : FullChunks s u (x ++ y) :=
  ⟨by rw [k.tx, h.tx, List.append_assoc], by rw [k.bytes, h.bytes]; simp, fun c hm => by
    rcases List.mem_append.mp hm with hm | hm
    · exact h.full c hm
    · rw [k.full c hm, hc]⟩

/-- TSER's loop on the tree at `t_cur` (R153): size(T) passes hand the writer exactly S(T), and what follows is what
follows a leaf. -/
theorem serializeLoop_tree (T : Tree) {s : State} (hp : s.phase = .serializing) (hl : WriterReady s)
    (ht : Arena.holdsTree s.node s.tc.t_cur T = true) (hn : s.tc.t_nint + T.internals ≤ 255) :
    ∃ u txs, SerializedTree T s u txs
      ∧ ∀ n, codecLoop serializePass (n + T.size) s = afterPass serializePass n (nextSubtree u) := by
  induction T generalizing s with
  | leaf sym =>
    obtain ⟨t, txs, hw, hlt, hft, hat, hxt⟩ := writeBitList_live (leafRecord sym) hl
    refine ⟨countLeaf t, txs, ⟨⟨hlt.1, hlt.2, hlt.3, hlt.4⟩, hft.serialize.trans ⟨rfl, rfl, rfl, rfl, rfl, rfl⟩,
      hft.host, hat, ⟨hxt.1, hxt.2, hxt.3⟩, by simp [hft.tc], by simp [hft.tc, Tree.internals],
      by simp [hft.tc, Tree.leaves]⟩, fun n => ?_⟩
    have hpass : serializePass s = nextSubtree (countLeaf t) := by
      unfold Arena.holdsTree at ht
      unfold serializePass memRead
      split at ht
      · rename_i e he
        rw [he]
        simp only [Bool.and_eq_true, Bool.not_eq_true', beq_iff_eq] at ht
        simp only [ht.1, Bool.false_eq_true, if_false, execNodeLeaf_eq, ht.2, hw]
      · cases ht
    rw [show (Tree.leaf sym).size = 1 from rfl, codecLoop_succ _ _ (by rw [hp]; simp), hpass]
  | node l r ihl ihr =>
    obtain ⟨t, txs, hw, hlt, hft, hat, hxt⟩ := writeBit_live true hl
    unfold Arena.holdsTree at ht
    split at ht
    · rename_i e he
      simp only [Bool.and_eq_true] at ht
      simp only [Tree.internals] at hn
      have hpass : serializePass s = .next (enterNode (entryLeft e) (entryRight e) t) := by
        unfold serializePass memRead
        rw [he]
        simp only [ht.1.1, if_true, execNodeInternal, Config.maxInternal, hw]
        rw [if_neg (by omega)]
      obtain ⟨u, ux, hu, hul⟩ := ihl (s := enterNode (entryLeft e) (entryRight e) t) rfl
        ⟨hlt.1, hlt.2, hlt.3, hlt.4⟩ (by simpa [hft.node] using ht.1.2) (by simp [hft.tc]; omega)
      have hus : u.tc.t_stk = entryRight e :: s.tc.t_stk := by rw [hu.stk]; simp [hft.tc]
      have hnext : nextSubtree u = .next { u with
          phase := .serializing, tc := { u.tc with t_cur := entryRight e, t_stk := s.tc.t_stk } } := by
        simp [nextSubtree, hus]
      obtain ⟨v, vx, hv, hvl⟩ := ihr (s := { u with
          phase := .serializing, tc := { u.tc with t_cur := entryRight e, t_stk := s.tc.t_stk } }) rfl
        ⟨hu.live.1, hu.live.2, hu.live.3, hu.live.4⟩ (by
          show Arena.holdsTree u.node (entryRight e) r = true
          rw [hu.frame.node]
          simpa [hft.node] using ht.2) (by
          show u.tc.t_nint + r.internals ≤ 255
          rw [hu.nint]
          simp [hft.tc]
          omega)
      have hst : SerializeFrame s (enterNode (entryLeft e) (entryRight e) t) :=
        hft.serialize.trans ⟨rfl, rfl, rfl, rfl, rfl, rfl⟩
      have huv : SerializeFrame u { u with
          phase := .serializing, tc := { u.tc with t_cur := entryRight e, t_stk := s.tc.t_stk } } :=
        ⟨rfl, rfl, rfl, rfl, rfl, rfl⟩
      refine ⟨v, txs ++ (ux ++ vx), ⟨hv.live, hst.trans (hu.frame.trans (huv.trans hv.frame)), ?_, ?_, ?_, hv.stk, ?_, ?_⟩,
        fun n => ?_⟩
      · rw [hv.host]
        show u.host = s.host
        rw [hu.host]
        exact hft.host
      · rw [hv.bits]
        show acceptedBits u ++ r.serialize = _
        rw [hu.bits]
        show (acceptedBits t ++ l.serialize) ++ r.serialize = _
        rw [hat]
        simp [Tree.serialize, internalRecord]
      · refine FullChunks.trans (t := t) ⟨hxt.1, hxt.2, hxt.3⟩ ?_ hft.chunkBytes
        have hu' : FullChunks t u ux := ⟨hu.chunks.1, hu.chunks.2, hu.chunks.3⟩
        exact hu'.trans ⟨hv.chunks.1, hv.chunks.2, hv.chunks.3⟩ hu.frame.chunkBytes
      · rw [hv.nint]
        show u.tc.t_nint + r.internals = _
        rw [hu.nint]
        simp [hft.tc, Tree.internals]
        omega
      · rw [hv.nleaf]
        show u.tc.t_nleaf + r.leaves = _
        rw [hu.nleaf]
        simp [hft.tc, Tree.leaves]
        omega
      · rw [Tree.size_node, show n + (l.size + r.size + 1) = ((n + r.size) + l.size) + 1 by omega,
          codecLoop_succ _ _ (by rw [hp]; simp), hpass, afterPass, hul, hnext, afterPass, hvl]
    · cases ht

/-! ### The deserializer -/

theorem toNat_nodeIdx {n : Nat} (h : n < 512) : (nodeIdx n).toNat = n := by
  simp only [nodeIdx, BitVec.toNat_ofNat]
  omega

theorem nodeIdx_succ (n : Nat) : nodeIdx n + 1#9 = nodeIdx (n + 1) := by
  simp [nodeIdx, BitVec.ofNat_add]

/-- A layout depends only on the entries it occupies. -/
theorem Arena.holdsLayout_congr {m m' : Arena} (T : Tree) {b : Nat}
    (h : ∀ i, b ≤ i → i < b + T.size → m'.get? i = m.get? i) (hm : m.holdsLayout b T = true) :
    m'.holdsLayout b T = true := by
  induction T generalizing b with
  | leaf s =>
    unfold holdsLayout at *
    rw [h b (Nat.le_refl _) (by simp [Tree.size, Tree.leaves])]
    exact hm
  | node l r ihl ihr =>
    rw [Tree.size_node] at h
    unfold holdsLayout at hm ⊢
    simp only [Bool.and_eq_true] at hm ⊢
    refine ⟨⟨?_, ihl (b := b + 1) (fun i h1 h2 => h i (by omega) (by omega)) hm.1.2⟩,
      ihr (b := b + 1 + l.size) (fun i h1 h2 => h i (by omega) (by omega)) hm.2⟩
    rw [h b (Nat.le_refl _) (by omega)]
    exact hm.1.1

/-! Fields of an entry made from its fields (R84). -/

theorem getLsbD_mkEntry (k : Bool) (s : Symbol) (l r : NodeIdx) (i : Nat) :
    (mkEntry k s l r).getLsbD i =
      if i < 9 then r.getLsbD i
      else if i < 18 then l.getLsbD (i - 9)
      else if i < 26 then s.getLsbD (i - 18)
      else (BitVec.ofBool k).getLsbD (i - 26) := by
  show BitVec.getLsbD (BitVec.ofBool k ++ s ++ l ++ r : BitVec (1 + 8 + 9 + 9)) i = _
  simp only [BitVec.getLsbD_append]
  by_cases h1 : i < 9
  · simp [h1]
  · by_cases h2 : i < 18
    · simp [h1, h2, show i - 9 < 9 by omega]
    · by_cases h3 : i < 26
      · simp [h1, h2, h3, show ¬ (i - 9 < 9) by omega, show i - 9 - 9 = i - 18 by omega, show i - 18 < 8 by omega]
      · simp [h1, h2, h3, show ¬ (i - 9 < 9) by omega, show ¬ (i - 9 - 9 < 8) by omega,
          show i - 9 - 9 - 8 = i - 26 by omega]

theorem entryKind_mkEntry (k : Bool) (s : Symbol) (l r : NodeIdx) : entryKind (mkEntry k s l r) = k := by
  rw [entryKind, getLsbD_mkEntry]
  cases k <;> rfl

theorem entryRight_mkEntry (k : Bool) (s : Symbol) (l r : NodeIdx) : entryRight (mkEntry k s l r) = r := by
  apply BitVec.eq_of_getLsbD_eq
  intro i hi
  rw [entryRight, BitVec.getLsbD_extractLsb', getLsbD_mkEntry]
  simp [hi]

theorem entryLeft_mkEntry (k : Bool) (s : Symbol) (l r : NodeIdx) : entryLeft (mkEntry k s l r) = l := by
  apply BitVec.eq_of_getLsbD_eq
  intro i hi
  rw [entryLeft, BitVec.getLsbD_extractLsb', getLsbD_mkEntry]
  simp [hi, show 9 + i < 18 by omega]

theorem entrySym_mkEntry (k : Bool) (s : Symbol) (l r : NodeIdx) : entrySym (mkEntry k s l r) = s := by
  apply BitVec.eq_of_getLsbD_eq
  intro i hi
  rw [entrySym, BitVec.getLsbD_extractLsb', getLsbD_mkEntry]
  simp [hi, show ¬ (18 + i < 9) by omega, show 18 + i < 26 by omega]

/-- An arena laid out as Layout(T, b) holds T at index b (R155). -/
theorem Arena.holdsTree_of_holdsLayout {m : Arena} (T : Tree) {b : Nat} (hb : b + T.size ≤ 512)
    (h : m.holdsLayout b T = true) : m.holdsTree (nodeIdx b) T = true := by
  induction T generalizing b with
  | leaf s =>
    have hs : (Tree.leaf s).size = 1 := rfl
    unfold holdsLayout at h
    unfold holdsTree
    rw [toNat_nodeIdx (by omega), eq_of_beq h]
    simp [entryKind_mkEntry, entrySym_mkEntry]
  | node l r ihl ihr =>
    have hl : 0 < l.size := by rw [l.size_eq, l.leaves_eq]; omega
    have hr : 0 < r.size := by rw [r.size_eq, r.leaves_eq]; omega
    rw [Tree.size_node] at hb
    unfold holdsLayout at h
    simp only [Bool.and_eq_true] at h
    unfold holdsTree
    rw [toNat_nodeIdx (by omega), eq_of_beq h.1.1]
    simp only [entryKind_mkEntry, entryLeft_mkEntry, entryRight_mkEntry, Bool.true_and, Bool.and_eq_true]
    exact ⟨ihl (by omega) h.1.2, ihr (by omega) h.2⟩

/-- The record that stands next in SRC is fetched (R90). -/
theorem fetchRecord_leaf {s : State} (h : ReaderReady s) {sym : Symbol} {rest : List Bool}
    (hu : unreadBits s = leafRecord sym ++ rest) :
    ∃ t, fetchRecord s = .done (some (.leaf sym)) t ∧ ReaderReady t ∧ ReaderFrame s t ∧ unreadBits t = rest
      ∧ readPosition t = readPosition s + 9 := by
  rw [leafRecord, List.cons_append] at hu
  obtain ⟨b, t, hr, hl, hf, hb, hp⟩ | ⟨t, _, _, _, hb, _⟩ := readBit_live h
  · rw [hb, List.cons.injEq] at hu
    obtain ⟨rfl, hu⟩ := hu
    obtain ⟨u, hr', hl', hf', hu', hp'⟩ := readBits_live (msbBits sym) hl hu
    rw [length_msbBits] at hr' hp'
    refine ⟨u, ?_, hl', hf.trans hf', hu', by omega⟩
    simp [fetchRecord, hr, hr', natOfMsbBits_msbBits]
  · rw [hb] at hu
    cases hu

theorem fetchRecord_internal {s : State} (h : ReaderReady s) {rest : List Bool}
    (hu : unreadBits s = true :: rest) :
    ∃ t, fetchRecord s = .done (some .internal) t ∧ ReaderReady t ∧ ReaderFrame s t ∧ unreadBits t = rest
      ∧ readPosition t = readPosition s + 1 := by
  obtain ⟨b, t, hr, hl, hf, hb, hp⟩ | ⟨t, _, _, _, hb, _⟩ := readBit_live h
  · rw [hb, List.cons.injEq] at hu
    obtain ⟨rfl, hu⟩ := hu
    exact ⟨t, by simp [fetchRecord, hr], hl, hf, hu, hp⟩
  · rw [hb] at hu
    cases hu

/-- What TDES's loop has done once it has read the whole tree whose bits stood next, up to the count of its last leaf. -/
structure DeserializedTree (T : Tree) (s u : State) : Prop where
  live : ReaderReady u
  frame : DeserializeFrame s u
  host : u.host = s.host
  position : readPosition u = readPosition s + T.serialize.length
  stk : u.tc.t_stk = s.tc.t_stk
  nint : u.tc.t_nint = s.tc.t_nint + T.internals
  nleaf : u.tc.t_nleaf = s.tc.t_nleaf + T.leaves
  next : u.tc.t_next = s.tc.t_next + T.size
  layout : Arena.holdsLayout u.node s.tc.t_next T = true
  others : ∀ i, i < s.tc.t_next ∨ s.tc.t_next + T.size ≤ i → Arena.get? u.node i = Arena.get? s.node i

/-- TDES's loop on a stream that begins with S(T) (R154, R155): size(T) passes consume exactly S(T) and lay T out from
`t_next` upward, and what follows is what follows a leaf. -/
theorem deserializeLoop_tree (T : Tree) {s : State} {rest : List Bool} (hp : s.phase = .deserializing)
    (hl : ReaderReady s) (hu : unreadBits s = T.serialize ++ rest) (hn : s.tc.t_nint + T.internals ≤ 255)
    (hb : s.tc.t_next + T.size ≤ 511) :
    ∃ u, DeserializedTree T s u ∧ unreadBits u = rest
      ∧ ∀ n, codecLoop deserializePass (n + T.size) s = afterPass deserializePass n (linkRight u) := by
  induction T generalizing s rest with
  | leaf sym =>
    have hsz : (Tree.leaf sym).size = 1 := rfl
    rw [hsz] at hb
    obtain ⟨t, hr, hlt, hft, hut, hpt⟩ := fetchRecord_leaf hl hu
    have hnx : t.tc.t_next = s.tc.t_next := by rw [hft.tc]
    have hput : (countLeaf (buildNode (mkEntry false sym 0#9 0#9) t)).node
        = Arena.put s.node s.tc.t_next (mkEntry false sym 0#9 0#9) := by
      simp only [countLeaf_node, buildNode_node, hft.node, hnx, toNat_nodeIdx (show s.tc.t_next < 512 by omega)]
    refine ⟨countLeaf (buildNode (mkEntry false sym 0#9 0#9) t),
      ⟨⟨hlt.1, hlt.2, hlt.3, hlt.4⟩, hft.deserialize.trans ⟨rfl, rfl, rfl, rfl, rfl, rfl⟩, hft.host, ?_, ?_, ?_, ?_, ?_,
        ?_, ?_⟩, hut, fun n => ?_⟩
    · rw [show (Tree.leaf sym).serialize.length = 9 by simp [Tree.serialize]]
      exact hpt
    · simp [hft.tc]
    · simp [hft.tc, Tree.internals]
    · simp [hft.tc, Tree.leaves]
    · simp [hft.tc, hsz]
    · rw [hput, Arena.holdsLayout, Arena.get?_put_same]
      simp
    · intro i hi
      rw [hsz] at hi
      rw [hput, Arena.get?_put_other _ _ (by omega)]
    · rw [hsz, codecLoop_succ _ _ (by rw [hp]; simp)]
      simp only [deserializePass, hr, execRecord, execLeaf]
  | node l r ihl ihr =>
    have hls := l.size_eq
    have hll := l.leaves_eq
    have hrs := r.size_eq
    have hrl := r.leaves_eq
    rw [Tree.size_node] at hb
    simp only [Tree.internals] at hn
    have hu1 : unreadBits s = true :: (l.serialize ++ (r.serialize ++ rest)) := by
      rw [hu]; simp [Tree.serialize, internalRecord]
    obtain ⟨t, hr, hlt, hft, hut, hpt⟩ := fetchRecord_internal hl hu1
    have hnx : t.tc.t_next = s.tc.t_next := by rw [hft.tc]
    -- the state after the pass on the internal record
    let e0 := mkEntry true 0#8 (nodeIdx (s.tc.t_next + 1)) 0#9
    let a := openNode (nodeIdx s.tc.t_next) (buildNode e0 t)
    have hpass : deserializePass s = .next a := by
      simp only [deserializePass, hr, execRecord, execInternal, Config.maxInternal, hft.tc]
      rw [if_neg (by omega)]
    have hanode : a.node = Arena.put s.node s.tc.t_next e0 := by
      simp only [a, openNode_node, buildNode_node, hft.node, hnx, toNat_nodeIdx (show s.tc.t_next < 512 by omega)]
    have hanext : a.tc.t_next = s.tc.t_next + 1 := by simp [a, hft.tc]
    have hau : unreadBits a = l.serialize ++ (r.serialize ++ rest) := hut
    obtain ⟨u, hud, huu, hul⟩ := ihl (s := a) rfl ⟨hlt.1, hlt.2, hlt.3, hlt.4⟩ hau
      (by simp [a, hft.tc]; omega) (by rw [hanext]; omega)
    have hus : u.tc.t_stk = nodeIdx s.tc.t_next :: s.tc.t_stk := by rw [hud.stk]; simp [a, hft.tc]
    have hun : u.tc.t_next = s.tc.t_next + 1 + l.size := by rw [hud.next, hanext]
    -- the state after the right link of the parent has been set
    let e1 := mkEntry true 0#8 (nodeIdx (s.tc.t_next + 1)) (nodeIdx (s.tc.t_next + 1 + l.size))
    let c : State := { memWrite (nodeIdx s.tc.t_next) e1 u with
      phase := .deserializing, tc := { u.tc with t_stk := s.tc.t_stk } }
    have hlink : linkRight u = .next c := by
      simp [linkRight, hus, hun, nodeIdx_succ, c, e1]
    have hcnode : c.node = Arena.put u.node s.tc.t_next e1 := by
      show Arena.put u.node (nodeIdx s.tc.t_next).toNat e1 = _
      rw [toNat_nodeIdx (by omega)]
    have hcu : unreadBits c = r.serialize ++ rest := huu
    have hclive : ReaderReady c := ⟨hud.live.1, hud.live.2, hud.live.3, hud.live.4⟩
    have hcn : c.tc.t_next = s.tc.t_next + 1 + l.size := hun
    have hci : c.tc.t_nint = s.tc.t_nint + 1 + l.internals := by
      show u.tc.t_nint = _
      rw [hud.nint]
      simp [a, hft.tc]
    obtain ⟨v, hvd, hvu, hvl⟩ := ihr (s := c) rfl hclive hcu (by rw [hci]; omega) (by rw [hcn]; omega)
    have hsa : DeserializeFrame s a := hft.deserialize.trans ⟨rfl, rfl, rfl, rfl, rfl, rfl⟩
    have huc : DeserializeFrame u c := ⟨rfl, rfl, rfl, rfl, rfl, rfl⟩
    have hvget : ∀ i, i < s.tc.t_next + 1 + l.size ∨ s.tc.t_next + 1 + l.size + r.size ≤ i →
        Arena.get? v.node i = if i = s.tc.t_next then some e1 else Arena.get? u.node i := by
      intro i hi
      rw [hvd.others i (by rw [hcn]; exact hi), hcnode, Arena.get?_put]
    refine ⟨v, ⟨hvd.live, hsa.trans (hud.frame.trans (huc.trans hvd.frame)), ?_, ?_, hvd.stk, ?_, ?_, ?_, ?_, ?_⟩, hvu,
      fun n => ?_⟩
    · rw [hvd.host]
      show u.host = s.host
      rw [hud.host]
      exact hft.host
    · rw [hvd.position]
      show readPosition u + _ = _
      rw [hud.position]
      show readPosition t + _ + _ = _
      rw [hpt]
      simp [Tree.serialize, internalRecord]
      omega
    · rw [hvd.nint, hci, Tree.internals]
      omega
    · rw [hvd.nleaf]
      show u.tc.t_nleaf + r.leaves = _
      rw [hud.nleaf]
      simp [a, hft.tc, Tree.leaves]
      omega
    · rw [hvd.next, hcn, Tree.size_node]
      omega
    · unfold Arena.holdsLayout
      simp only [Bool.and_eq_true]
      refine ⟨⟨?_, ?_⟩, by rw [← hcn]; exact hvd.layout⟩
      · rw [hvget _ (by omega), if_pos rfl]
        simp [e1]
      · refine Arena.holdsLayout_congr l (m := u.node) (fun i h1 h2 => ?_) (by rw [← hanext]; exact hud.layout)
        rw [hvget i (by omega), if_neg (by omega)]
    · intro i hi
      rw [Tree.size_node] at hi
      rw [hvget i (by omega), if_neg (by omega), hud.others i (by rw [hanext]; omega), hanode,
        Arena.get?_put_other _ _ (by omega)]
    · rw [Tree.size_node, show n + (l.size + r.size + 1) = ((n + r.size) + l.size) + 1 by omega,
        codecLoop_succ _ _ (by rw [hp]; simp), hpass, afterPass, hul, hlink, afterPass, hvl]

end Sys2Proof.Machine
end

