-- ==== Sys2Proof/Laws/Answers.lean ====
section
/-! SUPPORT. How commands end (60_exceptions.md R170 to R175, R183): the only exception an internal operation raises is
IOError; what a pass of a codec loop answers; what a whole loop leaves alone; and what a TDES that answered OK has read. -/

namespace Sys2Proof.Machine

/-! ### Internal operations raise IOError and nothing else (R171) -/

/-- If it raises, it raises IOError. -/
def Res.onlyIoError {α : Type} : Res α → Prop
  | .done _ _ => True
  | .raised e _ => e = .ioError

theorem Res.onlyIoError_bind {α β : Type} {r : Res α} {f : α → State → Res β} (h : r.onlyIoError)
    (hf : ∀ a t, (f a t).onlyIoError) : (r.bind f).onlyIoError := by
  cases r with
  | done a t => exact hf a t
  | raised e t => exact h

theorem drain_onlyIoError (s : State) : (drain s).onlyIoError := by
  rcases drain_cases s with ⟨_, h⟩ | ⟨_, _, h⟩ | ⟨_, k, _, h⟩ <;> rw [h] <;> simp [Res.onlyIoError]

theorem writeBit_onlyIoError (b : Bool) (s : State) : (writeBit b s).onlyIoError := by
  rcases writeBit_cases b s with ⟨_, h⟩ | ⟨_, _, h⟩ | ⟨_, _, h⟩ <;> rw [h]
  · trivial
  · trivial
  · exact drain_onlyIoError _

theorem writeBitList_onlyIoError (bs : List Bool) (s : State) : (writeBitList bs s).onlyIoError := by
  induction bs generalizing s with
  | nil => trivial
  | cons b bs ih =>
    rw [writeBitList_cons]
    exact Res.onlyIoError_bind (writeBit_onlyIoError b s) fun _ t => ih t

theorem flush_onlyIoError (s : State) : (flush s).onlyIoError :=
  Res.onlyIoError_bind (drain_onlyIoError _) fun _ _ => trivial

theorem readBit_onlyIoError (s : State) : (readBit s).onlyIoError := by
  rcases readBit_cases s with ⟨_, _, h⟩ | ⟨_, _, h⟩ | ⟨_, _, _, _, h⟩ | ⟨_, _, _, _, _, _, _, h⟩ | ⟨_, _, _, _, h⟩ <;>
    rw [h] <;> simp [Res.onlyIoError]

theorem readBitList_onlyIoError (n : Nat) (s : State) : (readBitList n s).onlyIoError := by
  induction n generalizing s with
  | zero => trivial
  | succ n ih =>
    refine Res.onlyIoError_bind (readBit_onlyIoError s) fun a t => ?_
    cases a with
    | none => trivial
    | some b => exact Res.onlyIoError_bind (ih t) fun _ _ => trivial

theorem fetchRecord_onlyIoError (s : State) : (fetchRecord s).onlyIoError := by
  refine Res.onlyIoError_bind (readBit_onlyIoError s) fun a t => ?_
  match a with
  | none => trivial
  | some true => trivial
  | some false =>
    exact Res.onlyIoError_bind (Res.onlyIoError_bind (readBitList_onlyIoError 8 t) fun _ _ => trivial) fun _ _ => trivial

/-! ### What a pass answers -/

/-- The host's side with one response more. -/
def HostPort.answered (h : HostPort) (st : Status) (d : BitVec 9) : HostPort :=
  { h with responses := h.responses ++ [responseWord st d] }

/-- A pass goes on and answers nothing, or it ends its command with one response of a listed status; OK carries the number
of leaves. -/
def PassAnswers (statuses : List Status) (s t : State) : Prop :=
  (t.phase ≠ .idle ∧ t.host = s.host)
    ∨ (t.phase = .idle ∧ ∃ st d, t.host = s.host.answered st d ∧ st ∈ statuses
        ∧ (st = .ok → s.tc.t_stk = [] ∧ d = BitVec.ofNat 9 (s.tc.t_nleaf + 1)))

theorem host_raise {s t : State} (e : Exc) (h : t.host = s.host) : (raise e t).host = s.host.answered e.status 0#9 := by
  simp [raise, respond, HostPort.answered, h]

theorem serializePass_answers {s t : State} (h : serializePass s = .next t) :
    PassAnswers [.ok, .ioErr, .badTree] s t := by
  unfold serializePass at h
  split at h
  · cases h
  · rename_i e he
    split at h
    · have hfr := writeBit_frame true s
      have hio := writeBit_onlyIoError true s
      obtain ⟨hn, h'⟩ | ⟨hn, x, u, hw, h'⟩ | ⟨hn, u, hw, h'⟩ :=
        execNodeInternal_cases (entrySym e) (entryLeft e) (entryRight e) s <;> rw [h'] at h <;> cases h
      · exact .inr ⟨rfl, .badTree, 0#9, rfl, by simp, by simp⟩
      · rw [hw] at hio
        cases hio
        exact .inr ⟨rfl, .ioErr, 0#9, host_raise .ioError (Res.leaves_raised hfr hw).host, by simp, by simp⟩
      · exact .inl ⟨by simp, (Res.leaves_done hfr hw).host⟩
    · have hfr := writeBitList_frame (leafRecord (entrySym e)) s
      have hio := writeBitList_onlyIoError (leafRecord (entrySym e)) s
      obtain ⟨x, u, hw, h'⟩ | ⟨u, hw, hs, h'⟩ | ⟨u, top, below, hw, hs, h'⟩ :=
        execNodeLeaf_cases (entrySym e) (entryLeft e) (entryRight e) s <;> rw [h'] at h <;> cases h
      · rw [hw] at hio
        cases hio
        exact .inr ⟨rfl, .ioErr, 0#9, host_raise .ioError (Res.leaves_raised hfr hw).host, by simp, by simp⟩
      · have hd := Res.leaves_done hfr hw
        refine .inr ⟨rfl, .ok, BitVec.ofNat 9 (s.tc.t_nleaf + 1), ?_, by simp, fun _ => ⟨?_, rfl⟩⟩
        · simp [respond, HostPort.answered, hd.host, hd.tc, countLeaf]
        · rw [← hd.tc]
          exact hs
      · exact .inl ⟨by simp, (Res.leaves_done hfr hw).host⟩

theorem deserializePass_answers {s t : State} (h : deserializePass s = .next t) :
    PassAnswers [.ok, .ioErr, .corruptTree] s t := by
  have hfr := fetchRecord_frame s
  have hio := fetchRecord_onlyIoError s
  obtain ⟨r, u, hf, h'⟩ | ⟨u, hf, h'⟩ | ⟨e, u, hf, h'⟩ := deserializePass_cases s <;> rw [h'] at h
  · have hu := Res.leaves_done hfr hf
    cases r with
    | leaf sym =>
      simp only [execRecord, execLeaf, linkRight] at h
      split at h
      · rename_i hs
        cases h
        refine .inr ⟨rfl, .ok, BitVec.ofNat 9 (s.tc.t_nleaf + 1), ?_, by simp, fun _ => ⟨?_, rfl⟩⟩
        · simp [respond, HostPort.answered, hu.host, hu.tc, countLeaf, buildNode, memWrite]
        · simpa [hu.tc] using hs
      · cases h
        exact .inl ⟨by simp, hu.host⟩
    | internal =>
      simp only [execRecord, execInternal] at h
      split at h <;> cases h
      · exact .inr ⟨rfl, .corruptTree, 0#9, host_raise (t := spoilNode u) .corruptTree hu.host, by simp, by simp⟩
      · exact .inl ⟨by simp [openNode], hu.host⟩
  · cases h
    exact .inr ⟨rfl, .corruptTree, 0#9, host_raise (t := spoilNode u) .corruptTree (Res.leaves_done hfr hf).host,
      by simp, by simp⟩
  · rw [hf] at hio
    cases hio
    cases h
    exact .inr ⟨rfl, .ioErr, 0#9, host_raise (t := spoilNode u) .ioError (Res.leaves_raised hfr hf).host,
      by simp, by simp⟩

/-! ### Whole loops -/

theorem serializePass_countersOk {s t : State} (hs : CountersOk s) (h : serializePass s = .next t) :
    t.phase = .idle ∨ (t.phase = .serializing ∧ CountersOk t) := by
  obtain ⟨_, _, ph, cd⟩ := serializePass_spec h
  rcases ph with ph | ph
  · exact .inl ph
  · obtain ⟨a, b, _⟩ := cd ph hs.1 hs.2
    exact .inr ⟨ph, a, b⟩

theorem deserializePass_countersOk {s t : State} (hs : CountersOk s) (h : deserializePass s = .next t) :
    t.phase = .idle ∨ (t.phase = .deserializing ∧ CountersOk t) := by
  obtain ⟨_, _, _, ph, cd⟩ := deserializePass_spec h
  rcases ph with ph | ph
  · exact .inl ph
  · obtain ⟨a, b, _⟩ := cd ph hs.1 hs.2
    exact .inr ⟨ph, a, b⟩

/-- A loop that ends has answered once, and OK carries a number of leaves from 1 to 256. -/
theorem codecLoop_answers {pass : State → Result} {statuses : List Status} {p : Phase} (hpi : p ≠ .idle)
    (hp : ∀ s t, pass s = .next t → PassAnswers statuses s t)
    (hc : ∀ s t, CountersOk s → pass s = .next t → t.phase = .idle ∨ (t.phase = p ∧ CountersOk t))
    (n : Nat) {s t : State} (hph : s.phase = p) (hs : CountersOk s) (hi : t.phase = .idle)
    (h : codecLoop pass n s = .next t) :
    ∃ st d, t.host = s.host.answered st d ∧ st ∈ statuses ∧ (st = .ok → 1 ≤ d.toNat ∧ d.toNat ≤ 256) := by
  induction n generalizing s with
  | zero =>
    cases h
    rw [hph] at hi
    exact absurd hi hpi
  | succ n ih =>
    rw [codecLoop_succ pass n (by rw [hph]; exact hpi)] at h
    cases hq : pass s with
    | next u =>
      rw [hq] at h
      simp only [afterPass] at h
      rcases hp s u hq with ⟨a, b⟩ | ⟨a, st, d, b, c, e⟩
      · rcases hc s u hs hq with k | ⟨k1, k2⟩
        · exact absurd k a
        · obtain ⟨st, d, x, y, z⟩ := ih k1 k2 h
          exact ⟨st, d, by rw [x, b], y, z⟩
      · rw [codecLoop_idle _ _ a] at h
        cases h
        refine ⟨st, d, b, c, fun k => ?_⟩
        obtain ⟨k1, rfl⟩ := e k
        unfold CountersOk at hs
        rw [k1, List.length_nil] at hs
        simp only [BitVec.toNat_ofNat]
        omega
    | fault f => rw [hq] at h; cases h
    | refused r => rw [hq] at h; cases h

/-- What TSER's loop, run from its start, leaves alone. -/
theorem serializeLoop_frame {root : NodeIdx} {n : Nat} {s t : State}
    (h : codecLoop serializePass codecFuel (startCodec .serializing root n s) = .next t) :
    SerializeFrame s t ∧ (WriterOk s → WriterOk t) ∧ t.phase = .idle := by
  have := codecLoop_keeps (pass := serializePass) (P := fun u => SerializeFrame s u ∧ (WriterOk s → WriterOk u))
    (fun u v hu _ hv => ⟨hu.1.trans (serializePass_spec hv).1, fun k => (serializePass_spec hv).2 (hu.2 k)⟩) codecFuel
    (s := startCodec .serializing root n s) ⟨⟨rfl, rfl, rfl, rfl, rfl, rfl⟩, fun k => k⟩ h
  exact ⟨this.1, this.2, serializeLoop_idle h⟩

/-- What TDES's loop, run from its start, leaves alone. -/
theorem deserializeLoop_frame {c : NodeIdx} {n : Nat} {s t : State}
    (h : codecLoop deserializePass codecFuel (startCodec .deserializing c n s) = .next t) :
    DeserializeFrame s t ∧ (ReaderOk s → ReaderOk t) ∧ (Arena.wf s.node = true → Arena.wf t.node = true)
      ∧ t.phase = .idle := by
  have := codecLoop_keeps (pass := deserializePass)
    (P := fun u => DeserializeFrame s u ∧ (ReaderOk s → ReaderOk u) ∧ (Arena.wf s.node = true → Arena.wf u.node = true))
    (fun u v hu _ hv => ⟨hu.1.trans (deserializePass_spec hv).1, fun k => (deserializePass_spec hv).2 (hu.2.1 k),
      fun k => (deserializePass_spec hv).3 (hu.2.2 k)⟩) codecFuel
    (s := startCodec .deserializing c n s) ⟨⟨rfl, rfl, rfl, rfl, rfl, rfl⟩, fun k => k, fun k => k⟩ h
  exact ⟨this.1, this.2.1, this.2.2, deserializeLoop_idle h⟩

/-! ### What a step runs -/

theorem stepSerializing_eq (s : State) : stepSerializing s = serializePass s := by
  unfold stepSerializing serializePass fetchEntry
  cases memRead s s.tc.t_cur with
  | none => rfl
  | some e =>
    simp only [Option.map]
    unfold decodeEntry
    split <;> rfl

theorem stepDeserializing_eq (s : State) : stepDeserializing s = deserializePass s := by
  unfold stepDeserializing deserializePass
  cases fetchRecord s with
  | raised e t => rfl
  | done r t =>
    cases r with
    | none => rfl
    | some r => cases r <;> rfl

theorem dropMove_of_pending {s : State} {m : HostMove} {rest : List HostMove} (h : s.host.pending = m :: rest) :
    dropMove s = { s with host := { s.host with pending := rest } } := by
  simp [dropMove, h]

/-! ### What TDES reads -/

/-- A reader that can work fetches a record or finds too few bits; it never raises (R90). -/
theorem fetchRecord_live {s : State} (h : ReaderReady s) :
    ∃ r t, fetchRecord s = .done r t ∧ ReaderReady t ∧ ReaderFrame s t
      ∧ (∀ sym, r = some (.leaf sym) → unreadBits s = leafRecord sym ++ unreadBits t)
      ∧ (r = some .internal → unreadBits s = internalRecord ++ unreadBits t) := by
  match hu : unreadBits s with
  | [] =>
    obtain ⟨b, t, _, _, _, hb, _⟩ | ⟨t, hr, hl, hf, _⟩ := readBit_live h
    · rw [hb] at hu
      cases hu
    · exact ⟨none, t, by simp [fetchRecord, hr], hl, hf, by simp, by simp⟩
  | true :: rest =>
    obtain ⟨t, h1, h2, h3, h4, _⟩ := fetchRecord_internal h hu
    exact ⟨_, t, h1, h2, h3, by simp, fun _ => by rw [h4]; rfl⟩
  | false :: rest =>
    by_cases hl : rest.length < 8
    · obtain ⟨b, t, hr, hl', hf, hb, _⟩ | ⟨t, _, _, _, hb, _⟩ := readBit_live h
      · rw [hb, List.cons.injEq] at hu
        obtain ⟨rfl, hu⟩ := hu
        obtain ⟨u, hu1, hu2, hu3, _⟩ := readBitList_short 8 hl' (by rw [hu]; exact hl)
        exact ⟨none, u, by simp [fetchRecord, hr, readBits, hu1], hu2, hf.trans hu3, by simp, by simp⟩
      · rw [hb] at hu
        cases hu
    · have hsplit : unreadBits s = leafRecord (symbolOfBits (rest.take 8)) ++ rest.drop 8 := by
        rw [hu, leafRecord, msbBits_symbolOfBits (by simp; omega)]
        simp
      obtain ⟨t, h1, h2, h3, h4, _⟩ := fetchRecord_leaf h hsplit
      exact ⟨_, t, h1, h2, h3, fun sym k => by cases k; rw [← hu, hsplit, h4], by simp⟩

/-- The statuses have different codes (R85). -/
theorem Status.code_inj {a b : Status} (h : a.code = b.code) : a = b := by
  cases a <;> cases b <;> first | rfl | exact absurd h (by decide)

theorem rspStatus_responseWord (st : Status) (d : BitVec 9) : rspStatus (responseWord st d) = st.code := by
  apply BitVec.eq_of_getLsbD_eq
  intro i hi
  simp only [rspStatus, responseWord, BitVec.getLsbD_extractLsb', BitVec.getLsbD_append]
  simp [hi, show ¬ (12 + i < 9) by omega, show ¬ (12 + i - 9 < 3) by omega, show 12 + i - 9 - 3 = i by omega,
    BitVec.getLsbD]

theorem lastStatus_answered {s t : State} {st : Status} {d : BitVec 9} (h : t.host = s.host.answered st d)
    (st' : Status) : LastStatus t st' ↔ st = st' := by
  unfold LastStatus
  rw [h]
  simp only [HostPort.answered, List.getLast?_append, List.getLast?_singleton, Option.some_or, Option.map_some,
    rspStatus_responseWord, Option.some.injEq]
  exact ⟨Status.code_inj, fun k => by rw [k]⟩

/-- Trees one after another. -/
def serializeAll (ts : List Tree) : List Bool := ts.flatMap Tree.serialize

/-- Their internal nodes. -/
def internalsAll (ts : List Tree) : Nat := (ts.map Tree.internals).sum

/-- If TDES's loop ends with OK, it has read one tree for each node that waits for its right child, and one more, with no
256th internal node among them (R89, R154, R158). -/
theorem deserializeLoop_reads (n : Nat) {s t : State} (hp : s.phase = .deserializing) (h : ReaderReady s)
    (hc : s.tc.t_nint ≤ 255) (hl : codecLoop deserializePass n s = .next t) (hi : t.phase = .idle)
    (ho : LastStatus t .ok) :
    ∃ ts : List Tree, ts.length = s.tc.t_stk.length + 1 ∧ unreadBits s = serializeAll ts ++ unreadBits t
      ∧ s.tc.t_nint + internalsAll ts ≤ 255 := by
  induction n generalizing s with
  | zero =>
    cases hl
    rw [hp] at hi
    cases hi
  | succ n ih =>
    rw [codecLoop_succ _ _ (by rw [hp]; simp)] at hl
    obtain ⟨r, u, hf, hr, hfr, hbl, hbi⟩ := fetchRecord_live h
    have corrupt : ∀ v, afterPass deserializePass n (.next (raiseInTdes .corruptTree v)) = .next t → False := by
      intro v hv
      rw [afterPass, codecLoop_idle _ _ rfl] at hv
      cases hv
      have := (lastStatus_answered (s := v) (host_raise (t := spoilNode v) .corruptTree rfl) .ok).mp ho
      cases this
    match r with
    | none => exact (corrupt u (by simpa [deserializePass, hf] using hl)).elim
    | some (.leaf sym) =>
      have hb := hbl sym rfl
      have hd : deserializePass s = linkRight (countLeaf (buildNode (mkEntry false sym 0#9 0#9) u)) := by
        simp [deserializePass, hf, execRecord, execLeaf]
      rw [hd] at hl
      match hs : s.tc.t_stk with
      | [] =>
        have hst : (countLeaf (buildNode (mkEntry false sym 0#9 0#9) u)).tc.t_stk = [] := by simp [hfr.tc, hs]
        simp only [linkRight, hst, endCodec, afterPass] at hl
        rw [codecLoop_idle _ _ rfl] at hl
        cases hl
        exact ⟨[.leaf sym], rfl, by rw [hb]; simp [serializeAll, Tree.serialize]; rfl,
          by simpa [internalsAll, Tree.internals] using hc⟩
      | p :: below =>
        have hst : (countLeaf (buildNode (mkEntry false sym 0#9 0#9) u)).tc.t_stk = p :: below := by simp [hfr.tc, hs]
        simp only [linkRight, hst, afterPass] at hl
        generalize hz : State.mk _ _ _ _ _ _ _ _ _ = z at hl
        have hz1 : z.phase = .deserializing := by rw [← hz]
        have hz2 : ReaderReady z := by rw [← hz]; exact ⟨hr.1, hr.2, hr.3, hr.4⟩
        have hz3 : z.tc.t_stk = below := by rw [← hz]
        have hz4 : z.tc.t_nint = u.tc.t_nint := by rw [← hz]; rfl
        have hz5 : unreadBits z = unreadBits u := by rw [← hz]; rfl
        obtain ⟨ts, h1, h2, h3⟩ := ih hz1 hz2 (by rw [hz4, hfr.tc]; exact hc) hl
        rw [hz3] at h1
        rw [hz5] at h2
        rw [hz4, hfr.tc] at h3
        refine ⟨.leaf sym :: ts, by simp [h1], ?_, by simpa [internalsAll, Tree.internals] using h3⟩
        rw [hb, h2]
        simp [serializeAll, Tree.serialize]
    | some .internal =>
      have hb := hbi rfl
      have hd : deserializePass s = execInternal u := by simp [deserializePass, hf, execRecord]
      rw [hd] at hl
      unfold execInternal at hl
      split at hl
      · exact (corrupt _ hl).elim
      · rename_i hn
        simp only [Config.maxInternal, hfr.tc] at hn
        simp only [afterPass] at hl
        obtain ⟨ts, h1, h2, h3⟩ := ih
          (s := openNode (nodeIdx u.tc.t_next) (buildNode (mkEntry true 0#8 (nodeIdx (u.tc.t_next + 1)) 0#9) u)) rfl
          ⟨hr.1, hr.2, hr.3, hr.4⟩ (by simp [hfr.tc]; omega) hl
        have h2 : unreadBits u = serializeAll ts ++ unreadBits t := h2
        simp [hfr.tc] at h1 h3
        match ts, h1 with
        | l :: r :: ts, h1 =>
          refine ⟨.node l r :: ts, by simpa using h1, ?_, ?_⟩
          · rw [hb, h2]
            simp [serializeAll, Tree.serialize]
          · simp [internalsAll, Tree.internals] at h3 ⊢
            omega

end Sys2Proof.Machine
end

