-- ==== Sys2Proof/Laws/Walks.lean ====
section
/-! SUPPORT. Walks through NODE (`Arena.visits`), and what the loops of TSER and TDES come to on one, or on records, that
reach a 256th internal node (42_treecodec.md R152, R158, R161). -/

namespace Sys2Proof.Machine

/-! ### Counting records -/

@[simp] theorem Record.bits_leaf (s : Symbol) : Record.bits (.leaf s) = leafRecord s := rfl

@[simp] theorem Record.bits_internal : Record.bits .internal = [true] := rfl

@[simp] theorem internalsIn_nil : internalsIn [] = 0 := rfl

@[simp] theorem internalsIn_leaf (s : Symbol) (rs : List Record) : internalsIn (.leaf s :: rs) = internalsIn rs := rfl

@[simp] theorem internalsIn_internal (rs : List Record) : internalsIn (.internal :: rs) = internalsIn rs + 1 := rfl

@[simp] theorem leavesIn_nil : leavesIn [] = 0 := rfl

@[simp] theorem leavesIn_leaf (s : Symbol) (rs : List Record) : leavesIn (.leaf s :: rs) = leavesIn rs + 1 := rfl

@[simp] theorem leavesIn_internal (rs : List Record) : leavesIn (.internal :: rs) = leavesIn rs := rfl

theorem internalsIn_append (xs ys : List Record) : internalsIn (xs ++ ys) = internalsIn xs + internalsIn ys := by
  induction xs with
  | nil => simp
  | cons r xs ih => cases r <;> simp [ih]; omega

theorem internalsIn_add_leavesIn (rs : List Record) : internalsIn rs + leavesIn rs = rs.length := by
  induction rs with
  | nil => rfl
  | cons r rs ih => cases r <;> simp <;> omega

/-- Records with more than n internal ones, cut at internal record number n, counted from 0. -/
theorem split_at_internal (rs : List Record) (n : Nat) (h : n < internalsIn rs) :
    ∃ before after, rs = before ++ .internal :: after ∧ internalsIn before = n := by
  induction rs generalizing n with
  | nil => simp at h
  | cons r rs ih =>
    cases r with
    | leaf s =>
      obtain ⟨a, b, h1, h2⟩ := ih n h
      exact ⟨.leaf s :: a, b, by rw [h1]; rfl, h2⟩
    | internal =>
      cases n with
      | zero => exact ⟨[], rs, rfl, rfl⟩
      | succ n =>
        obtain ⟨a, b, h1, h2⟩ := ih n (by simpa using h)
        exact ⟨.internal :: a, b, by rw [h1]; rfl, by simp [h2]⟩

/-! ### Walks -/

@[simp] theorem Arena.visits_zero (m : Arena) (todo : List NodeIdx) : m.visits 0 todo = some [] := by
  simp [visits]

@[simp] theorem Arena.visits_nil (m : Arena) (n : Nat) : m.visits (n + 1) [] = none := by
  simp [visits]

theorem Arena.visits_unwritten {m : Arena} (n : Nat) {i : NodeIdx} (rest : List NodeIdx) (h : m.get? i.toNat = none) :
    m.visits (n + 1) (i :: rest) = none := by
  simp [visits, h]

theorem Arena.visits_internal {m : Arena} (n : Nat) {i : NodeIdx} (rest : List NodeIdx) {e : NodeWord}
    (h : m.get? i.toNat = some e) (k : entryKind e = true) :
    m.visits (n + 1) (i :: rest) = (m.visits n (entryLeft e :: entryRight e :: rest)).map (.internal :: ·) := by
  simp [visits, h, k]

theorem Arena.visits_leaf {m : Arena} (n : Nat) {i : NodeIdx} (rest : List NodeIdx) {e : NodeWord}
    (h : m.get? i.toNat = some e) (k : entryKind e = false) :
    m.visits (n + 1) (i :: rest) = (m.visits n rest).map (.leaf (entrySym e) :: ·) := by
  simp [visits, h, k]

/-- What a walk over at least one entry meets first. -/
theorem Arena.visits_cases {m : Arena} {n : Nat} {todo : List NodeIdx} {rs : List Record}
    (h : m.visits (n + 1) todo = some rs) :
    ∃ i rest e, todo = i :: rest ∧ m.get? i.toNat = some e
      ∧ ((entryKind e = true ∧ ∃ q, rs = .internal :: q ∧ m.visits n (entryLeft e :: entryRight e :: rest) = some q)
        ∨ (entryKind e = false ∧ ∃ q, rs = .leaf (entrySym e) :: q ∧ m.visits n rest = some q)) := by
  cases todo with
  | nil => simp at h
  | cons i rest =>
    cases he : m.get? i.toNat with
    | none => rw [visits_unwritten n rest he] at h; cases h
    | some e =>
      refine ⟨i, rest, e, rfl, he, ?_⟩
      cases hk : entryKind e with
      | true =>
        rw [visits_internal n rest he hk] at h
        obtain ⟨q, h1, h2⟩ := Option.map_eq_some_iff.mp h
        exact .inl ⟨rfl, q, h2.symm, h1⟩
      | false =>
        rw [visits_leaf n rest he hk] at h
        obtain ⟨q, h1, h2⟩ := Option.map_eq_some_iff.mp h
        exact .inr ⟨rfl, q, h2.symm, h1⟩

theorem Arena.visits_length {m : Arena} {n : Nat} {todo : List NodeIdx} {rs : List Record}
    (h : m.visits n todo = some rs) : rs.length = n := by
  induction n generalizing todo rs with
  | zero => cases h; rfl
  | succ n ih => obtain ⟨i, rest, e, rfl, _, ⟨_, q, rfl, hq⟩ | ⟨_, q, rfl, hq⟩⟩ := visits_cases h <;> simp [ih hq]

/-- A shorter walk from the same place meets the same records. -/
theorem Arena.visits_take {m : Arena} {n : Nat} {todo : List NodeIdx} {rs : List Record} (h : m.visits n todo = some rs)
    (k : Nat) : m.visits (min k n) todo = some (rs.take k) := by
  induction n generalizing todo rs k with
  | zero => cases h; simp
  | succ n ih =>
    cases k with
    | zero => simp
    | succ k =>
      rw [Nat.succ_min_succ]
      obtain ⟨i, rest, e, rfl, he, ⟨hk, q, rfl, hq⟩ | ⟨hk, q, rfl, hq⟩⟩ := visits_cases h
      · rw [visits_internal _ rest he hk, ih hq k]; rfl
      · rw [visits_leaf _ rest he hk, ih hq k]; rfl

/-- A walk has met at most one leaf for each pending entry and each internal node (R152). -/
theorem Arena.visits_counts {m : Arena} {n : Nat} {todo : List NodeIdx} {rs : List Record}
    (h : m.visits n todo = some rs) : leavesIn rs ≤ internalsIn rs + todo.length := by
  induction n generalizing todo rs with
  | zero => cases h; simp
  | succ n ih =>
    obtain ⟨i, rest, e, rfl, _, ⟨_, q, rfl, hq⟩ | ⟨_, q, rfl, hq⟩⟩ := visits_cases h <;>
      (have := ih hq; simp at this ⊢; omega)

/-- While the walk goes on, it has met fewer. -/
theorem Arena.visits_counts_lt {m : Arena} {rs : List Record} {todo : List NodeIdx} {r : Record}
    (h : m.visits (rs.length + 1) todo = some (rs ++ [r])) : leavesIn rs < internalsIn rs + todo.length := by
  induction rs generalizing todo with
  | nil => obtain ⟨i, rest, e, rfl, _⟩ := visits_cases h; simp
  | cons x rs ih =>
    rw [List.length_cons] at h
    obtain ⟨i, rest, e, rfl, he, ⟨hk, q, hx, hq⟩ | ⟨hk, q, hx, hq⟩⟩ := visits_cases h <;> cases hx <;>
      (have := ih hq; simp at this ⊢; omega)

/-- A walk that meets more than 255 internal nodes meets the 256th after records of 255. -/
theorem Arena.visits_to_256th {m : Arena} {n : Nat} {todo : List NodeIdx} {rs : List Record}
    (h : m.visits n todo = some rs) (hi : 255 < internalsIn rs) :
    ∃ before after, rs = before ++ .internal :: after ∧ internalsIn before = 255
      ∧ m.visits (before.length + 1) todo = some (before ++ [.internal]) := by
  have hl := visits_length h
  obtain ⟨a, b, rfl, hb⟩ := split_at_internal rs 255 hi
  have hv := visits_take h (a.length + 1)
  rw [show min (a.length + 1) n = a.length + 1 by rw [← hl]; simp] at hv
  exact ⟨a, b, rfl, hb, by rw [hv]; simp [List.take_append]⟩

/-- The walk through a tree spells its serialization (R89, R151), and goes on with what was pending. -/
theorem Arena.visits_tree {m : Arena} (T : Tree) {i : NodeIdx} (h : m.holdsTree i T = true) :
    ∃ rs, rs.flatMap Record.bits = T.serialize ∧ internalsIn rs = T.internals ∧ rs.length = T.size
      ∧ ∀ k rest, m.visits (T.size + k) (i :: rest) = (m.visits k rest).map (rs ++ ·) := by
  induction T generalizing i with
  | leaf s =>
    unfold holdsTree at h
    cases he : m.get? i.toNat with
    | none => rw [he] at h; cases h
    | some e =>
      rw [he] at h
      simp only [Bool.and_eq_true, Bool.not_eq_true', beq_iff_eq] at h
      refine ⟨[.leaf s], by simp [Tree.serialize], rfl, rfl, fun k rest => ?_⟩
      rw [show (Tree.leaf s).size = 1 from rfl, Nat.add_comm, visits_leaf k rest he h.1, h.2]
      rfl
  | node l r ihl ihr =>
    unfold holdsTree at h
    cases he : m.get? i.toNat with
    | none => rw [he] at h; cases h
    | some e =>
      rw [he] at h
      simp only [Bool.and_eq_true] at h
      obtain ⟨a, a1, a2, a3, a4⟩ := ihl h.1.2
      obtain ⟨b, b1, b2, b3, b4⟩ := ihr h.2
      refine ⟨.internal :: (a ++ b), ?_, ?_, ?_, fun k rest => ?_⟩
      · simp [Tree.serialize, internalRecord, a1, b1]
      · simp [internalsIn_append, a2, b2, Tree.internals]
      · rw [Tree.size_node]; simp [a3, b3]
      · rw [Tree.size_node, show l.size + r.size + 1 + k = (l.size + (r.size + k)) + 1 by omega,
          visits_internal _ rest he h.1.1, a4, b4]
        cases m.visits k rest <;> simp

/-- Where every entry that can be reached holds a value, a walk ends only because the pending entries hold trees, and it
has then visited all their nodes (R150). -/
theorem Arena.trees_of_visits_none {m : Arena} (reachable : NodeIdx → Prop)
    (hc : ∀ i, reachable i → ∃ e, m.get? i.toNat = some e
      ∧ (entryKind e = true → reachable (entryLeft e) ∧ reachable (entryRight e)))
    (n : Nat) {todo : List NodeIdx} (hp : ∀ i ∈ todo, reachable i) (h : m.visits n todo = none) :
    ∃ Ts : List Tree, List.Forall₂ (fun i T => m.holdsTree i T = true) todo Ts ∧ (Ts.map Tree.size).sum + 1 ≤ n := by
  induction n generalizing todo with
  | zero => simp at h
  | succ n ih =>
    cases todo with
    | nil => exact ⟨[], .nil, by simp⟩
    | cons i rest =>
      obtain ⟨e, he, hx⟩ := hc i (hp i (by simp))
      have hrest : ∀ j ∈ rest, reachable j := fun j hj => hp j (by simp [hj])
      cases hk : entryKind e with
      | true =>
        rw [visits_internal n rest he hk, Option.map_eq_none_iff] at h
        obtain ⟨h1, h2⟩ := hx hk
        obtain ⟨Ts, hf, hs⟩ := ih (by simpa using ⟨h1, h2, hrest⟩) h
        obtain ⟨L, Ts1, hl, hf1, rfl⟩ := List.forall₂_cons_left_iff.mp hf
        obtain ⟨R, Ts2, hr, hf2, rfl⟩ := List.forall₂_cons_left_iff.mp hf1
        refine ⟨.node L R :: Ts2, .cons ?_ hf2, ?_⟩
        · simp [holdsTree, he, hk, hl, hr]
        · simp [Tree.size_node] at hs ⊢; omega
      | false =>
        rw [visits_leaf n rest he hk, Option.map_eq_none_iff] at h
        obtain ⟨Ts, hf, hs⟩ := ih hrest h
        refine ⟨.leaf (entrySym e) :: Ts, .cons ?_ hf, ?_⟩
        · simp [holdsTree, he, hk]
        · simp [Tree.size, Tree.leaves] at hs ⊢; omega

/-! ### The 256th internal node -/

/-- TSER's loop on a walk whose next entry is the 256th internal node: BadTree, with the records before it written. -/
theorem serializeLoop_badTree (rs : List Record) {s : State} (hp : s.phase = .serializing) (h : WriterReady s)
    (hv : s.node.visits (rs.length + 1) (s.tc.t_cur :: s.tc.t_stk) = some (rs ++ [.internal]))
    (hn : s.tc.t_nint + internalsIn rs = 255) (n : Nat) :
    ∃ t, codecLoop serializePass (n + rs.length + 1) s = .next t ∧ t.host = s.host.answered .badTree 0#9
      ∧ acceptedBits t = acceptedBits s ++ rs.flatMap Record.bits ∧ WriterReady t ∧ t.phase = .idle
      ∧ SerializeFrame s t := by
  induction rs generalizing s with
  | nil =>
    obtain ⟨i, rest, e, hx, he, ⟨hk, q, _, _⟩ | ⟨hk, q, hq, _⟩⟩ := Arena.visits_cases hv
    · cases hx
      have hpass : serializePass s = .next (raise .badTree s) := by
        have hn' : s.tc.t_nint = Config.maxInternal := by simpa [Config.maxInternal] using hn
        simp only [serializePass, memRead, he, hk, if_true, execNodeInternal, hn']
      rw [codecLoop_succ _ _ (by rw [hp]; simp), hpass]
      exact ⟨raise .badTree s, by rw [afterPass, codecLoop_idle _ _ rfl], rfl, by simp; rfl, ⟨h.1, h.2, h.3, h.4⟩, rfl,
        ⟨rfl, rfl, rfl, rfl, rfl, rfl⟩⟩
    · cases hq
  | cons r rs ih =>
    rw [List.length_cons] at hv
    rw [List.length_cons, codecLoop_succ _ _ (by rw [hp]; simp)]
    obtain ⟨i, rest, e, hx, he, ⟨hk, q, hrq, hq⟩ | ⟨hk, q, hrq, hq⟩⟩ := Arena.visits_cases hv <;> cases hx <;> cases hrq
    · obtain ⟨t, txs, h1, h2, h3, h4, h5⟩ := writeBit_live true h
      have hpass : serializePass s = .next (enterNode (entryLeft e) (entryRight e) t) := by
        have hn' : ¬ s.tc.t_nint = Config.maxInternal := by simp [Config.maxInternal] at hn ⊢; omega
        simp only [serializePass, memRead, he, hk, if_true, execNodeInternal, hn', if_false, h1]
      rw [hpass, afterPass]
      obtain ⟨u, k1, k2, k3, k4, k5, k6⟩ := ih (s := enterNode (entryLeft e) (entryRight e) t) rfl
        ⟨h2.1, h2.2, h2.3, h2.4⟩ (by simpa [h3.node, h3.tc] using hq) (by simp [h3.tc] at hn ⊢; omega)
      refine ⟨u, k1, by rw [k2, enterNode_host, h3.host], ?_, k4, k5,
        h3.serialize.trans ⟨k6.1, k6.2, k6.3, k6.4, k6.5, k6.6⟩⟩
      rw [k3]
      show acceptedBits t ++ _ = _
      rw [h4]
      simp
    · obtain ⟨t, txs, h1, h2, h3, h4, h5⟩ := writeBitList_live (leafRecord (entrySym e)) h
      have hne : s.tc.t_stk ≠ [] := by
        intro hs
        rw [hs] at hq
        simp at hq
      obtain ⟨top, below, hs⟩ := List.exists_cons_of_ne_nil hne
      let z : State := { countLeaf t with
        phase := .serializing, tc := { (countLeaf t).tc with t_cur := top, t_stk := below } }
      have hpass : serializePass s = .next z := by
        simp only [serializePass, memRead, he, hk, Bool.false_eq_true, if_false, execNodeLeaf_eq, h1]
        simp [nextSubtree, h3.tc, hs, z]
      rw [hpass, afterPass]
      obtain ⟨u, k1, k2, k3, k4, k5, k6⟩ := ih (s := z) rfl ⟨h2.1, h2.2, h2.3, h2.4⟩
        (by show t.node.visits _ (top :: below) = _; rw [h3.node, ← hs]; exact hq) (by simp [z, h3.tc] at hn ⊢; omega)
      refine ⟨u, k1, by rw [k2]; show t.host.answered _ _ = _; rw [h3.host], ?_, k4, k5,
        h3.serialize.trans ⟨k6.1, k6.2, k6.3, k6.4, k6.5, k6.6⟩⟩
      rw [k3]
      show acceptedBits t ++ _ = _
      rw [h4]
      simp

/-- The record that stands next in SRC is fetched, whichever it is (R90). -/
theorem fetchRecord_bits {s : State} (h : ReaderReady s) (r : Record) {rest : List Bool}
    (hu : unreadBits s = Record.bits r ++ rest) :
    ∃ t, fetchRecord s = .done (some r) t ∧ ReaderReady t ∧ ReaderFrame s t ∧ unreadBits t = rest
      ∧ readPosition t = readPosition s + (Record.bits r).length := by
  cases r with
  | leaf sym =>
    obtain ⟨t, h1, h2, h3, h4, h5⟩ := fetchRecord_leaf h hu
    exact ⟨t, h1, h2, h3, h4, by simpa using h5⟩
  | internal => exact fetchRecord_internal h hu

/-- TDES's loop on records that leave no tree complete and reach a 256th internal node: CorruptTree, with the flag of that
node consumed and NODE[0..510] without a value. -/
theorem deserializeLoop_corruptTree (rs : List Record) {s : State} {rest : List Bool} (hp : s.phase = .deserializing)
    (h : ReaderReady s) (hu : unreadBits s = rs.flatMap Record.bits ++ true :: rest)
    (hn : s.tc.t_nint + internalsIn rs = 255)
    (hl : ∀ k, leavesIn (rs.take k) ≤ s.tc.t_stk.length + internalsIn (rs.take k)) (n : Nat) :
    ∃ t, codecLoop deserializePass (n + rs.length + 1) s = .next t ∧ t.host = s.host.answered .corruptTree 0#9
      ∧ unreadBits t = rest ∧ readPosition t = readPosition s + (rs.flatMap Record.bits).length + 1 ∧ ReaderReady t
      ∧ t.phase = .idle ∧ DeserializeFrame s t ∧ ∀ i, i ≤ 510 → Arena.get? t.node i = none := by
  induction rs generalizing s with
  | nil =>
    obtain ⟨t, h1, h2, h3, h4, h5⟩ := fetchRecord_internal h hu
    have hpass : deserializePass s = .next (raiseInTdes .corruptTree t) := by
      have hn' : t.tc.t_nint = Config.maxInternal := by rw [h3.tc]; simpa [Config.maxInternal] using hn
      simp only [deserializePass, h1, execRecord, execInternal, hn', if_true]
    rw [codecLoop_succ _ _ (by rw [hp]; simp), hpass]
    refine ⟨raiseInTdes .corruptTree t, by rw [afterPass, codecLoop_idle _ _ rfl], host_raise (t := spoilNode t) _ h3.host,
      h4, h5, ⟨h2.1, h2.2, h2.3, h2.4⟩, rfl, h3.deserialize.trans ⟨rfl, rfl, rfl, rfl, rfl, rfl⟩, fun i hi => ?_⟩
    show Arena.get? (Arena.spoil _) i = none
    rw [Arena.get?_spoil, if_pos hi]
  | cons r rs ih =>
    rw [List.length_cons, codecLoop_succ _ _ (by rw [hp]; simp)]
    obtain ⟨t, h1, h2, h3, h4, h5⟩ := fetchRecord_bits h r (by rw [hu, List.flatMap_cons, List.append_assoc])
    cases r with
    | leaf sym =>
      have hd : deserializePass s = linkRight (countLeaf (buildNode (mkEntry false sym 0#9 0#9) t)) := by
        simp [deserializePass, h1, execRecord, execLeaf]
      have h0 := hl 1
      simp at h0
      match hs : s.tc.t_stk with
      | [] => rw [hs] at h0; simp at h0
      | p :: below =>
        have hst : (countLeaf (buildNode (mkEntry false sym 0#9 0#9) t)).tc.t_stk = p :: below := by simp [h3.tc, hs]
        rw [hd]
        simp only [linkRight, hst, afterPass]
        generalize hz : State.mk _ _ _ _ _ _ _ _ _ = z
        have z0 : z.host = t.host := by rw [← hz]; rfl
        have z1 : z.phase = .deserializing := by rw [← hz]
        have z2 : ReaderReady z := by rw [← hz]; exact ⟨h2.1, h2.2, h2.3, h2.4⟩
        have z3 : z.tc.t_stk = below := by rw [← hz]
        have z4 : z.tc.t_nint = t.tc.t_nint := by rw [← hz]; rfl
        have z5 : unreadBits z = unreadBits t := by rw [← hz]; rfl
        have z6 : readPosition z = readPosition t := by rw [← hz]; rfl
        have z7 : DeserializeFrame t z := by rw [← hz]; exact ⟨rfl, rfl, rfl, rfl, rfl, rfl⟩
        obtain ⟨u, k1, k2, k3, k4, k5, k6, k7, k8⟩ := ih z1 z2 (by rw [z5, h4]) (by rw [z4, h3.tc]; simpa using hn)
          (fun k => by have := hl (k + 1); simp [hs, z3] at this ⊢; omega)
        refine ⟨u, k1, by rw [k2, z0, h3.host], k3, ?_, k5, k6, h3.deserialize.trans (z7.trans k7), k8⟩
        rw [k4, z6, h5]
        simp
        omega
    | internal =>
      let z := openNode (nodeIdx t.tc.t_next) (buildNode (mkEntry true 0#8 (nodeIdx (t.tc.t_next + 1)) 0#9) t)
      have hd : deserializePass s = .next z := by
        have hn' : ¬ t.tc.t_nint = Config.maxInternal := by rw [h3.tc]; simp [Config.maxInternal] at hn ⊢; omega
        simp [deserializePass, h1, execRecord, execInternal, hn', z]
      rw [hd, afterPass]
      obtain ⟨u, k1, k2, k3, k4, k5, k6, k7, k8⟩ := ih (s := z) rfl ⟨h2.1, h2.2, h2.3, h2.4⟩ h4
        (by simp [z, h3.tc] at hn ⊢; omega) (fun k => by have := hl (k + 1); simp [z, h3.tc] at this ⊢; omega)
      refine ⟨u, k1, by rw [k2]; show t.host.answered _ _ = _; rw [h3.host], k3, ?_, k5, k6,
        h3.deserialize.trans ⟨k7.1, k7.2, k7.3, k7.4, k7.5, k7.6⟩, k8⟩
      rw [k4]
      show readPosition t + _ + _ = _
      rw [h5]
      simp
      omega

end Sys2Proof.Machine
end

