-- ==== Sys2Proof/Laws/Failures.lean ====
section
/-! SUPPORT. Transactions that fail while bits are written or read, and what TSER and TDES come to then (R112, R131, R153,
R154, R161, R175). -/

namespace Sys2Proof.Machine

/-! ### The codec's own state is nothing to the writer and the reader -/

/-- A change of TC, of the loop the state is in, and of NODE. -/
def inCodec (tc : Tc) (p : Phase) (m : Arena) (s : State) : State := { s with tc := tc, phase := p, node := m }

/-- A change of the state an internal operation leaves. -/
def Res.mapState {α : Type} (f : State → State) : Res α → Res α
  | .done a s => .done a (f s)
  | .raised e s => .raised e (f s)

theorem Res.mapState_bind {α β : Type} (f : State → State) (r : Res α) (g : α → State → Res β)
    (h : ∀ a s, g a (f s) = (g a s).mapState f) : (r.mapState f).bind g = (r.bind g).mapState f := by
  cases r with
  | done a s => exact h a s
  | raised e s => rfl

section
variable (tc : Tc) (p : Phase) (m : Arena)

theorem drain_inCodec (s : State) : drain (inCodec tc p m s) = (drain s).mapState (inCodec tc p m) := by
  unfold drain
  by_cases h : s.bw.w_buf = []
  · rw [if_pos (show (inCodec tc p m s).bw.w_buf = [] from h), if_pos h]
    rfl
  · rw [if_neg (show ¬ (inCodec tc p m s).bw.w_buf = [] from h), if_neg h]
    unfold sinkWrite
    rw [show nextSinkAnswer (inCodec tc p m s) = nextSinkAnswer s from rfl]
    cases nextSinkAnswer s <;> rfl

theorem writeBit_inCodec (b : Bool) (s : State) :
    writeBit b (inCodec tc p m s) = (writeBit b s).mapState (inCodec tc p m) := by
  have h1 := writeBit_cases b s
  have h2 := writeBit_cases b (inCodec tc p m s)
  have hd := drain_inCodec tc p m (pushByte (accWith b s) s)
  rcases h1 with ⟨a, k⟩ | ⟨a, c, k⟩ | ⟨a, c, k⟩ <;> rcases h2 with ⟨a', k'⟩ | ⟨a', c', k'⟩ | ⟨a', c', k'⟩ <;>
    first
    | exact absurd a a'
    | exact absurd a' a
    | exact absurd c c'
    | exact absurd c' c
    | (rw [k, k']; first | exact hd | rfl)

theorem writeBitList_inCodec (bs : List Bool) (s : State) :
    writeBitList bs (inCodec tc p m s) = (writeBitList bs s).mapState (inCodec tc p m) := by
  induction bs generalizing s with
  | nil => rfl
  | cons b bs ih =>
    rw [writeBitList_cons, writeBitList_cons, writeBit_inCodec, Res.mapState_bind _ _ _ fun _ t => ih t]

theorem advanceCursor_inCodec (s : State) : advanceCursor (inCodec tc p m s) = inCodec tc p m (advanceCursor s) := by
  unfold advanceCursor
  by_cases h : s.br.r_bit = 7
  · rw [if_pos (show (inCodec tc p m s).br.r_bit = 7 from h), if_pos h]
    rfl
  · rw [if_neg (show ¬ (inCodec tc p m s).br.r_bit = 7 from h), if_neg h]
    rfl

theorem readBit_inCodec (s : State) : readBit (inCodec tc p m s) = (readBit s).mapState (inCodec tc p m) := by
  unfold readBit
  rw [show (inCodec tc p m s).br = s.br from rfl]
  cases s.br.r_buf[s.br.r_pos]? with
  | some b => simp only [advanceCursor_inCodec]; rfl
  | none =>
    simp only
    by_cases h : s.br.r_eos = true
    · rw [if_pos h, if_pos h]
      rfl
    · rw [if_neg h, if_neg h]
      unfold srcRead
      rw [show nextSrcAnswer (inCodec tc p m s) = nextSrcAnswer s from rfl,
        show srcLeft (inCodec tc p m s) = srcLeft s from rfl]
      cases nextSrcAnswer s with
      | fail a => rfl
      | data k =>
        cases srcLeft s with
        | nil => rfl
        | cons x xs =>
          simp only [Res.mapState]
          rw [← advanceCursor_inCodec]
          rfl

theorem readBitList_inCodec (n : Nat) (s : State) :
    readBitList n (inCodec tc p m s) = (readBitList n s).mapState (inCodec tc p m) := by
  induction n generalizing s with
  | zero => rfl
  | succ n ih =>
    simp only [readBitList]
    rw [readBit_inCodec]
    refine Res.mapState_bind _ _ _ fun a t => ?_
    cases a with
    | none => rfl
    | some b =>
      simp only
      rw [ih]
      exact Res.mapState_bind _ _ _ fun _ _ => rfl

end

/-! ### A drain that fails -/

theorem writeBitList_append (as bs : List Bool) (s : State) :
    writeBitList (as ++ bs) s = (writeBitList as s).bind fun _ t => writeBitList bs t := by
  induction as generalizing s with
  | nil => rfl
  | cons a as ih =>
    simp only [List.cons_append, writeBitList_cons]
    cases writeBit a s with
    | done x t => exact ih t
    | raised e t => rfl

theorem writeBitList_singleton (b : Bool) (s : State) : writeBitList [b] s = writeBit b s := by
  rw [writeBitList_cons]
  cases writeBit b s <;> rfl

/-- The bytes the writer has to hand over once it has been given `bs`: those buffered and those the bits make. -/
def bytesWith (s : State) (bs : List Bool) : List Byte :=
  s.bw.w_buf ++ pack (topBits s.bw.w_acc s.bw.w_cnt.val ++ bs)

theorem w_cnt_succ {s : State} (hk : s.bw.w_cnt ≠ 7) : (s.bw.w_cnt + 1 : Fin 8).val = s.bw.w_cnt.val + 1 := by
  have : s.bw.w_cnt.val ≠ 7 := fun e => hk (Fin.ext e)
  rw [Fin.val_add_one_of_lt' (by omega)]

theorem bytesWith_placeBit (b : Bool) (bs : List Bool) {s : State} (hk : s.bw.w_cnt ≠ 7) :
    bytesWith (placeBit b s) bs = bytesWith s (b :: bs) := by
  simp [bytesWith, w_cnt_succ hk, accWith, topBits_setStreamBit]

theorem bytesWith_cons (b : Bool) (bs : List Bool) {s : State} (hk : s.bw.w_cnt = 7) :
    bytesWith s (b :: bs) = s.bw.w_buf ++ accWith b s :: pack bs := by
  have htop : topBits s.bw.w_acc s.bw.w_cnt.val ++ [b] = msbBits (accWith b s) := by
    rw [accWith, ← topBits_setStreamBit, hk, ← topBits_eight]
    rfl
  have h := pack_unpack_append [accWith b s] bs
  simp only [unpack_cons, unpack_nil, List.append_nil, ← htop] at h
  rw [bytesWith, List.append_cons, h]
  rfl

/-- Bits that fill the buffer k + 1 times, when the sink answers ok k times and then fail: IOError at the bit that fills it
the last time; SINK has the k full buffers and a prefix of the next (R111, R112, R114). -/
theorem writeBitList_fails (bs : List Bool) {k kept : Nat} {rest : List SinkAnswer} {s : State}
    (hb : s.bw.w_buf.length < s.chunkBytes)
    (ha : s.sink.answers = List.replicate k .ok ++ .fail kept :: rest)
    (hn : (k + 1) * (8 * s.chunkBytes) ≤ 8 * s.bw.w_buf.length + s.bw.w_cnt.val + bs.length) :
    ∃ u, writeBitList bs s = .raised .ioError u ∧ u.bw.w_fail = true
      ∧ u.sink.bytes = s.sink.bytes ++ (bytesWith s bs).take (k * s.chunkBytes)
        ++ (((bytesWith s bs).drop (k * s.chunkBytes)).take s.chunkBytes).take kept
      ∧ u.sink.tx.length = s.sink.tx.length + k + 1 := by
  induction bs generalizing s k with
  | nil =>
    have := Nat.le_mul_of_pos_left (8 * s.chunkBytes) (Nat.succ_pos k)
    simp only [List.length_nil, Nat.succ_eq_add_one] at hn this
    omega
  | cons b bs ih =>
    rw [List.length_cons] at hn
    rw [writeBitList_cons]
    obtain ⟨hk, hw⟩ | ⟨hk, hne, hw⟩ | ⟨hk, hfull, hw⟩ := writeBit_cases b s
    · rw [hw, ← bytesWith_placeBit b bs hk]
      exact ih (s := placeBit b s) hb ha (by simp only [placeBit_bw, placeBit_chunkBytes, w_cnt_succ hk]; omega)
    · rw [hw, show bytesWith s (b :: bs) = bytesWith (pushByte (accWith b s) s) bs by
        rw [bytesWith_cons b bs hk]; simp [bytesWith]]
      rw [hk] at hn
      exact ih (s := pushByte (accWith b s) s) (by simp; omega) ha (by simp at hn ⊢; omega)
    · have he : bytesWith s (b :: bs) = (pushByte (accWith b s) s).bw.w_buf ++ pack bs := by
        rw [bytesWith_cons b bs hk]; simp
      have hl : (pushByte (accWith b s) s).bw.w_buf.length = s.chunkBytes := by simpa using hfull
      rw [hw, he]
      obtain ⟨hd, _⟩ | ⟨_, hok, hd⟩ | ⟨_, j, hf, hd⟩ := drain_cases (pushByte (accWith b s) s)
      · simp at hd
      · rw [hd]
        obtain _ | k := k
        · simp [nextSinkAnswer, ha] at hok
        · rw [hk] at hn
          obtain ⟨u, h1, h2, h3, h4⟩ := ih
            (s := emptyBuffer (sinkTransaction (pushByte (accWith b s) s).bw.w_buf (pushByte (accWith b s) s).bw.w_buf
              (pushByte (accWith b s) s)))
            (k := k) (by simp; omega) (by simp [ha, List.replicate_succ]) (by
              rw [Nat.succ_mul] at hn; simp at hn ⊢; omega)
          refine ⟨u, h1, h2, ?_, ?_⟩
          · rw [h3, Nat.succ_mul, Nat.add_comm (k * s.chunkBytes), ← List.drop_drop]
            simp only [bytesWith, emptyBuffer_bw, emptyBuffer_sink, sinkTransaction_bw, pushByte_w_acc, pushByte_w_cnt,
              emptyBuffer_chunkBytes, sinkTransaction_chunkBytes, pushByte_chunkBytes, sinkTransaction_sink, pushByte_sink]
            rw [← hl, List.take_length_add_append, List.drop_left]
            simp
          · rw [h4]
            simp
            omega
      · rw [hd]
        obtain _ | k := k
        · have : kept = j := by simpa [nextSinkAnswer, ha] using hf
          subst this
          refine ⟨_, rfl, rfl, ?_, by simp⟩
          simp only [Nat.zero_mul, List.take_zero, List.append_nil, List.drop_zero]
          rw [← hl, List.take_left]
          rfl
        · simp [nextSinkAnswer, ha, List.replicate_succ] at hf

/-- TSER's loop on a walk whose records the writer cannot take whole: it ends with what the writer raised (R153, R175). -/
theorem serializeLoop_raises (n : Nat) {rs : List Record} {e : Exc} {s u : State} (hp : s.phase = .serializing)
    (hv : s.node.visits n (s.tc.t_cur :: s.tc.t_stk) = some rs) (hn : s.tc.t_nint + internalsIn rs ≤ 255)
    (hw : writeBitList (rs.flatMap Record.bits) s = .raised e u) (m : Nat) :
    ∃ t, codecLoop serializePass (m + n) s = .next t ∧ t.bw = u.bw ∧ t.sink = u.sink
      ∧ t.host = s.host.answered e.status 0#9 ∧ t.phase = .idle ∧ SerializeFrame s t := by
  induction n generalizing s rs u with
  | zero => cases hv; cases hw
  | succ n ih =>
    rw [← Nat.add_assoc, codecLoop_succ _ _ (by rw [hp]; simp)]
    have stop : ∀ w, WriterFrame s w → serializePass s = .next (raise e w) →
        ∃ t, afterPass serializePass (m + n) (serializePass s) = .next t ∧ t.bw = w.bw ∧ t.sink = w.sink
          ∧ t.host = s.host.answered e.status 0#9 ∧ t.phase = .idle ∧ SerializeFrame s t := by
      intro w hfr hpass
      rw [hpass, afterPass, codecLoop_idle _ _ rfl]
      exact ⟨_, rfl, rfl, rfl, host_raise e hfr.host, rfl, hfr.serialize.trans ⟨rfl, rfl, rfl, rfl, rfl, rfl⟩⟩
    obtain ⟨i, rest, x, hx, he, ⟨hk, q, rfl, hq⟩ | ⟨hk, q, rfl, hq⟩⟩ := Arena.visits_cases hv <;> cases hx
    · rw [List.flatMap_cons, Record.bits_internal, writeBitList_append, writeBitList_singleton] at hw
      have hn' : ¬ s.tc.t_nint = Config.maxInternal := by simp [Config.maxInternal] at hn ⊢; omega
      cases h1 : writeBit true s with
      | raised y t =>
        rw [h1] at hw
        cases hw
        exact stop u (Res.leaves_raised (writeBit_frame true s) h1)
          (by simp only [serializePass, memRead, he, hk, if_true, execNodeInternal, hn', if_false, h1])
      | done y t =>
        rw [h1] at hw
        have hfr : WriterFrame s t := Res.leaves_done (writeBit_frame true s) h1
        let z := enterNode (entryLeft x) (entryRight x) t
        have hpass : serializePass s = .next z := by
          simp only [serializePass, memRead, he, hk, if_true, execNodeInternal, hn', if_false, h1, z]
        have hc := writeBitList_inCodec z.tc z.phase z.node (q.flatMap Record.bits) t
        rw [show writeBitList (q.flatMap Record.bits) t = .raised e u from hw] at hc
        rw [hpass, afterPass]
        obtain ⟨v, k1, k2, k3, k4, k5, k6⟩ := ih (s := z) rfl (by simpa [z, hfr.node, hfr.tc] using hq)
          (by simp [z, hfr.tc] at hn ⊢; omega) hc
        exact ⟨v, k1, k2, k3, by rw [k4]; show t.host.answered _ _ = _; rw [hfr.host], k5,
          hfr.serialize.trans ⟨k6.1, k6.2, k6.3, k6.4, k6.5, k6.6⟩⟩
    · rw [List.flatMap_cons, Record.bits_leaf, writeBitList_append] at hw
      cases h1 : writeBitList (leafRecord (entrySym x)) s with
      | raised y t =>
        rw [h1] at hw
        cases hw
        exact stop u (Res.leaves_raised (writeBitList_frame _ s) h1)
          (by simp only [serializePass, memRead, he, hk, Bool.false_eq_true, if_false, execNodeLeaf_eq, h1])
      | done y t =>
        rw [h1] at hw
        have hfr : WriterFrame s t := Res.leaves_done (writeBitList_frame _ s) h1
        match hs : s.tc.t_stk with
        | [] =>
          rw [hs] at hq
          cases n with
          | zero => cases hq; cases hw
          | succ n => simp at hq
        | top :: below =>
          let z : State := { countLeaf t with
            phase := .serializing, tc := { (countLeaf t).tc with t_cur := top, t_stk := below } }
          have hpass : serializePass s = .next z := by
            simp only [serializePass, memRead, he, hk, Bool.false_eq_true, if_false, execNodeLeaf_eq, h1]
            simp [nextSubtree, hfr.tc, hs, z]
          have hc := writeBitList_inCodec z.tc z.phase z.node (q.flatMap Record.bits) t
          rw [show writeBitList (q.flatMap Record.bits) t = .raised e u from hw] at hc
          rw [hpass, afterPass]
          obtain ⟨v, k1, k2, k3, k4, k5, k6⟩ := ih (s := z) rfl
            (by show t.node.visits _ (top :: below) = _; rw [hfr.node, ← hs]; exact hq)
            (by simp [z, hfr.tc] at hn ⊢; omega) hc
          exact ⟨v, k1, k2, k3, by rw [k4]; show t.host.answered _ _ = _; rw [hfr.host], k5,
            hfr.serialize.trans ⟨k6.1, k6.2, k6.3, k6.4, k6.5, k6.6⟩⟩

/-! ### A refill that fails -/

/-- `ReadBits` of x :: ys is a `ReadBit` of x and then the rest. -/
theorem readBitList_cons {n : Nat} {s u : State} {x : Bool} {ys : List Bool}
    (h : readBitList (n + 1) s = .done (some (x :: ys)) u) :
    ∃ t, readBit s = .done (some x) t ∧ readBitList n t = .done (some ys) u := by
  unfold readBitList at h
  cases hb : readBit s with
  | raised e t => rw [hb] at h; cases h
  | done r t =>
    rw [hb] at h
    cases r with
    | none => cases h
    | some c =>
      simp only [Res.bind_done] at h
      cases hc : readBitList n t with
      | raised e w => rw [hc] at h; cases h
      | done r w =>
        rw [hc] at h
        cases r with
        | none => cases h
        | some zs => cases h; exact ⟨t, rfl, hc⟩

/-- Bits read at once are bits read in two parts. -/
theorem readBitList_append {xs ys : List Bool} {b : Nat} {s u : State}
    (h : readBitList (xs.length + b) s = .done (some (xs ++ ys)) u) :
    ∃ t, readBitList xs.length s = .done (some xs) t ∧ readBitList b t = .done (some ys) u := by
  induction xs generalizing s with
  | nil => exact ⟨s, rfl, by simpa using h⟩
  | cons x xs ih =>
    rw [List.length_cons, Nat.succ_add] at h
    obtain ⟨t, h1, h2⟩ := readBitList_cons h
    obtain ⟨v, k1, k2⟩ := ih h2
    exact ⟨v, by rw [List.length_cons, readBitList, h1, Res.bind_done]; simp only [k1, Res.bind_done]; rfl, k2⟩

/-- A `ReadBits` that has more bits to read than come before the failing one raises there. -/
theorem readBitList_raises {xs : List Bool} {c : Nat} {s u v : State} {e : Exc}
    (h : readBitList xs.length s = .done (some xs) u) (hb : readBit u = .raised e v) :
    readBitList (xs.length + (c + 1)) s = .raised e v := by
  induction xs generalizing s with
  | nil =>
    cases h
    rw [List.length_nil, Nat.zero_add, readBitList, hb]
    rfl
  | cons x xs ih =>
    obtain ⟨t, h1, h2⟩ := readBitList_cons h
    rw [List.length_cons, show xs.length + 1 + (c + 1) = (xs.length + (c + 1)) + 1 by omega, readBitList, h1, Res.bind_done]
    simp only [ih h2]
    rfl

/-- TDES's loop on a proper beginning of trees, when the refill for the bit after it fails: it ends with what the reader
raised, and NODE[0..510] holds no value (R154, R161, R175). -/
theorem deserializeLoop_raises (n : Nat) {ts : List Tree} {bits missing : List Bool} {s u v : State} {e : Exc}
    (hp : s.phase = .deserializing) (hlen : ts.length = s.tc.t_stk.length + 1) (hb : bits ++ missing = serializeAll ts)
    (hm : missing ≠ []) (hn : s.tc.t_nint + internalsAll ts ≤ 255)
    (hr : readBitList bits.length s = .done (some bits) u) (hf : readBit u = .raised e v)
    (hs : (ts.map Tree.size).sum ≤ n) :
    ∃ t, codecLoop deserializePass n s = .next t ∧ t.br = v.br ∧ t.src = v.src ∧ t.host = s.host.answered e.status 0#9
      ∧ t.phase = .idle ∧ (∀ i, i ≤ 510 → Arena.get? t.node i = none) ∧ DeserializeFrame s t := by
  induction n generalizing s ts bits u v with
  | zero =>
    match ts, hlen with
    | T :: ts, _ =>
      have := T.size_eq
      have := T.leaves_eq
      simp at hs
      omega
  | succ n ih =>
    rw [codecLoop_succ _ _ (by rw [hp]; simp)]
    have stop : ∀ w, fetchRecord s = .raised e w → ReaderFrame s w →
        ∃ t, afterPass deserializePass n (deserializePass s) = .next t ∧ t.br = w.br ∧ t.src = w.src
          ∧ t.host = s.host.answered e.status 0#9 ∧ t.phase = .idle ∧ (∀ i, i ≤ 510 → Arena.get? t.node i = none)
          ∧ DeserializeFrame s t := by
      intro w hw hfr
      have hpass : deserializePass s = .next (raiseInTdes e w) := by simp only [deserializePass, hw]
      rw [hpass, afterPass, codecLoop_idle _ _ rfl]
      refine ⟨_, rfl, rfl, rfl, host_raise (t := spoilNode w) e hfr.host, rfl, fun i hi => ?_,
        hfr.deserialize.trans ⟨rfl, rfl, rfl, rfl, rfl, rfl⟩⟩
      show Arena.get? (Arena.spoil _) i = none
      rw [Arena.get?_spoil, if_pos hi]
    match bits with
    | [] =>
      cases hr
      exact stop v (by unfold fetchRecord; rw [hf]; rfl) (Res.leaves_raised (readBit_frame s) hf)
    | b :: bits =>
      obtain ⟨s1, r1, r2⟩ := readBitList_cons hr
      have f1 : ReaderFrame s s1 := Res.leaves_done (readBit_frame s) r1
      match ts, hlen with
      | .node l r :: ts, hlen =>
        simp only [serializeAll, List.flatMap_cons, Tree.serialize, internalRecord, List.cons_append, List.nil_append,
          List.cons.injEq] at hb
        obtain ⟨rfl, hb⟩ := hb
        have hfe : fetchRecord s = .done (some .internal) s1 := by unfold fetchRecord; rw [r1]; rfl
        let z := openNode (nodeIdx s1.tc.t_next) (buildNode (mkEntry true 0#8 (nodeIdx (s1.tc.t_next + 1)) 0#9) s1)
        have hd : deserializePass s = .next z := by
          have hn' : ¬ s1.tc.t_nint = Config.maxInternal := by
            rw [f1.tc]
            simp [Config.maxInternal, internalsAll, Tree.internals] at hn ⊢
            omega
          simp [deserializePass, hfe, execRecord, execInternal, hn', z]
        have c1 := readBitList_inCodec z.tc z.phase z.node bits.length s1
        rw [show readBitList bits.length s1 = .done (some bits) u from r2] at c1
        have c2 := readBit_inCodec z.tc z.phase z.node u
        rw [hf] at c2
        rw [hd, afterPass]
        obtain ⟨t, k1, k2, k3, k4, k5, k6, k7⟩ := ih (s := z) (ts := l :: r :: ts) (bits := bits) rfl
          (by simp [z, f1.tc] at hlen ⊢; exact hlen) (by rw [hb]; simp [serializeAll])
          (by simp [z, f1.tc, internalsAll, Tree.internals] at hn ⊢; omega) c1 c2
          (by simp [Tree.size_node] at hs ⊢; omega)
        exact ⟨t, k1, k2, k3, by rw [k4]; show s1.host.answered _ _ = _; rw [f1.host], k5, k6,
          f1.deserialize.trans ⟨k7.1, k7.2, k7.3, k7.4, k7.5, k7.6⟩⟩
      | .leaf sym :: ts, hlen =>
        simp only [serializeAll, List.flatMap_cons, Tree.serialize, leafRecord, List.cons_append, List.cons.injEq] at hb
        obtain ⟨rfl, hb⟩ := hb
        by_cases h8 : bits.length < 8
        · obtain ⟨c, hc⟩ : ∃ c, 8 = bits.length + (c + 1) := ⟨7 - bits.length, by omega⟩
          have h8r := readBitList_raises (c := c) r2 hf
          rw [← hc] at h8r
          refine stop v ?_ (f1.trans (Res.leaves_raised (readBitList_frame 8 s1) h8r))
          unfold fetchRecord
          rw [r1]
          simp [readBits, h8r]
        · obtain ⟨after, rfl⟩ : ∃ after, bits = msbBits sym ++ after := by
            refine ⟨bits.drop 8, ?_⟩
            have := congrArg (List.take 8) hb
            rw [List.take_append_of_le_length (by omega), List.take_append_of_le_length (by simp),
              List.take_of_length_le (l := msbBits sym) (by simp)] at this
            rw [← this, List.take_append_drop]
          rw [List.append_assoc, List.append_cancel_left_eq] at hb
          have r2' : readBitList ((msbBits sym).length + after.length) s1 = .done (some (msbBits sym ++ after)) u := by
            rw [← List.length_append]
            exact r2
          obtain ⟨s2, q1, q2⟩ := readBitList_append r2'
          rw [length_msbBits] at q1
          have f2 : ReaderFrame s s2 := f1.trans (Res.leaves_done (readBitList_frame 8 s1) q1)
          have hfe : fetchRecord s = .done (some (.leaf sym)) s2 := by
            unfold fetchRecord
            rw [r1]
            simp [readBits, q1, natOfMsbBits_msbBits]
          have hd : deserializePass s = linkRight (countLeaf (buildNode (mkEntry false sym 0#9 0#9) s2)) := by
            simp [deserializePass, hfe, execRecord, execLeaf]
          match hst : s.tc.t_stk with
          | [] =>
            rw [hst] at hlen
            have : ts = [] := by simpa using hlen
            subst this
            simp [hm] at hb
          | p :: below =>
            have h0 : (countLeaf (buildNode (mkEntry false sym 0#9 0#9) s2)).tc.t_stk = p :: below := by
              simp [f2.tc, hst]
            rw [hd]
            simp only [linkRight, h0, afterPass]
            generalize hz : State.mk _ _ _ _ _ _ _ _ _ = z
            have z0 : z.host = s2.host := by rw [← hz]; rfl
            have z1 : z.phase = .deserializing := by rw [← hz]
            have z3 : z.tc.t_stk = below := by rw [← hz]
            have z4 : z.tc.t_nint = s2.tc.t_nint := by rw [← hz]; rfl
            have z7 : DeserializeFrame s2 z := by rw [← hz]; exact ⟨rfl, rfl, rfl, rfl, rfl, rfl⟩
            have z8 : z = inCodec z.tc z.phase z.node s2 := by rw [← hz]; rfl
            have c1 := readBitList_inCodec z.tc z.phase z.node after.length s2
            rw [q2, ← z8] at c1
            have c2 := readBit_inCodec z.tc z.phase z.node u
            rw [hf] at c2
            obtain ⟨t, k1, k2, k3, k4, k5, k6, k7⟩ := ih (s := z) (ts := ts) (bits := after) z1
              (by rw [z3]; simpa [hst] using hlen) hb
              (by rw [z4, f2.tc]; simpa [internalsAll, Tree.internals] using hn) c1 c2
              (by simp [Tree.size, Tree.leaves] at hs ⊢; omega)
            exact ⟨t, k1, k2, k3, by rw [k4, z0, f2.host], k5, k6, f2.deserialize.trans (z7.trans k7)⟩

end Sys2Proof.Machine
end

