-- ==== Sys2Proof/Laws/PerInstr.lean ====
section
/-! SUPPORT. What is said of every instruction as syntax, one lemma per constructor of Instr. -/

namespace Sys2Proof.Laws.Format

/-- An instruction is well-formed, and it is encoded in the format its row of the opcode table names: a command as a C16
word (R80, R81), a data row as a node entry or a serialized record (R84, R88). -/
def Statement (i : Instr) : Prop :=
  i.wellFormed = true ∧
    match encode i with
    | .command _ => i.isCommand = true
    | .entry _ => (∃ sym l r, i = .nodeLeaf sym l r) ∨ ∃ sym l r, i = .nodeInternal sym l r
    | .record bits => (bits.length = 9 ∧ ∃ sym, i = .leaf sym) ∨ (bits.length = 1 ∧ i = .internal)

theorem wbit (b : Bool) : Statement (.wbit b) := ⟨rfl, rfl⟩

theorem wflush : Statement .wflush := ⟨rfl, rfl⟩

theorem wrst : Statement .wrst := ⟨rfl, rfl⟩

theorem rbit : Statement .rbit := ⟨rfl, rfl⟩

theorem ralign : Statement .ralign := ⟨rfl, rfl⟩

theorem rrst : Statement .rrst := ⟨rfl, rfl⟩

theorem tser (root : NodeIdx) : Statement (.tser root) := ⟨rfl, rfl⟩

theorem tdes : Statement .tdes := ⟨rfl, rfl⟩

theorem leaf (sym : Symbol) : Statement (.leaf sym) := ⟨rfl, .inl ⟨rfl, sym, rfl⟩⟩

theorem internal : Statement .internal := ⟨rfl, .inr ⟨rfl, rfl⟩⟩

theorem nodeLeaf (sym : Symbol) (left right : NodeIdx) : Statement (.nodeLeaf sym left right) :=
  ⟨rfl, .inl ⟨sym, left, right, rfl⟩⟩

theorem nodeInternal (sym : Symbol) (left right : NodeIdx) : Statement (.nodeInternal sym left right) :=
  ⟨rfl, .inr ⟨sym, left, right, rfl⟩⟩

end Sys2Proof.Laws.Format
end

