-- ==== Sys2Proof/Tests/Slice0.lean ====
section
/-! SUPPORT. Tests: ill-formed terms are refused, words written out from the spec decode, single commands do what the
vectors of 95_test_vectors.md say (the vector's id stands at each test), and for every statement with hypotheses a
`witness_<Name>` that meets them all. -/

namespace Sys2Proof.Machine.Tests

/-! ## Helpers -/

/-- The state a result goes on with. -/
def nextOf (r : Result) : State :=
  match r with
  | .next t => t
  | .fault _ => State.reset
  | .refused _ => State.reset

/-- The result is a next state. -/
def isNext (r : Result) : Bool :=
  match r with
  | .next _ => true
  | .fault _ => false
  | .refused _ => false

theorem eq_next {r : Result} (h : isNext r = true) : r = .next (nextOf r) := by
  cases r with
  | next t => rfl
  | fault f => cases h
  | refused f => cases h

/-- What a test looks at in a result, none if it is no next state. -/
def see {α : Type} (r : Result) (f : State → α) : Option α := if isNext r then some (f (nextOf r)) else none

/-- Writer state as the vectors write it: (`w_acc`, `w_cnt`, `w_buf`), and `w_fail`. -/
def writer (s : State) : Byte × Fin 8 × List Byte × Bool := (s.bw.w_acc, s.bw.w_cnt, s.bw.w_buf, s.bw.w_fail)

/-- Reader state as the vectors write it: (`r_pos`, `r_bit`, `r_len`, `r_eos`, `src_pos`). -/
def reader (s : State) : Nat × Fin 8 × Nat × Bool × Nat :=
  (s.br.r_pos, s.br.r_bit, s.br.r_buf.length, s.br.r_eos, s.src.src_pos)

/-- Reset, with a writer in the middle of a stream. -/
def writing (chunk : Nat) (acc : Byte) (cnt : Fin 8) (buf : List Byte) : State :=
  { State.reset with chunkBytes := chunk, bw := { w_acc := acc, w_cnt := cnt, w_buf := buf, w_fail := false } }

/-- The sink will answer as listed. -/
def sinkAnswers (as : List SinkAnswer) (s : State) : State := { s with sink := { s.sink with answers := as } }

/-- Reset, with SRC holding these bytes. -/
def srcHolds (bytes : List Byte) : State := { State.reset with src := { State.reset.src with bytes := bytes } }

/-- The source will answer as listed. -/
def srcAnswers (as : List SrcAnswer) (s : State) : State := { s with src := { s.src with answers := as } }

/-- All of SRC has been read ahead, and the cursor stands here. -/
def readAhead (pos : Nat) (bit : Fin 8) (bytes : List Byte) : State :=
  let s := srcHolds bytes
  { s with
    br := { r_buf := bytes, r_pos := pos, r_bit := bit, r_eos := false, r_fail := false }
    src := { s.src with src_pos := bytes.length } }

/-- Reset, with these NODE entries. -/
def nodes (cells : List (Nat × NodeWord)) : State := { State.reset with node := cells }

/-- The entries of NODE that hold a value. -/
def cells (s : State) : List (Nat × NodeWord) := s.node

/-- The tree of V-L1-7, node(leaf 0x61, node(leaf 0x63, leaf 0x62)). -/
def treeT1 : Tree := .node (.leaf 0x61#8) (.node (.leaf 0x63#8) (.leaf 0x62#8))

/-- Its entries, at indices 0 to 4. -/
def nodesT1 : State :=
  nodes [(0, 0x4000202#27), (1, 0x1840000#27), (2, 0x4000604#27), (3, 0x18C0000#27), (4, 0x1880000#27)]

/-- The host will make this move next. -/
def hostWill (m : HostMove) (s : State) : State := { s with host := { s.host with pending := [m] } }

/-- Between two passes of a codec loop. -/
def inLoop (p : Phase) (tc : Tc) (s : State) : State := { s with phase := p, tc := tc }

/-! ## WellFormed: ill-formed terms are refused -/

theorem test_illFormed_wbit : (Line.wbit 2).wellFormed = false := by decide
theorem test_illFormed_tser : (Line.tser 512).wellFormed = false := by decide
theorem test_illFormed_nodeLeaf_index : (Line.nodeLeaf 512 0).wellFormed = false := by decide
theorem test_illFormed_nodeLeaf_symbol : (Line.nodeLeaf 0 256).wellFormed = false := by decide
theorem test_illFormed_nodeInt_index : (Line.nodeInt 512 0 0).wellFormed = false := by decide
theorem test_illFormed_nodeInt_left : (Line.nodeInt 0 512 0).wellFormed = false := by decide
theorem test_illFormed_nodeInt_right : (Line.nodeInt 0 0 512).wellFormed = false := by decide
theorem test_illFormed_wbits_none : (Line.wbits 0 0).wellFormed = false := by decide
theorem test_illFormed_wbits_many : (Line.wbits 33 0).wellFormed = false := by decide
theorem test_illFormed_wbits_value : (Line.wbits 3 8).wellFormed = false := by decide
theorem test_illFormed_wbyte : (Line.wbyte 256).wellFormed = false := by decide
theorem test_illFormed_wu32 : (Line.wu32 (2 ^ 32)).wellFormed = false := by decide
theorem test_illFormed_rbits_none : (Line.rbits 0).wellFormed = false := by decide
theorem test_illFormed_rbits_many : (Line.rbits 33).wellFormed = false := by decide
theorem test_illFormed_placeSrc : (HostMove.placeSrc [0#8] 2).wellFormed = false := by decide
theorem test_illFormed_line_has_no_expansion : expandLine (.tser 512) = none := by decide

/-! ## Decoding words written out from the spec (R80, R81, R84, R88; E1 to E24) -/

theorem test_decode_wbit0 : decodeCommand 0b0001000000000000#16 = .instr (.wbit false) := by decide
theorem test_decode_wbit1 : decodeCommand 0b0001000000000001#16 = .instr (.wbit true) := by decide
theorem test_decode_wflush : decodeCommand 0b0010000000000000#16 = .instr .wflush := by decide
theorem test_decode_wrst : decodeCommand 0b0011000000000000#16 = .instr .wrst := by decide
theorem test_decode_rbit : decodeCommand 0b0100000000000000#16 = .instr .rbit := by decide
theorem test_decode_ralign : decodeCommand 0b0101000000000000#16 = .instr .ralign := by decide
theorem test_decode_rrst : decodeCommand 0b0110000000000000#16 = .instr .rrst := by decide
theorem test_decode_tser0 : decodeCommand 0b1000000000000000#16 = .instr (.tser 0#9) := by decide
theorem test_decode_tser511 : decodeCommand 0b1000000111111111#16 = .instr (.tser 511#9) := by decide
theorem test_decode_tser_bits : decodeCommand 0b1000000100000110#16 = .instr (.tser 262#9) := by decide
theorem test_decode_tdes : decodeCommand 0b1001000000000000#16 = .instr .tdes := by decide
theorem test_decode_leaf :
    decode (.record [false, false, true, true, false, false, false, false, true]) = .instr (.leaf 0x61#8) := by decide
theorem test_decode_internal : decode (.record [true]) = .instr .internal := by decide
theorem test_decode_nodeLeaf :
    decode (.entry 0b001100001000000000000000000#27) = .instr (.nodeLeaf 0x61#8 0#9 0#9) := by decide
theorem test_decode_nodeLeaf_ignored_fields :
    decode (.entry 0b001100001000000001000000010#27) = .instr (.nodeLeaf 0x61#8 1#9 2#9) := by decide
theorem test_decode_nodeInternal :
    decode (.entry 0b100000000111111101111111110#27) = .instr (.nodeInternal 0#8 509#9 510#9) := by decide
theorem test_decode_leaf_in_whole_bytes : decodeTableWord 16 0x0061 = some (.leaf 0x61#8) := by decide

/-- E11 to E24: none of these words is a command. -/
theorem test_decode_illegal :
    ([0x0000, 0x7000, 0xA000, 0xFFFF, 0x1002, 0x11FF, 0x1200, 0x2001, 0x3100, 0x4001, 0x5800, 0x6001, 0x8200, 0x9001].map
      fun n => (decodeCommand (BitVec.ofNat 16 n)).toOption) = List.replicate 14 none := by decide

/-- The reasons R86 gives, one of each kind. -/
theorem test_decode_illegal_reasons :
    decodeCommand 0x7000#16 = .illegal (.unusedOp 7#4) ∧ decodeCommand 0x8200#16 = .illegal (.nonzeroZ 1#3)
      ∧ decodeCommand 0x1002#16 = .illegal (.nonzeroArg 2#9)
      ∧ decode (.record [false, true]) = .illegal .truncatedRecord
      ∧ decode (.record [true, true]) = .illegal .bitsAfterRecord := by decide

/-- The node entry words listed after E24. -/
theorem test_entry_words :
    mkEntry false 0x61#8 0#9 0#9 = 0x1840000#27 ∧ mkEntry false 0xFF#8 0#9 0#9 = 0x3FC0000#27
      ∧ mkEntry true 0#8 3#9 4#9 = 0x4000604#27 ∧ mkEntry true 0#8 509#9 510#9 = 0x403FBFE#27 := by decide

/-! ## Single commands -/

/-- W2: the first bit goes to bit 7. -/
theorem test_wbit_first :
    see (exec (.wbit true) State.reset) (fun t => (writer t, t.host.responses))
      = some ((0x80#8, 1, [], false), [0x0000#16]) := by decide

/-- W10: the 16th bit fills a buffer of two bytes and makes the transaction. -/
theorem test_wbit_fills_the_buffer :
    see (exec (.wbit false) (writing 2 0xF0#8 7 [0xA5#8])) (fun t => (writer t, t.sink.bytes, t.sink.tx))
      = some ((0x00#8, 0, [], false), [0xA5#8, 0xF0#8], [[0xA5#8, 0xF0#8]]) := by decide

/-- W8: six bits of the last byte are filled, so two are padding. -/
theorem test_wflush_pads :
    see (exec .wflush (writing 1000 0xE8#8 6 [0x0F#8])) (fun t => (writer t, t.sink.tx, t.host.responses))
      = some ((0x00#8, 0, [], false), [[0x0F#8, 0xE8#8]], [0x0002#16]) := by decide

/-- W12: the padded byte fills the buffer; one transaction moves all of it. -/
theorem test_wflush_fills_the_buffer :
    see (exec .wflush (writing 2 0x80#8 1 [0xAA#8])) (fun t => (writer t, t.sink.tx, t.host.responses))
      = some ((0x00#8, 0, [], false), [[0xAA#8, 0x80#8]], [0x0007#16]) := by decide

/-- P6: the sink fails and keeps one byte of the chunk. -/
theorem test_wbit_failed_drain :
    see (exec (.wbit false) (sinkAnswers [.fail 1] (writing 2 0xF0#8 7 [0xA5#8])))
        (fun t => (t.bw.w_fail, t.sink.bytes, t.host.responses))
      = some (true, [0xA5#8], [0x2000#16]) := by decide

/-- A writer that has failed with something buffered, after one byte reached SINK. -/
def failedMidByte : State :=
  { State.reset with
    bw := { w_acc := 0xE8#8, w_cnt := 6, w_buf := [0x0F#8], w_fail := true }
    sink := { State.reset.sink with bytes := [0xA5#8] } }

/-- X12, Z1: WRST clears `w_fail`, discards the buffer and leaves SINK alone. -/
theorem test_wrst :
    see (exec .wrst failedMidByte) writer = some (0x00#8, 0, [], false)
      ∧ see (exec .wrst failedMidByte) (fun t => (t.sink.bytes, t.sink.tx, t.host.responses))
        = some ([0xA5#8], [], [0x0000#16]) := by decide

/-- B8: a short read; the first bit of 0xC3 is 1. -/
theorem test_rbit_short_read :
    see (exec .rbit (srcAnswers [.data 1] { srcHolds [0xC3#8, 0x5A#8, 0x0F#8] with chunkBytes := 2 }))
        (fun t => (reader t, t.host.responses, t.src.tx))
      = some ((0, 1, 1, false, 1), [0x0001#16], [.data 1]) := by decide

/-- B1: an empty source. -/
theorem test_rbit_eos :
    see (exec .rbit State.reset) (fun t => (reader t, t.host.responses, t.src.tx))
      = some ((0, 0, 0, true, 0), [0x1000#16], [.ended]) := by decide

/-- B3: after three bits of 0xA5, five are skipped. -/
theorem test_ralign_skips :
    see (exec .ralign (readAhead 0 3 [0xA5#8, 0x3C#8])) (fun t => (reader t, t.host.responses))
      = some ((1, 0, 2, false, 2), [0x0005#16]) := by decide

/-- B4: from reset RALIGN does nothing and makes no SrcRead. -/
theorem test_ralign_on_a_boundary :
    see (exec .ralign (srcHolds [0xA5#8])) (fun t => (reader t, t.host.responses, t.src.tx))
      = some ((0, 0, 0, false, 0), [0x0000#16], []) := by decide

/-- Z2: RRST empties the reader; `src_pos` stays. -/
theorem test_rrst :
    see (exec .rrst (readAhead 3 5 [0x98#8, 0x66#8, 0x33#8, 0x10#8])) (fun t => (reader t, t.br.r_fail, t.host.responses))
      = some ((0, 0, 0, false, 4), false, [0x0000#16]) := by decide

/-- T1: the tree of "aaaabbbcc". -/
theorem test_tser_three_leaves :
    see (exec (.tser 0#9) nodesT1) (fun t => (writer t, t.host.responses))
      = some ((0x10#8, 5, [0x98#8, 0x66#8, 0x33#8], false), [0x0003#16]) := by decide +kernel

/-- X6: a cycle is a BadTree after 255 one-bits. -/
theorem test_tser_cycle :
    see (exec (.tser 0#9) (nodes [(0, 0x4000000#27)])) (fun t => (writer t, t.host.responses))
      = some ((0xFE#8, 7, List.replicate 31 0xFF#8, false), [0x4000#16]) := by decide +kernel

/-- X16: the 128th one-bit fills a buffer of 16 bytes, and the drain fails before the 256th internal node is met. -/
theorem test_tser_failed_drain :
    see (exec (.tser 0#9) (sinkAnswers [.fail 3] { nodes [(0, 0x4000000#27)] with chunkBytes := 16 }))
        (fun t => (t.bw.w_fail, t.sink.bytes, t.sink.tx, t.host.responses))
      = some (true, List.replicate 3 0xFF#8, [List.replicate 16 0xFF#8], [0x2000#16]) := by decide +kernel

/-- T5: the same tree read back. -/
theorem test_tdes_three_leaves :
    see (exec .tdes (srcHolds [0x98#8, 0x66#8, 0x33#8, 0x10#8])) (fun t => (cells t, t.host.responses))
        = some (cells nodesT1, [0x0003#16])
      ∧ see (exec .tdes (srcHolds [0x98#8, 0x66#8, 0x33#8, 0x10#8])) reader = some (3, 5, 4, false, 4) := by
  decide +kernel

/-- X3: the 256th flag bit 1 is refused, 256 bits consumed. -/
theorem test_tdes_256_internal_nodes :
    see (exec .tdes (srcHolds (List.replicate 40 0xFF#8))) (fun t => (cells t, t.host.responses))
        = some ([], [0x3000#16])
      ∧ see (exec .tdes (srcHolds (List.replicate 40 0xFF#8))) reader = some (32, 0, 40, false, 40) := by
  decide +kernel

/-- The record of a leaf ends a tree of one leaf (T6: data 1). -/
theorem test_leaf_pass :
    see (exec (.leaf 0x61#8) (inLoop .deserializing Tc.reset State.reset)) (fun t => (cells t, t.phase, t.host.responses))
      = some ([(0, 0x1840000#27)], .idle, [0x0001#16]) := by decide

/-- A leaf that is not the last links the parent: T1's node 0 gets its right child, node 2. -/
theorem test_leaf_pass_links :
    see (exec (.leaf 0x61#8) (inLoop .deserializing { Tc.reset with t_next := 1, t_nint := 1, t_stk := [0#9] }
        (nodes [(0, 0x4000200#27)]))) (fun t => (cells t, t.tc.t_stk, t.host.responses))
      = some ([(0, 0x4000202#27), (1, 0x1840000#27)], [], []) := by decide

/-- The record of an internal node: its left child is the node built next, its right child is 0 for now. -/
theorem test_internal_pass :
    see (exec .internal (inLoop .deserializing Tc.reset State.reset)) (fun t => (cells t, t.tc.t_stk, t.tc.t_nint))
      = some ([(0, 0x4000200#27)], [0#9], 1) := by decide

/-- The entry of a leaf: nine bits, 0 and the symbol; its `left` and `right` are ignored (R153 (b)). -/
theorem test_nodeLeaf_pass :
    see (exec (.nodeLeaf 0x61#8 5#9 6#9) (inLoop .serializing Tc.reset State.reset)) (fun t => (writer t, t.host.responses))
      = some ((0x80#8, 1, [0x30#8], false), [0x0001#16]) := by decide

/-- The entry of an internal node: one bit 1, then the left child, the right one waiting; `sym` is ignored. -/
theorem test_nodeInternal_pass :
    see (exec (.nodeInternal 0xFF#8 1#9 2#9) (inLoop .serializing Tc.reset State.reset))
        (fun t => (writer t, t.tc.t_cur, t.tc.t_stk, t.phase))
      = some ((0x80#8, 1, [], false), 1#9, [2#9], .serializing) := by decide

/-! ## Steps and host moves -/

/-- E23: an illegal word is answered ILLEGAL and changes nothing else. -/
theorem test_step_illegal :
    see (step (hostWill (.command 0x8200#16) nodesT1)) id
      = some { nodesT1 with host := { nodesT1.host with responses := [0x5000#16] } } := by decide

/-- U3: the host reads an entry nothing has written. -/
theorem test_nodeRead_unwritten :
    isNext (step (hostWill (.nodeRead 5#9) nodesT1)) = false
      ∧ see (step (hostWill (.nodeRead 4#9) nodesT1)) (fun t => t.host.nodeReads) = some [0x1880000#27] := by decide

/-- Every row of the opcode table, put where the next step fetches it, runs from reset (TSER reads an entry nothing has
written there and faults, Z3). -/
theorem test_withFetchWord :
    ([(16, 0x1001), (16, 0x2000), (16, 0x3000), (16, 0x4000), (16, 0x5000), (16, 0x6000), (16, 0x9000), (9, 0x061),
        (8, 1), (32, 0x1840000), (32, 0x4000202)].all fun p => isNext (step (State.reset.withFetchWord p.1 p.2))) = true
      ∧ isNext (step (State.reset.withFetchWord 16 0x8000)) = false := by decide +kernel

/-! ## The textual form (R94, R95) -/

theorem test_text_wbit : assembleLine "  wbit 1   ; one bit" = some [.command 0x1001#16] := by decide +kernel
theorem test_text_tser : assembleLine "tser 0x1FF" = some [.command 0x81FF#16] := by decide +kernel
theorem test_text_node_leaf : assembleLine "node 6, leaf 0x01" = some [.nodeWrite 6#9 0x0040000#27] := by decide +kernel
theorem test_text_node_int : assembleLine "node 5, int 6, 7" = some [.nodeWrite 5#9 0x4000C07#27] := by decide +kernel
theorem test_text_wbits :
    assembleLine "wbits 3, 6" = some [.command 0x1001#16, .command 0x1001#16, .command 0x1000#16] := by decide +kernel
theorem test_text_wcode : assembleLine "wcode 10" = some [.command 0x1001#16, .command 0x1000#16] := by decide +kernel
theorem test_text_comment : assembleLine "; nothing" = some [] := by decide +kernel
theorem test_text_bad : assembleLine "wbit 2" = none ∧ assembleLine "halt" = none := by decide +kernel

/-! ## Witnesses: the hypotheses of every statement can be met -/

theorem ready_writing (chunk : Nat) (acc : Byte) (cnt : Fin 8) (buf : List Byte) (hc : 1 ≤ chunk)
    (h : ∀ k : Fin 8, k.val + cnt.val ≤ 7 → acc.getLsbD k.val = false) (hb : buf.length < chunk) :
    WriterReady (writing chunk acc cnt buf) :=
  ⟨hc, rfl, fun _ => ⟨h, hb⟩, fun _ k => by cases k⟩

/-- A writer in the middle of a byte. -/
theorem ready_midByte : WriterReady (writing 2 0xF0#8 7 [0xA5#8]) :=
  ready_writing 2 0xF0#8 7 [0xA5#8] (by decide) (by decide) (by decide)

theorem ready_srcHolds (bytes : List Byte) : ReaderReady (srcHolds bytes) :=
  ⟨(by decide : 1 ≤ State.reset.chunkBytes), rfl, ⟨Nat.zero_le _, fun _ => by simp [srcHolds, State.reset, Br.reset]⟩,
    fun _ k => by cases k⟩

theorem witness_DecodeOfEncodeIsTheInstruction : (Instr.tser 511#9).wellFormed = true := by decide

theorem witness_EncodeOfDecodedCodeIsTheCode :
    decode (.command 0x81FF#16) = .instr (.tser 511#9)
      ∧ decode (.entry 0x403FBFE#27) = .instr (.nodeInternal 0#8 509#9 510#9)
      ∧ decode (.record [true]) = .instr .internal := by decide

theorem witness_IllegalWordsAreThoseOfR86 :
    (hostWill (.command 0xFFFF#16) State.reset).phase = .idle
      ∧ (hostWill (.command 0xFFFF#16) State.reset).host.pending = [.command 0xFFFF#16]
      ∧ decodeCommand 0xFFFF#16 = .illegal (.unusedOp 15#4) := by decide

theorem witness_PackingIsMsbFirstWithZeroPadding : 15 < 8 * ([0xA5#8, 0x3C#8] : List Byte).length := by decide

theorem witness_LinesExpandToTheirWords : 511 ≤ 511 ∧ 255 ≤ 255 := by decide

theorem witness_ResetTable : State.reset = State.reset ∧ ∃ u, blockReset nodesT1 = blockReset u := ⟨rfl, nodesT1, rfl⟩

theorem inv_reset : Inv State.reset := by decide

theorem witness_StepKeepsTheInvariant :
    Inv (hostWill (.command 0x1001#16) State.reset)
      ∧ step (hostWill (.command 0x1001#16) State.reset) = .next (nextOf (step (hostWill (.command 0x1001#16) State.reset))) :=
  ⟨by decide, eq_next (by decide)⟩

theorem witness_StepsBetweenCommandsStayBetweenCommands :
    (hostWill (.command 0x9000#16) (srcHolds [0x30#8, 0x80#8])).phase = .idle
      ∧ step (hostWill (.command 0x9000#16) (srcHolds [0x30#8, 0x80#8]))
        = .next (nextOf (step (hostWill (.command 0x9000#16) (srcHolds [0x30#8, 0x80#8])))) :=
  ⟨rfl, eq_next (by decide +kernel)⟩

theorem witness_StepRunsTheFetchedInstruction :
    ((hostWill (.command 0x8000#16) nodesT1).phase = .idle
        ∧ (hostWill (.command 0x8000#16) nodesT1).host.pending = [.command 0x8000#16]
        ∧ decode (.command 0x8000#16) = .instr (.tser 0#9))
      ∧ ((inLoop .serializing Tc.reset nodesT1).phase = .serializing
        ∧ memRead (inLoop .serializing Tc.reset nodesT1) 0#9 = some 0x4000202#27
        ∧ decode (.entry 0x4000202#27) = .instr (.nodeInternal 0#8 1#9 2#9))
      ∧ ((inLoop .deserializing Tc.reset (srcHolds [0x80#8])).phase = .deserializing
        ∧ ∃ t, fetchRecord (inLoop .deserializing Tc.reset (srcHolds [0x80#8])) = .done (some .internal) t)
      ∧ State.reset.phase = .idle ∧ State.reset.host.pending = [] :=
  ⟨by decide, by decide, ⟨rfl, _, rfl⟩, rfl, rfl⟩

theorem witness_FetchedRecordIsTheDecodedOne :
    ReaderReady (srcHolds [0x30#8, 0x80#8])
      ∧ ∃ rest, decodeRecord (unreadBits (srcHolds [0x30#8, 0x80#8])) = some (.leaf 0x61#8, rest) :=
  ⟨ready_srcHolds _, _, rfl⟩

theorem witness_HostMovesDoWhatTheySay :
    memRead nodesT1 4#9 = some 0x1880000#27 ∧ memRead nodesT1 511#9 = none ∧ State.reset.bw = Bw.reset
      ∧ (writing 2 0x80#8 1 []).bw ≠ Bw.reset ∧ State.reset.br = Br.reset ∧ 1 ≤ ([0xA5#8] : List Byte).length
      ∧ ([0xA5#8] : List Byte).length < 2 ∧ (readAhead 0 1 [0xA5#8]).br ≠ Br.reset := by decide

theorem witness_EachCommandGetsOneResponseOfItsOwn :
    Instr.tdes.isCommand = true
      ∧ exec .tdes (srcHolds [0x30#8, 0x80#8]) = .next (nextOf (exec .tdes (srcHolds [0x30#8, 0x80#8]))) :=
  ⟨rfl, eq_next (by decide +kernel)⟩

theorem witness_WbitPlacesTheBit : State.reset.bw.w_fail = false ∧ State.reset.bw.w_cnt ≠ 7 := by decide

theorem witness_WbitCompletesAByte :
    (writing 1000 0xF0#8 7 [0xA5#8]).bw.w_fail = false ∧ (writing 1000 0xF0#8 7 [0xA5#8]).bw.w_cnt = 7
      ∧ (writing 1000 0xF0#8 7 [0xA5#8]).bw.w_buf.length + 1 ≠ (writing 1000 0xF0#8 7 [0xA5#8]).chunkBytes := by decide

theorem witness_WbitDrainsAFullBuffer :
    (writing 2 0xF0#8 7 [0xA5#8]).bw.w_fail = false ∧ (writing 2 0xF0#8 7 [0xA5#8]).bw.w_cnt = 7
      ∧ (writing 2 0xF0#8 7 [0xA5#8]).bw.w_buf.length + 1 = (writing 2 0xF0#8 7 [0xA5#8]).chunkBytes
      ∧ nextSinkAnswer (writing 2 0xF0#8 7 [0xA5#8]) = .ok := by decide

theorem witness_WbitExtendsTheStreamByItsBit : WriterReady (writing 2 0xF0#8 7 [0xA5#8]) := ready_midByte

/-- The four clauses: a WBIT that fills the buffer, a WFLUSH with something buffered, the passes of TSER; the bit of the
last pass that fills the buffer is the flag (7 bits placed before it) or a bit of the symbol (none placed). -/
theorem witness_FailedDrainAnswersIoErr :
    let s := sinkAnswers [.fail 1] (writing 2 0xF0#8 7 [0xA5#8])
    let u := sinkAnswers [.fail 1] (writing 2 0x00#8 0 [0xA5#8])
    s.bw.w_fail = false ∧ s.bw.w_cnt = 7 ∧ s.bw.w_buf.length + 1 = s.chunkBytes ∧ nextSinkAnswer s = .fail 1
      ∧ (s.bw.w_cnt ≠ 0 ∨ s.bw.w_buf ≠ []) ∧ s.tc.t_nint ≠ 255
      ∧ u.bw.w_fail = false ∧ u.bw.w_buf.length + 1 = u.chunkBytes ∧ nextSinkAnswer u = .fail 1 := by decide

/-- The two clauses on transactions: a writer that holds something, and one that holds nothing. -/
theorem witness_WflushPadsAndHandsOverEverything :
    WriterReady (writing 2 0xF0#8 7 [0xA5#8]) ∧ (writing 2 0xF0#8 7 [0xA5#8]).bw.w_cnt ≠ 0
      ∧ WriterReady (writing 2 0x00#8 0 []) ∧ (writing 2 0x00#8 0 []).bw.w_cnt = 0 ∧ (writing 2 0x00#8 0 []).bw.w_buf = [] :=
  ⟨ready_midByte, by decide, ready_writing 2 0x00#8 0 [] (by decide) (by decide) (by decide), rfl, rfl⟩

/-- A state whose writer has failed. -/
def failedWriter : State := { State.reset with bw := { Bw.reset with w_fail := true } }

theorem witness_FailedWriterOnlyAnswersIoErr : failedWriter.phase = .idle ∧ failedWriter.bw.w_fail = true := by decide

theorem witness_SinkHoldsThePackedSegments :
    1 ≤ State.reset.chunkBytes ∧ State.reset.bw = Bw.reset ∧ SinkNeverFails State.reset ∧ WriterInv State.reset
      ∧ exec (.wbit true) State.reset = .next (nextOf (exec (.wbit true) State.reset))
      ∧ exec .wflush State.reset = .next (nextOf (exec .wflush State.reset)) :=
  ⟨by decide, rfl, (fun _ k => by cases k), by decide, eq_next (by decide), eq_next (by decide)⟩

theorem witness_HeaderCountIsWrittenBigEndian : 0xFFFFFFFF < 2 ^ 32 ∧ WriterReady (writing 2 0xF0#8 7 [0xA5#8]) :=
  ⟨by decide, ready_midByte⟩

theorem witness_RbitDeliversTheBitAtTheCursor :
    (readAhead 0 7 [0xA5#8]).br.r_fail = false
      ∧ (readAhead 0 7 [0xA5#8]).br.r_buf[(readAhead 0 7 [0xA5#8]).br.r_pos]? = some 0xA5#8 := by decide

theorem witness_RbitRefillsAnExhaustedBuffer :
    let s := srcAnswers [.data 1] (srcHolds [0xC3#8, 0x5A#8])
    1 ≤ s.chunkBytes ∧ s.br.r_fail = false ∧ s.br.r_pos = s.br.r_buf.length ∧ s.br.r_eos = false
      ∧ s.src.src_pos < s.src.bytes.length ∧ nextSrcAnswer s = .data 1
      ∧ 1 ≤ s.chunkBytes ∧ 1 ≤ s.src.bytes.length - s.src.src_pos := by decide

/-- A reader that has recorded the end of its stream. -/
def ended : State := { State.reset with br := { Br.reset with r_eos := true } }

/-- The two clauses: the end is already recorded, and the end is met now. -/
theorem witness_RbitAtTheEndAnswersEos :
    (ended.br.r_fail = false ∧ ended.br.r_pos = ended.br.r_buf.length ∧ ended.br.r_eos = true)
      ∧ State.reset.br.r_fail = false ∧ State.reset.br.r_pos = State.reset.br.r_buf.length
      ∧ State.reset.br.r_eos = false ∧ State.reset.src.src_pos = State.reset.src.bytes.length
      ∧ nextSrcAnswer State.reset = .data 0 := by decide

/-- The source fails at once. -/
def refillFails : State := srcAnswers [.fail 1] (srcHolds [0xC3#8, 0x5A#8])

/-- SRC holds T1's tree; the source hands over its first byte and then fails. -/
def refillFailsLater : State := srcAnswers [.data 1, .fail 0] (srcHolds [0x98#8, 0x66#8, 0x33#8, 0x10#8])

/-- The state an internal operation leaves. -/
def leftBy {α : Type} (r : Res α) : State :=
  match r with
  | .done _ t => t
  | .raised _ t => t

/-- The four clauses: the first refill fails for an RBIT and for a TDES; the second fails inside a tree, after 8 of its
bits; a TDES that met a failed refill and one that met none. -/
theorem witness_FailedRefillAnswersIoErr :
    (refillFails.br.r_fail = false ∧ refillFails.br.r_pos = refillFails.br.r_buf.length ∧ refillFails.br.r_eos = false
        ∧ nextSrcAnswer refillFails = .fail 1)
      ∧ (refillFailsLater.br.r_fail = false ∧ treeT1.leaves ≤ 256
        ∧ treeT1.serialize.take 8 ++ treeT1.serialize.drop 8 = treeT1.serialize ∧ treeT1.serialize.drop 8 ≠ []
        ∧ readBitList (treeT1.serialize.take 8).length refillFailsLater
          = .done (some (treeT1.serialize.take 8)) (leftBy (readBitList 8 refillFailsLater))
        ∧ readBit (leftBy (readBitList 8 refillFailsLater))
          = .raised .ioError (leftBy (readBit (leftBy (readBitList 8 refillFailsLater)))))
      ∧ exec .tdes refillFailsLater = .next (nextOf (exec .tdes refillFailsLater))
      ∧ (.failed ∈ (nextOf (exec .tdes refillFailsLater)).src.tx)
      ∧ (srcHolds [0x30#8]).br.r_fail = false
      ∧ exec .tdes (srcHolds [0x30#8]) = .next (nextOf (exec .tdes (srcHolds [0x30#8]))) :=
  ⟨by decide, ⟨rfl, by decide, by decide, by decide, rfl, rfl⟩, eq_next (by decide +kernel), by decide +kernel, rfl,
    eq_next (by decide +kernel)⟩

theorem witness_RalignSkipsToTheByteBoundary : (readAhead 0 3 [0xA5#8]).br.r_fail = false := by decide

/-- A state whose reader has failed. -/
def failedReader : State := { State.reset with br := { Br.reset with r_fail := true } }

theorem witness_FailedReaderOnlyAnswersIoErr : failedReader.phase = .idle ∧ failedReader.br.r_fail = true := by decide

/-- A source that answers two short reads. -/
def shortReads (bytes : List Byte) : State := srcAnswers [.data 1, .data 2] (srcHolds bytes)

theorem shortReads_never (bytes : List Byte) : SrcNeverFails (shortReads bytes) := by
  intro a h
  simp only [shortReads, srcAnswers, List.mem_cons, List.not_mem_nil, or_false] at h
  rcases h with rfl | rfl
  · exact ⟨1, rfl⟩
  · exact ⟨2, rfl⟩

/-- The two clauses: any SRC, and one a writer run has left. -/
theorem witness_ReaderDeliversSrcInOrder :
    (1 ≤ (shortReads [0xC3#8, 0x5A#8, 0x0F#8]).chunkBytes ∧ (shortReads [0xC3#8, 0x5A#8, 0x0F#8]).br = Br.reset
        ∧ (shortReads [0xC3#8, 0x5A#8, 0x0F#8]).src.src_pos = 0 ∧ SrcNeverFails (shortReads [0xC3#8, 0x5A#8, 0x0F#8]))
      ∧ 1 ≤ (shortReads [0xA0#8, 0x80#8]).chunkBytes ∧ (shortReads [0xA0#8, 0x80#8]).br = Br.reset
      ∧ (shortReads [0xA0#8, 0x80#8]).src.src_pos = 0 ∧ SrcNeverFails (shortReads [0xA0#8, 0x80#8])
      ∧ (shortReads [0xA0#8, 0x80#8]).src.bytes = [[true, false, true], [true]].flatMap pack :=
  ⟨⟨by decide, rfl, rfl, shortReads_never _⟩, by decide, rfl, rfl, shortReads_never _, by decide⟩

/-- A writer inside TSER, with and without a pending right subtree. -/
theorem witness_NodeLeafPassWritesTheLeafRecord :
    WriterReady (inLoop .serializing Tc.reset State.reset) ∧ (inLoop .serializing Tc.reset State.reset).tc.t_stk = []
      ∧ WriterReady (inLoop .serializing { Tc.reset with t_nint := 1, t_stk := [2#9] } State.reset)
      ∧ (inLoop .serializing { Tc.reset with t_nint := 1, t_stk := [2#9] } State.reset).tc.t_stk = [2#9] :=
  ⟨⟨by decide, rfl, by decide, fun _ k => by cases k⟩, rfl, ⟨by decide, rfl, by decide, fun _ k => by cases k⟩, rfl⟩

theorem witness_NodeInternalPassWritesTheFlag :
    WriterReady (inLoop .serializing { Tc.reset with t_nint := 254 } State.reset)
      ∧ (inLoop .serializing { Tc.reset with t_nint := 254 } State.reset).tc.t_nint ≠ 255 :=
  ⟨⟨by decide, rfl, by decide, fun _ k => by cases k⟩, by decide⟩

/-- TDES about to build entry 510, with no parent waiting. -/
def lastEntry : State := inLoop .deserializing { Tc.reset with t_next := 510 } State.reset

/-- TDES about to build entry 510, the right child of entry 509. -/
def lastEntryWaiting : State := inLoop .deserializing { Tc.reset with t_next := 510, t_stk := [509#9] } State.reset

/-- With no parent waiting and with one, at the last entry TDES can build. -/
theorem witness_LeafPassBuildsTheLeaf :
    (lastEntry.tc.t_next < 511 ∧ (∀ p ∈ lastEntry.tc.t_stk, p.toNat < lastEntry.tc.t_next) ∧ lastEntry.tc.t_stk = [])
      ∧ lastEntryWaiting.tc.t_next < 511 ∧ (∀ p ∈ lastEntryWaiting.tc.t_stk, p.toNat < lastEntryWaiting.tc.t_next)
      ∧ lastEntryWaiting.tc.t_stk = [509#9] := by decide

theorem witness_InternalPassOpensANode :
    (inLoop .deserializing { Tc.reset with t_nint := 254 } State.reset).tc.t_nint ≠ 255 := by decide

theorem leavesIn_replicate_internal (n : Nat) : leavesIn (List.replicate n .internal) = 0 := by
  induction n with
  | zero => rfl
  | succ n ih => exact ih

/-- An entry that is its own left child, and its own right child (X6). -/
def selfLoop : State := nodes [(0, 0x4000000#27)]

theorem ready_selfLoop : WriterReady selfLoop := ⟨by decide, rfl, by decide, fun _ k => by cases k⟩

/-- The four clauses: the two passes; TSER on a cycle (X6); TDES on 40 bytes FF (X3). -/
theorem witness_The256thInternalNodeIsRefused :
    (inLoop .serializing { Tc.reset with t_nint := 255 } State.reset).tc.t_nint = 255
      ∧ (inLoop .deserializing { Tc.reset with t_nint := 255 } State.reset).tc.t_nint = 255
      ∧ internalsIn (List.replicate 255 .internal) = 255
      ∧ (WriterReady selfLoop
        ∧ Arena.visits selfLoop.node ((List.replicate 255 Record.internal).length + 1) [0#9]
          = some (List.replicate 255 .internal ++ [.internal]))
      ∧ ReaderReady (srcHolds (List.replicate 40 0xFF#8))
      ∧ unreadBits (srcHolds (List.replicate 40 0xFF#8))
        = (List.replicate 255 Record.internal).flatMap Record.bits ++ true :: List.replicate 64 true
      ∧ ∀ k, leavesIn ((List.replicate 255 Record.internal).take k)
        ≤ internalsIn ((List.replicate 255 Record.internal).take k) :=
  ⟨rfl, rfl, by decide +kernel, ⟨ready_selfLoop, by decide +kernel⟩, ready_srcHolds _, by decide +kernel, fun k => by
    rw [List.take_replicate, leavesIn_replicate_internal]
    exact Nat.zero_le _⟩

theorem witness_SerializationIsSelfDelimiting :
    (Tree.leaf 0x61#8).serialize ++ [true] = (Tree.leaf 0x61#8).serialize ++ [true] := by decide

theorem ready_nodesT1 : WriterReady nodesT1 := ⟨by decide, rfl, by decide, fun _ k => by cases k⟩

theorem witness_TserWritesTheSerialization :
    WriterReady nodesT1 ∧ treeT1.leaves ≤ 256 ∧ Arena.holdsTree nodesT1.node 0#9 treeT1 = true :=
  ⟨ready_nodesT1, by decide, by decide⟩

theorem witness_TdesBuildsTheLayout :
    ReaderReady (srcHolds [0x98#8, 0x66#8, 0x33#8, 0x10#8]) ∧ treeT1.leaves ≤ 256
      ∧ unreadBits (srcHolds [0x98#8, 0x66#8, 0x33#8, 0x10#8]) = treeT1.serialize ++ [false, false, false] :=
  ⟨ready_srcHolds _, by decide, by decide⟩

theorem witness_SuccessfulTdesConsumedATree :
    ReaderReady (srcHolds [0x98#8, 0x66#8, 0x33#8, 0x10#8])
      ∧ exec .tdes (srcHolds [0x98#8, 0x66#8, 0x33#8, 0x10#8])
        = .next (nextOf (exec .tdes (srcHolds [0x98#8, 0x66#8, 0x33#8, 0x10#8])))
      ∧ LastStatus (nextOf (exec .tdes (srcHolds [0x98#8, 0x66#8, 0x33#8, 0x10#8]))) .ok :=
  ⟨ready_srcHolds _, eq_next (by decide +kernel), by decide +kernel⟩

/-- SRC holds the serialization of the tree of V-L1-7 and three padding bits. -/
def streamT1 : State := srcHolds [0x98#8, 0x66#8, 0x33#8, 0x10#8]

/-- Clause (a): T1's bits written by TSER 0, then read from SRC. Clause (b): a TDES that answered OK. -/
theorem witness_TreeRoundTrips :
    (WriterReady nodesT1 ∧ treeT1.leaves ≤ 256 ∧ Arena.holdsTree nodesT1.node 0#9 treeT1 = true
        ∧ exec (.tser 0#9) nodesT1 = .next (nextOf (exec (.tser 0#9) nodesT1))
        ∧ acceptedBits (nextOf (exec (.tser 0#9) nodesT1)) = acceptedBits nodesT1 ++ treeT1.serialize
        ∧ ReaderReady (srcHolds [0x98#8, 0x66#8, 0x33#8, 0x10#8])
        ∧ unreadBits (srcHolds [0x98#8, 0x66#8, 0x33#8, 0x10#8]) = treeT1.serialize ++ [false, false, false])
      ∧ ReaderReady streamT1 ∧ WriterReady streamT1 ∧ exec .tdes streamT1 = .next (nextOf (exec .tdes streamT1))
      ∧ LastStatus (nextOf (exec .tdes streamT1)) .ok
      ∧ unreadBits streamT1 = treeT1.serialize ++ unreadBits (nextOf (exec .tdes streamT1)) :=
  ⟨⟨ready_nodesT1, by decide, by decide, eq_next (by decide +kernel), by decide +kernel, ready_srcHolds _, by decide⟩,
    ready_srcHolds _, ⟨by decide, rfl, by decide, fun _ k => by cases k⟩, eq_next (by decide +kernel), by decide +kernel,
    by decide +kernel⟩

theorem witness_FileIsLaidThroughSink :
    WriterReady nodesT1 ∧ nodesT1.bw = Bw.reset ∧ treeT1.leaves ≤ 256 ∧ 9 < 2 ^ 32
      ∧ Arena.holdsTree nodesT1.node 0#9 treeT1 = true :=
  ⟨ready_nodesT1, rfl, by decide, by decide, by decide⟩

/-- The file of V-L1-7 with a payload of four bits; 32 bits can hold the greatest count. -/
theorem witness_FileIsReadBackFromSrc :
    (ReaderReady (srcHolds (compressedFile treeT1 9 [false, false, true, true]))
        ∧ (srcHolds (compressedFile treeT1 9 [false, false, true, true])).br = Br.reset ∧ treeT1.leaves ≤ 256
        ∧ (srcHolds (compressedFile treeT1 9 [false, false, true, true])).src.bytes.drop
            (srcHolds (compressedFile treeT1 9 [false, false, true, true])).src.src_pos
          = compressedFile treeT1 9 [false, false, true, true])
      ∧ 0xFFFFFFFF < 2 ^ 32 :=
  ⟨⟨ready_srcHolds _, rfl, by decide, rfl⟩, by decide⟩

/-- X2: the last leaf's symbol is cut. -/
theorem witness_TruncatedTreeIsCorrupt :
    ReaderReady (srcHolds [0x98#8, 0x66#8, 0x33#8]) ∧ ([false, false, false, true, false] : List Bool) ≠ []
      ∧ unreadBits (srcHolds [0x98#8, 0x66#8, 0x33#8]) ++ [false, false, false, true, false] = treeT1.serialize :=
  ⟨ready_srcHolds _, by decide, by decide⟩

/-- The two clauses: a TDES refused before its loop, and one that met the end of the stream. -/
theorem witness_FailedTdesLeavesNoTree :
    (exec .tdes failedReader = .next (nextOf (exec .tdes failedReader)) ∧ failedReader.br.r_fail = true)
      ∧ exec .tdes (srcHolds [0x30#8]) = .next (nextOf (exec .tdes (srcHolds [0x30#8])))
      ∧ (srcHolds [0x30#8]).br.r_fail = false ∧ ¬ LastStatus (nextOf (exec .tdes (srcHolds [0x30#8]))) .ok :=
  ⟨⟨eq_next (by decide +kernel), rfl⟩, eq_next (by decide +kernel), rfl, by decide +kernel⟩

/-- The full tree of depth d. -/
def fullTree : Nat → Tree
  | 0 => .leaf 0x61#8
  | d + 1 => .node (fullTree d) (fullTree d)

/-- Ten entries that spell the full tree of depth 9, 512 leaves: each child pair is one shared entry. -/
def sharedTree : State :=
  nodes ((List.range 9).map (fun i => (i, mkEntry true 0#8 (nodeIdx (i + 1)) (nodeIdx (i + 1)))) ++ [(9, 0x1840000#27)])

/-- Node 0 is its own right child; its left child is the leaf at 1. -/
def rightLoop : State := nodes [(0, 0x4000200#27), (1, 0x1840000#27)]

/-- No tree stands at the root of the loop. -/
theorem rightLoop_no_tree (T : Tree) : Arena.holdsTree rightLoop.node 0#9 T = false := by
  induction T with
  | leaf s => rfl
  | node l r _ ihr =>
    show (true && Arena.holdsTree rightLoop.node 1#9 l && Arena.holdsTree rightLoop.node 0#9 r) = false
    rw [ihr, Bool.and_false]

/-- The three clauses: a tree of 512 leaves; a cycle through a right child; a root that is its own left child. -/
theorem witness_CyclicOrTooLargeArenaIsABadTree :
    (WriterReady sharedTree ∧ 256 < (fullTree 9).leaves ∧ Arena.holdsTree sharedTree.node 0#9 (fullTree 9) = true)
      ∧ (WriterReady rightLoop ∧ (0#9 = 0#9 ∨ 0#9 = 1#9)
        ∧ (∀ i : NodeIdx, i = 0#9 ∨ i = 1#9 → ∃ e, memRead rightLoop i = some e
          ∧ (entryKind e = true → (entryLeft e = 0#9 ∨ entryLeft e = 1#9) ∧ (entryRight e = 0#9 ∨ entryRight e = 1#9)))
        ∧ ∀ T : Tree, Arena.holdsTree rightLoop.node 0#9 T = true → 256 < T.leaves)
      ∧ WriterReady selfLoop ∧ memRead selfLoop 0#9 = some 0x4000000#27
      ∧ entryKind 0x4000000#27 = true ∧ entryLeft 0x4000000#27 = 0#9 :=
  ⟨⟨⟨by decide, rfl, by decide, fun _ k => by cases k⟩, by decide +kernel, by decide +kernel⟩,
    ⟨⟨by decide, rfl, by decide, fun _ k => by cases k⟩, .inl rfl, fun i h => by
        rcases h with rfl | rfl
        · exact ⟨0x4000200#27, by decide, by decide⟩
        · exact ⟨0x1840000#27, by decide, by decide⟩,
      fun T h => by rw [rightLoop_no_tree] at h; cases h⟩,
    ready_selfLoop, by decide, by decide, by decide⟩

/-- The two clauses: X16, where the flags of 128 internal nodes fill the buffer once; a TSER that fails and one that does
not. -/
theorem witness_FailedDrainInsideTserAnswersIoErr :
    let s := sinkAnswers [.fail 3] { selfLoop with chunkBytes := 16 }
    (s.bw.w_fail = false ∧ s.bw.w_buf.length < s.chunkBytes
        ∧ Arena.visits s.node 128 [0#9] = some (List.replicate 128 .internal)
        ∧ internalsIn (List.replicate 128 .internal) ≤ 255
        ∧ s.sink.answers = List.replicate 0 .ok ++ .fail 3 :: []
        ∧ (0 + 1) * (8 * s.chunkBytes)
          ≤ 8 * s.bw.w_buf.length + s.bw.w_cnt.val + ((List.replicate 128 Record.internal).flatMap Record.bits).length)
      ∧ exec (.tser 0#9) s = .next (nextOf (exec (.tser 0#9) s)) ∧ (nextOf (exec (.tser 0#9) s)).bw.w_fail = true
      ∧ nodesT1.bw.w_fail = false ∧ exec (.tser 0#9) nodesT1 = .next (nextOf (exec (.tser 0#9) nodesT1)) :=
  ⟨⟨rfl, by decide, by decide +kernel, by decide +kernel, rfl, by decide +kernel⟩, eq_next (by decide +kernel),
    by decide +kernel, rfl, eq_next (by decide +kernel)⟩

theorem witness_TserOfAnUnwrittenRootFaults : State.reset.bw.w_fail = false ∧ memRead State.reset 511#9 = none := by decide

theorem witness_WriterCommandsLeaveTheRestAlone :
    exec (.wbit true) State.reset = .next (nextOf (exec (.wbit true) State.reset))
      ∧ exec (.tser 0#9) nodesT1 = .next (nextOf (exec (.tser 0#9) nodesT1)) :=
  ⟨eq_next (by decide), eq_next (by decide +kernel)⟩

theorem witness_ReaderCommandsLeaveTheRestAlone :
    exec .rbit (srcHolds [0xA5#8]) = .next (nextOf (exec .rbit (srcHolds [0xA5#8])))
      ∧ exec .tdes (srcHolds [0x30#8, 0x80#8]) = .next (nextOf (exec .tdes (srcHolds [0x30#8, 0x80#8]))) :=
  ⟨eq_next (by decide), eq_next (by decide +kernel)⟩

theorem witness_TheTwoSidesDoNotInterfere :
    (Instr.tser 0#9 = .wflush ∨ ∃ root, Instr.tser 0#9 = .tser root) ∧ (Instr.tdes = .rbit ∨ Instr.tdes = .tdes) :=
  ⟨.inr ⟨_, rfl⟩, .inr rfl⟩

theorem witness_CodecCommandsAreRunsOfTheStep :
    (inLoop .serializing Tc.reset nodesT1).phase = .serializing
      ∧ (inLoop .deserializing Tc.reset State.reset).phase = .deserializing
      ∧ nodesT1.bw.w_fail = false ∧ exec (.tser 0#9) nodesT1 = .next (nextOf (exec (.tser 0#9) nodesT1))
      ∧ (srcHolds [0x30#8, 0x80#8]).br.r_fail = false
      ∧ exec .tdes (srcHolds [0x30#8, 0x80#8]) = .next (nextOf (exec .tdes (srcHolds [0x30#8, 0x80#8]))) :=
  ⟨rfl, rfl, rfl, eq_next (by decide +kernel), rfl, eq_next (by decide +kernel)⟩

/-- Each flag goes from 1 to 0 by its own unit's reset. -/
theorem witness_StickyFlagsAreClearedOnlyByResets :
    (hostMove (.command 0x3000#16) failedWriter = .next (nextOf (hostMove (.command 0x3000#16) failedWriter))
        ∧ failedWriter.bw.w_fail = true ∧ (nextOf (hostMove (.command 0x3000#16) failedWriter)).bw.w_fail = false)
      ∧ (hostMove (.command 0x6000#16) failedReader = .next (nextOf (hostMove (.command 0x6000#16) failedReader))
        ∧ failedReader.br.r_fail = true ∧ (nextOf (hostMove (.command 0x6000#16) failedReader)).br.r_fail = false)
      ∧ hostMove .blockReset ended = .next (nextOf (hostMove .blockReset ended))
      ∧ ended.br.r_eos = true ∧ (nextOf (hostMove .blockReset ended)).br.r_eos = false :=
  ⟨⟨eq_next (by decide), rfl, by decide⟩, ⟨eq_next (by decide), rfl, by decide⟩, rfl, rfl, rfl⟩

theorem witness_OnlyTheHostAndTdesWriteNode :
    hostMove (.nodeWrite 7#9 0x0000000#27) nodesT1 = .next (nextOf (hostMove (.nodeWrite 7#9 0x0000000#27) nodesT1))
      ∧ (nextOf (hostMove (.nodeWrite 7#9 0x0000000#27) nodesT1)).node ≠ nodesT1.node :=
  ⟨eq_next (by decide), by decide⟩

theorem witness_SinkIsAppendedToAndSrcIsReadInOrder :
    exec .rbit (srcHolds [0xA5#8]) = .next (nextOf (exec .rbit (srcHolds [0xA5#8])))
      ∧ (srcHolds [0xA5#8]).src.src_pos ≤ (srcHolds [0xA5#8]).src.bytes.length :=
  ⟨eq_next (by decide), by decide⟩

/-- A line that goes on and one that stops. -/
theorem witness_ALineStopsAtTheFirstResponseNotOk :
    (hostMove (.command 0x1001#16) State.reset = .next (nextOf (hostMove (.command 0x1001#16) State.reset))
        ∧ answeredOk State.reset (nextOf (hostMove (.command 0x1001#16) State.reset)) = true)
      ∧ (hostMove (.command 0x4000#16) State.reset = .next (nextOf (hostMove (.command 0x4000#16) State.reset))
        ∧ answeredOk State.reset (nextOf (hostMove (.command 0x4000#16) State.reset)) = false) :=
  ⟨⟨eq_next (by decide), by decide⟩, eq_next (by decide), by decide⟩

end Sys2Proof.Machine.Tests
end

section
/-! How a step runs what it fetches, that a command runs whole, and that TSER and TDES are runs of the step
(00_scope.md R12; 42_treecodec.md R153, R154). -/

namespace Sys2Proof.Machine

/-! ### The step in each phase -/

theorem step_of_idle {s : State} (h : s.phase = .idle) : step s = stepIdle s := by
  simp only [step, h]

theorem step_of_serializing {s : State} (h : s.phase = .serializing) : step s = serializePass s := by
  simp only [step, h, stepSerializing_eq]

theorem step_of_deserializing {s : State} (h : s.phase = .deserializing) : step s = deserializePass s := by
  simp only [step, h, stepDeserializing_eq]

theorem stepIdle_nil {s : State} (h : s.host.pending = []) : stepIdle s = .next s := by
  simp only [stepIdle, h]

theorem stepIdle_cons {s : State} {m : HostMove} {rest : List HostMove} (h : s.host.pending = m :: rest) :
    stepIdle s = hostMove m (dropMove s) := by
  simp only [stepIdle, h]

theorem runCommand_of_instr {w : CmdWord} {i : Instr} (h : decodeCommand w = .instr i) (s : State) :
    runCommand w s = exec i s := by
  simp only [runCommand, h]

/-- The pass on an entry is the entry's instruction (R84, R153). -/
theorem serializePass_of_memRead {s : State} {e : NodeWord} (h : memRead s s.tc.t_cur = some e) :
    serializePass s = exec (decodeEntry e) s := by
  rw [← stepSerializing_eq]
  simp only [stepSerializing, fetchEntry, h, Option.map_some]

/-- The pass on a record is the record's instruction (R88, R154). -/
theorem deserializePass_of_fetchRecord {s t : State} {r : Record} (h : fetchRecord s = .done (some r) t) :
    deserializePass s = exec r.instr t := by
  rw [← stepDeserializing_eq]
  simp only [stepDeserializing, h]

/-- Settles O13, by the phase of the state and what stands next in it. -/
theorem stepRunsTheFetchedInstruction : Obligations.StepRunsTheFetchedInstruction := by
  refine ⟨fun s w rest i hp hw hd => ?_, fun s e i hp he hd => ?_, fun s t r hp hr => ?_, fun s hp hn => ?_⟩
  · rw [step_of_idle hp, stepIdle_cons hw, dropMove_of_pending hw]
    exact runCommand_of_instr hd _
  · have hi : decodeEntry e = i := Decoded.instr.inj hd
    rw [step_of_serializing hp, serializePass_of_memRead he, hi]
  · rw [step_of_deserializing hp, deserializePass_of_fetchRecord hr]
  · rw [step_of_idle hp, stepIdle_nil hn]

/-! ### A command ends idle -/

theorem endCommand_idle {r : Res (Status × BitVec 9)} {t : State} (h : endCommand r = .next t) :
    t.phase = .idle := by
  cases r <;> cases h <;> rfl

/-- The start check of the writer side refuses the command or lets it run (R110). -/
theorem writerSide_cases {s t : State} {body : Result} (h : writerSide s body = .next t) :
    (s.bw.w_fail = true ∧ t = raise .ioError s) ∨ (s.bw.w_fail = false ∧ body = .next t) := by
  unfold writerSide at h
  split at h
  · rename_i hf
    cases h
    exact .inl ⟨hf, rfl⟩
  · rename_i hf
    exact .inr ⟨Bool.eq_false_iff.mpr hf, h⟩

/-- The start check of the reader side refuses the command or lets it run (R130). -/
theorem readerSide_cases {s t : State} {body : Result} (h : readerSide s body = .next t) :
    (s.br.r_fail = true ∧ t = raise .ioError s) ∨ (s.br.r_fail = false ∧ body = .next t) := by
  unfold readerSide at h
  split at h
  · rename_i hf
    cases h
    exact .inl ⟨hf, rfl⟩
  · rename_i hf
    exact .inr ⟨Bool.eq_false_iff.mpr hf, h⟩

theorem writerSide_idle {s t : State} {body : Result} (hb : body = .next t → t.phase = .idle)
    (h : writerSide s body = .next t) : t.phase = .idle := by
  obtain ⟨_, rfl⟩ | ⟨_, h⟩ := writerSide_cases h
  · rfl
  · exact hb h

theorem readerSide_idle {s t : State} {body : Result} (hb : body = .next t → t.phase = .idle)
    (h : readerSide s body = .next t) : t.phase = .idle := by
  obtain ⟨_, rfl⟩ | ⟨_, h⟩ := readerSide_cases h
  · rfl
  · exact hb h

/-- A command of the host leaves no codec loop half done, wherever it starts (R11, R12). -/
theorem exec_command_idle {i : Instr} (hi : i.isCommand = true) {s t : State} (h : exec i s = .next t) :
    t.phase = .idle := by
  cases i with
  | wbit b => exact writerSide_idle endCommand_idle h
  | wflush => exact writerSide_idle endCommand_idle h
  | wrst => cases h; rfl
  | rbit => exact readerSide_idle endCommand_idle h
  | ralign => exact readerSide_idle (fun k => by cases k; rfl) h
  | rrst => cases h; rfl
  | tser root => exact writerSide_idle serializeLoop_idle h
  | tdes => exact readerSide_idle deserializeLoop_idle h
  | leaf sym => cases hi
  | internal => cases hi
  | nodeLeaf sym l r => cases hi
  | nodeInternal sym l r => cases hi

/-- A command word selects none of the data rows (R81). -/
theorem isCommand_of_decodeCommand {w : CmdWord} {i : Instr} (h : decodeCommand w = .instr i) :
    i.isCommand = true := by
  unfold decodeCommand at h
  split_ifs at h <;> cases h <;> rfl

theorem runCommand_idle {w : CmdWord} {s t : State} (h : runCommand w s = .next t) : t.phase = .idle := by
  cases hd : decodeCommand w with
  | instr i =>
    rw [runCommand_of_instr hd] at h
    exact exec_command_idle (isCommand_of_decodeCommand hd) h
  | illegal why =>
    simp only [runCommand, hd] at h
    cases h
    rfl

/-! ### The host's moves -/

theorem hostNodeRead_phase {i : NodeIdx} {s t : State} (h : hostNodeRead i s = .next t) : t.phase = s.phase := by
  unfold hostNodeRead at h
  split at h <;> cases h
  rfl

theorem placeSink_phase {bs : List Byte} {s t : State} (h : placeSink bs s = .next t) : t.phase = s.phase := by
  unfold placeSink at h
  split at h <;> cases h
  rfl

theorem placeSrc_phase {bs : List Byte} {pos : Nat} {s t : State} (h : placeSrc bs pos s = .next t) :
    t.phase = s.phase := by
  unfold placeSrc at h
  split_ifs at h
  cases h
  rfl

theorem hostMove_idle {m : HostMove} {s t : State} (hs : s.phase = .idle) (h : hostMove m s = .next t) :
    t.phase = .idle := by
  cases m with
  | command w => exact runCommand_idle h
  | nodeRead i => exact (hostNodeRead_phase h).trans hs
  | nodeWrite i v => cases h; exact hs
  | blockReset => cases h; rfl
  | placeSink bs => exact (placeSink_phase h).trans hs
  | placeSrc bs pos => exact (placeSrc_phase h).trans hs

/-- Settles O12: the step makes one move of the host, and every move ends idle. -/
theorem stepsBetweenCommandsStayBetweenCommands : Obligations.StepsBetweenCommandsStayBetweenCommands := by
  intro s t hs h
  rw [step_of_idle hs] at h
  cases hm : s.host.pending with
  | nil =>
    rw [stepIdle_nil hm] at h
    cases h
    exact hs
  | cons m rest =>
    rw [stepIdle_cons hm] at h
    exact hostMove_idle (s := dropMove s) hs h

/-! ### A codec loop is a run of the step -/

theorem stepTimes_succ {n : Nat} {s u : State} (h : step s = .next u) : stepTimes (n + 1) s = stepTimes n u := by
  simp only [stepTimes, h]

/-- A loop whose passes are steps in its own phase `p`, and leave that phase only to end, comes to as many steps as it
makes passes. -/
theorem stepTimes_of_codecLoop {pass : State → Result} {p : Phase} (hstep : ∀ u, u.phase = p → step u = pass u)
    (hphase : ∀ u v, pass u = .next v → v.phase = .idle ∨ v.phase = p) (n : Nat) {s t : State}
    (hs : s.phase = .idle ∨ s.phase = p) (h : codecLoop pass n s = .next t) : ∃ k, stepTimes k s = .next t := by
  induction n generalizing s with
  | zero => exact ⟨0, h⟩
  | succ n ih =>
    by_cases hi : s.phase = .idle
    · rw [codecLoop_idle pass _ hi] at h
      exact ⟨0, h⟩
    · rw [codecLoop_succ pass n hi] at h
      cases hq : pass s with
      | next u =>
        rw [hq] at h
        obtain ⟨k, hk⟩ := ih (hphase s u hq) h
        have hsu : step s = .next u := (hstep s (hs.resolve_left hi)).trans hq
        exact ⟨k + 1, (stepTimes_succ hsu).trans hk⟩
      | fault f => rw [hq] at h; cases h
      | refused r => rw [hq] at h; cases h

/-- TSER's loop comes to steps of the machine (R153). -/
theorem stepTimes_of_serializeLoop {n : Nat} {s t : State} (hs : s.phase = .serializing)
    (h : codecLoop serializePass n s = .next t) : ∃ k, stepTimes k s = .next t :=
  stepTimes_of_codecLoop (fun _ => step_of_serializing) (fun _ _ hq => (serializePass_spec hq).phase) n (.inr hs) h

/-- TDES's loop comes to steps of the machine (R154). -/
theorem stepTimes_of_deserializeLoop {n : Nat} {s t : State} (hs : s.phase = .deserializing)
    (h : codecLoop deserializePass n s = .next t) : ∃ k, stepTimes k s = .next t :=
  stepTimes_of_codecLoop (fun _ => step_of_deserializing) (fun _ _ hq => (deserializePass_spec hq).phase) n (.inr hs) h

/-- With the writer working, TSER is its loop (R110, R153). -/
theorem execTser_of_noFail {s : State} (hf : s.bw.w_fail = false) (root : NodeIdx) :
    execTser root s = codecLoop serializePass codecFuel (startCodec .serializing root s.tc.t_next s) := by
  simp only [execTser, writerSide, hf, Bool.false_eq_true, if_false]

/-- With the reader working, TDES is its loop (R130, R154). -/
theorem execTdes_of_noFail {s : State} (hf : s.br.r_fail = false) :
    execTdes s = codecLoop deserializePass codecFuel (startCodec .deserializing s.tc.t_cur 0 s) := by
  simp only [execTdes, readerSide, hf, Bool.false_eq_true, if_false]

/-- Settles O55: a step between two passes is the pass, so each loop is the run of the step from its start. -/
theorem codecCommandsAreRunsOfTheStep : Obligations.CodecCommandsAreRunsOfTheStep := by
  refine ⟨fun _ => step_of_serializing, fun _ => step_of_deserializing, fun root s t hf h => ?_, fun s t hf h => ?_⟩
  · have hl := (execTser_of_noFail hf root).symm.trans h
    obtain ⟨n, hn⟩ := stepTimes_of_serializeLoop rfl hl
    exact ⟨n, hn, serializeLoop_idle hl⟩
  · have hl := (execTdes_of_noFail hf).symm.trans h
    obtain ⟨n, hn⟩ := stepTimes_of_deserializeLoop rfl hl
    exact ⟨n, hn, deserializeLoop_idle hl⟩

end Sys2Proof.Machine
end

section
/-! What every instruction guarantees, said once for each side of the block: the frame, the unit's invariant, and what
only ever moves one way (10_state.md R25, R26, R29, R30, R37; 20_memory.md R53, R54). -/

namespace Sys2Proof.Machine

/-- A value computed from the result does not touch the state left. -/
theorem Res.leaves_bind_done {α β : Type} {P : State → Prop} {r : Res α} (f : α → β) (hr : r.leaves P) :
    (r.bind fun a t => .done (f a) t).leaves P := by
  cases r <;> exact hr

/-! ### The writer side only moves forward -/

/-- A failure stays recorded, and SINK is only appended to (R25, R53). -/
structure WriterMonotone (s t : State) : Prop where
  fail : s.bw.w_fail = true → t.bw.w_fail = true
  sink : s.sink.bytes <+: t.sink.bytes

theorem WriterMonotone.refl (s : State) : WriterMonotone s s := ⟨id, List.prefix_refl _⟩

theorem WriterMonotone.trans {s t u : State} (h : WriterMonotone s t) (k : WriterMonotone t u) : WriterMonotone s u :=
  ⟨k.fail ∘ h.fail, h.sink.trans k.sink⟩

theorem WriterMonotone.of_eq {s t : State} (hb : t.bw = s.bw) (hs : t.sink = s.sink) : WriterMonotone s t :=
  ⟨by rw [hb]; exact id, by rw [hs]⟩

theorem drain_monotone (s : State) : (drain s).leaves (WriterMonotone s) := by
  obtain ⟨_, h⟩ | ⟨_, _, h⟩ | ⟨_, k, _, h⟩ := drain_cases s <;> rw [h]
  · exact .refl s
  · exact ⟨id, List.prefix_append _ _⟩
  · exact ⟨fun _ => rfl, List.prefix_append _ _⟩

theorem pushByte_monotone (byte : Byte) (s : State) : WriterMonotone s (pushByte byte s) := ⟨id, List.prefix_refl _⟩

theorem writeBit_monotone (b : Bool) (s : State) : (writeBit b s).leaves (WriterMonotone s) := by
  obtain ⟨_, h⟩ | ⟨_, _, h⟩ | ⟨_, _, h⟩ := writeBit_cases b s <;> rw [h]
  · exact ⟨id, List.prefix_refl _⟩
  · exact pushByte_monotone _ s
  · exact Res.leaves_mono (drain_monotone _) fun _ => (pushByte_monotone _ s).trans

theorem writeBitList_monotone (bs : List Bool) (s : State) : (writeBitList bs s).leaves (WriterMonotone s) := by
  induction bs generalizing s with
  | nil => exact .refl s
  | cons b bs ih =>
    exact Res.leaves_bind (writeBit_monotone b s) (fun _ h => h) fun _ t h => Res.leaves_mono (ih t) fun _ => h.trans

theorem completeByte_monotone (s : State) : WriterMonotone s (completeByte s) := by
  unfold completeByte
  split
  · exact .refl s
  · exact pushByte_monotone _ s

theorem flush_monotone (s : State) : (flush s).leaves (WriterMonotone s) :=
  Res.leaves_bind_done (fun _ => bitsToBoundary s.bw.w_cnt)
    (Res.leaves_mono (drain_monotone _) fun _ => (completeByte_monotone s).trans)

/-! ### The reader side only moves forward -/

/-- A failure and the end of the stream stay recorded, and SRC is read in order and within its bytes (R29, R37, R54). -/
structure ReaderMonotone (s t : State) : Prop where
  fail : s.br.r_fail = true → t.br.r_fail = true
  eos : s.br.r_eos = true → t.br.r_eos = true
  pos : s.src.src_pos ≤ t.src.src_pos
  bound : s.src.src_pos ≤ s.src.bytes.length → t.src.src_pos ≤ t.src.bytes.length

theorem ReaderMonotone.refl (s : State) : ReaderMonotone s s := ⟨id, id, Nat.le_refl _, id⟩

theorem ReaderMonotone.trans {s t u : State} (h : ReaderMonotone s t) (k : ReaderMonotone t u) : ReaderMonotone s u :=
  ⟨k.fail ∘ h.fail, k.eos ∘ h.eos, h.pos.trans k.pos, k.bound ∘ h.bound⟩

theorem ReaderMonotone.of_eq {s t : State} (hb : t.br = s.br) (hs : t.src = s.src) : ReaderMonotone s t :=
  ⟨by rw [hb]; exact id, by rw [hb]; exact id, by rw [hs], by rw [hs]; exact id⟩

theorem advanceCursor_r_eos (s : State) : (advanceCursor s).br.r_eos = s.br.r_eos := by
  unfold advanceCursor
  split <;> rfl

theorem advanceCursor_monotone (s : State) : ReaderMonotone s (advanceCursor s) :=
  ⟨by simp [advanceCursor_r_fail], by simp [advanceCursor_r_eos], by simp, by simp⟩

theorem alignCursor_monotone (s : State) : ReaderMonotone s (alignCursor s) := by
  unfold alignCursor
  split
  · exact .refl s
  · exact ⟨id, id, Nat.le_refl _, id⟩

/-- A Data answer carries no more bytes than are left, whatever CHUNK_BYTES is (R54). -/
theorem dataCount_le_left {s : State} {first : Byte} {rest : List Byte} (hl : srcLeft s = first :: rest) (k : Nat) :
    dataCount k s ≤ s.src.bytes.length - s.src.src_pos := by
  have hlen := length_srcLeft s
  rw [hl, List.length_cons] at hlen
  have hmost := (mostBytes_le s).2
  unfold dataCount
  omega

theorem refilled_monotone {s : State} (he : s.br.r_eos = false) {first : Byte} {rest : List Byte}
    (hl : srcLeft s = first :: rest) (k : Nat) : ReaderMonotone s (refilled k first rest s) := by
  have hle := dataCount_le_left hl k
  refine ⟨id, by simp [he], Nat.le_add_right _ _, fun hb => ?_⟩
  show s.src.src_pos + dataCount k s ≤ s.src.bytes.length
  omega

theorem readBit_monotone (s : State) : (readBit s).leaves (ReaderMonotone s) := by
  obtain ⟨b, _, h⟩ | ⟨_, _, h⟩ | ⟨_, _, _, _, h⟩ | ⟨_, he, k, f, r, _, hl, h⟩ | ⟨_, _, a, _, h⟩ :=
    readBit_cases s <;> rw [h]
  · exact advanceCursor_monotone s
  · exact .refl s
  · exact ⟨id, fun _ => rfl, Nat.le_refl _, id⟩
  · exact (refilled_monotone he hl k).trans (advanceCursor_monotone _)
  · have hmost := (mostBytes_le s).2
    refine ⟨fun _ => rfl, id, Nat.le_add_right _ _, fun hb => ?_⟩
    show s.src.src_pos + min a (mostBytes s) ≤ s.src.bytes.length
    omega

theorem readBitList_monotone (n : Nat) (s : State) : (readBitList n s).leaves (ReaderMonotone s) := by
  induction n generalizing s with
  | zero => exact .refl s
  | succ n ih =>
    refine Res.leaves_bind (readBit_monotone s) (fun _ h => h) fun r t h => ?_
    cases r with
    | none => exact h
    | some b => exact Res.leaves_bind (ih t) (fun _ => h.trans) fun _ _ => h.trans

theorem fetchRecord_monotone (s : State) : (fetchRecord s).leaves (ReaderMonotone s) :=
  fetchRecord_leaves (readBit_monotone s) fun t h =>
    Res.leaves_bind (readBitList_monotone 8 t) (fun _ => h.trans) fun _ _ => h.trans

/-! ### What an instruction of the writer side guarantees, WRST apart -/

/-- The frame of the writer side, the writer's invariant, and its one direction. -/
structure WriterStep (s t : State) : Prop where
  frame : SerializeFrame s t
  ok : WriterOk s → WriterOk t
  mono : WriterMonotone s t

theorem WriterStep.refl (s : State) : WriterStep s s := ⟨.refl s, id, .refl s⟩

theorem WriterStep.trans {s t u : State} (h : WriterStep s t) (k : WriterStep t u) : WriterStep s u :=
  ⟨h.frame.trans k.frame, k.ok ∘ h.ok, h.mono.trans k.mono⟩

theorem WriterStep.respond {s t : State} (h : WriterStep s t) (st : Status) (d : BitVec 9) :
    WriterStep s (respond st d t) :=
  h.trans ⟨⟨rfl, rfl, rfl, rfl, rfl, rfl⟩, id, .of_eq rfl rfl⟩

theorem startCodec_writerStep (p : Phase) (cur : NodeIdx) (next : Nat) (s : State) :
    WriterStep s (startCodec p cur next s) :=
  ⟨⟨rfl, rfl, rfl, rfl, rfl, rfl⟩, id, .of_eq rfl rfl⟩

theorem WriterStep.leaves {α : Type} {s : State} {r : Res α} (hf : r.leaves (WriterFrame s))
    (hok : WriterOk s → r.leaves WriterOk) (hm : r.leaves (WriterMonotone s)) : r.leaves (WriterStep s) := by
  cases r <;> exact ⟨WriterFrame.serialize hf, hok, hm⟩

theorem writeBit_step (b : Bool) (s : State) : (writeBit b s).leaves (WriterStep s) :=
  WriterStep.leaves (writeBit_frame b s) (writeBit_writerOk b) (writeBit_monotone b s)

theorem flush_step (s : State) : (flush s).leaves (WriterStep s) :=
  WriterStep.leaves (flush_frame s) flush_writerOk (flush_monotone s)

/-- What a property of an internal operation says of the command that ends with it (R11). -/
theorem endCommand_keeps {P : State → Prop} {r : Res (Status × BitVec 9)} {t : State} (hr : r.leaves P)
    (hrespond : ∀ st d u, P u → P (respond st d u)) (h : endCommand r = .next t) : P t := by
  cases r <;> cases h <;> exact hrespond _ _ _ hr

theorem writerSide_step {s t : State} {body : Result} (hb : body = .next t → WriterStep s t)
    (h : writerSide s body = .next t) : WriterStep s t := by
  obtain ⟨_, rfl⟩ | ⟨_, h⟩ := writerSide_cases h
  · exact (WriterStep.refl s).respond _ _
  · exact hb h

theorem execWbit_step {b : Bool} {s t : State} (h : execWbit b s = .next t) : WriterStep s t :=
  writerSide_step (endCommand_keeps (P := WriterStep s)
    (Res.leaves_bind_done _ (writeBit_step b s)) fun st d _ k => k.respond st d) h

theorem execWflush_step {s t : State} (h : execWflush s = .next t) : WriterStep s t :=
  writerSide_step (endCommand_keeps (P := WriterStep s)
    (Res.leaves_bind_done _ (flush_step s)) fun st d _ k => k.respond st d) h

theorem execNodeLeaf_step {sym : Symbol} {l r : NodeIdx} {s t : State} (h : execNodeLeaf sym l r s = .next t) :
    WriterStep s t := by
  obtain ⟨frame, ok, _, _⟩ := execNodeLeaf_spec h
  refine ⟨frame, ok, ?_⟩
  have hm := writeBitList_monotone (leafRecord sym) s
  obtain ⟨e, u, hw, h'⟩ | ⟨u, hw, _, h'⟩ | ⟨u, top, below, hw, _, h'⟩ := execNodeLeaf_cases sym l r s <;>
    rw [h'] at h <;> cases h
  · exact (Res.leaves_raised hm hw).trans (.of_eq rfl rfl)
  · exact (Res.leaves_done hm hw).trans (.of_eq rfl rfl)
  · exact (Res.leaves_done hm hw).trans (.of_eq rfl rfl)

theorem execNodeInternal_step {sym : Symbol} {l r : NodeIdx} {s t : State}
    (h : execNodeInternal sym l r s = .next t) : WriterStep s t := by
  obtain ⟨frame, ok, _, _⟩ := execNodeInternal_spec h
  refine ⟨frame, ok, ?_⟩
  have hm := writeBit_monotone true s
  obtain ⟨_, h'⟩ | ⟨_, e, u, hw, h'⟩ | ⟨_, u, hw, h'⟩ := execNodeInternal_cases sym l r s <;>
    rw [h'] at h <;> cases h
  · exact .of_eq rfl rfl
  · exact (Res.leaves_raised hm hw).trans (.of_eq rfl rfl)
  · exact (Res.leaves_done hm hw).trans (.of_eq rfl rfl)

theorem serializePass_step {s t : State} (h : serializePass s = .next t) : WriterStep s t := by
  unfold serializePass at h
  split at h
  · cases h
  · split at h
    · exact execNodeInternal_step h
    · exact execNodeLeaf_step h

theorem execTser_step {root : NodeIdx} {s t : State} (h : execTser root s = .next t) : WriterStep s t :=
  writerSide_step (codecLoop_keeps (P := WriterStep s) (fun _ _ hu _ hp => hu.trans (serializePass_step hp)) codecFuel
    (startCodec_writerStep .serializing root s.tc.t_next s)) h

/-! ### What an instruction of the reader side guarantees, RRST apart -/

/-- The frame of the reader side, the reader's invariant, NODE's canonical form, and the reader's one direction. -/
structure ReaderStep (s t : State) : Prop where
  frame : DeserializeFrame s t
  ok : ReaderOk s → ReaderOk t
  wf : Arena.wf s.node = true → Arena.wf t.node = true
  mono : ReaderMonotone s t

theorem ReaderStep.refl (s : State) : ReaderStep s s := ⟨.refl s, id, id, .refl s⟩

theorem ReaderStep.trans {s t u : State} (h : ReaderStep s t) (k : ReaderStep t u) : ReaderStep s u :=
  ⟨h.frame.trans k.frame, k.ok ∘ h.ok, k.wf ∘ h.wf, h.mono.trans k.mono⟩

theorem ReaderStep.respond {s t : State} (h : ReaderStep s t) (st : Status) (d : BitVec 9) :
    ReaderStep s (respond st d t) :=
  h.trans ⟨⟨rfl, rfl, rfl, rfl, rfl, rfl⟩, id, id, .of_eq rfl rfl⟩

theorem startCodec_readerStep (p : Phase) (cur : NodeIdx) (next : Nat) (s : State) :
    ReaderStep s (startCodec p cur next s) :=
  ⟨⟨rfl, rfl, rfl, rfl, rfl, rfl⟩, id, id, .of_eq rfl rfl⟩

/-- What RBIT and RALIGN guarantee: besides, they leave NODE alone. -/
def ReaderCommandStep (s t : State) : Prop := ReaderStep s t ∧ t.node = s.node

theorem ReaderFrame.commandStep {s t : State} (hf : ReaderFrame s t) (hok : ReaderOk s → ReaderOk t)
    (hm : ReaderMonotone s t) : ReaderCommandStep s t :=
  ⟨⟨hf.deserialize, hok, fun k => by rw [hf.node]; exact k, hm⟩, hf.node⟩

theorem readBit_step (s : State) : (readBit s).leaves (ReaderCommandStep s) := by
  have hf := readBit_frame s
  have hok := readBit_readerOk (s := s)
  have hm := readBit_monotone s
  cases hr : readBit s <;> rw [hr] at hf hok hm <;> exact ReaderFrame.commandStep hf hok hm

theorem alignCursor_frame (s : State) : ReaderFrame s (alignCursor s) :=
  ⟨by simp, by simp, by simp, by simp, by simp, by simp, by simp, by simp⟩

theorem readerSide_commandStep {s t : State} {body : Result} (hb : body = .next t → ReaderCommandStep s t)
    (h : readerSide s body = .next t) : ReaderCommandStep s t := by
  obtain ⟨_, rfl⟩ | ⟨_, h⟩ := readerSide_cases h
  · exact ⟨(ReaderStep.refl s).respond _ _, rfl⟩
  · exact hb h

theorem execRbit_step {s t : State} (h : execRbit s = .next t) : ReaderCommandStep s t := by
  refine readerSide_commandStep (endCommand_keeps ?_ fun st d _ k => ⟨k.1.respond st d, k.2⟩) h
  refine Res.leaves_bind (readBit_step s) (fun _ k => k) fun r t k => ?_
  cases r <;> exact k

theorem execRalign_step {s t : State} (h : execRalign s = .next t) : ReaderCommandStep s t := by
  refine readerSide_commandStep (fun hb => ?_) h
  cases hb
  obtain ⟨hs, hn⟩ := (alignCursor_frame s).commandStep readerOk_alignCursor (alignCursor_monotone s)
  exact ⟨hs.respond _ _, hn⟩

/-- A pass of TDES touches the reader and SRC only by fetching its record (R154). -/
theorem execRecord_br_src {r : Record} {s t : State} (h : execRecord r s = .next t) : t.br = s.br ∧ t.src = s.src := by
  cases r with
  | leaf sym =>
    unfold execRecord execLeaf linkRight at h
    simp only at h
    split at h <;> cases h <;> exact ⟨rfl, rfl⟩
  | internal =>
    unfold execRecord execInternal at h
    simp only at h
    split at h <;> cases h <;> exact ⟨rfl, rfl⟩

theorem execRecord_step {r : Record} {s t : State} (h : execRecord r s = .next t) : ReaderStep s t := by
  obtain ⟨frame, ok, wf, _, _⟩ := execRecord_spec h
  obtain ⟨hb, hs⟩ := execRecord_br_src h
  exact ⟨frame, ok, wf, .of_eq hb hs⟩

theorem deserializePass_step {s t : State} (h : deserializePass s = .next t) : ReaderStep s t := by
  obtain ⟨frame, ok, wf, _, _⟩ := deserializePass_spec h
  refine ⟨frame, ok, wf, ?_⟩
  have hm := fetchRecord_monotone s
  obtain ⟨r, u, hf, h'⟩ | ⟨u, hf, h'⟩ | ⟨e, u, hf, h'⟩ := deserializePass_cases s <;> rw [h'] at h
  · exact (Res.leaves_done hm hf).trans (execRecord_step h).mono
  · cases h
    exact (Res.leaves_done hm hf).trans (.of_eq rfl rfl)
  · cases h
    exact (Res.leaves_raised hm hf).trans (.of_eq rfl rfl)

theorem execTdes_step {s t : State} (h : execTdes s = .next t) : ReaderStep s t := by
  obtain ⟨_, rfl⟩ | ⟨_, h⟩ := readerSide_cases h
  · exact (ReaderStep.refl s).respond _ _
  · exact codecLoop_keeps (P := ReaderStep s) (fun _ _ hu _ hp => hu.trans (deserializePass_step hp)) codecFuel
      (startCodec_readerStep .deserializing s.tc.t_cur 0 s) h

/-! ### What any instruction guarantees -/

/-- An instruction is one of the two unit resets, or works on the writer side, or on the reader side; there only TDES
and its two records write NODE. -/
theorem exec_cases {i : Instr} {s t : State} (h : exec i s = .next t) :
    (i = .wrst ∧ t = respond .ok 0#9 (resetWriter s))
    ∨ (i = .rrst ∧ t = respond .ok 0#9 (resetReader s))
    ∨ WriterStep s t
    ∨ (ReaderStep s t ∧ (i.isCommand = true → i ≠ .tdes → t.node = s.node)) := by
  cases i with
  | wrst => cases h; exact .inl ⟨rfl, rfl⟩
  | rrst => cases h; exact .inr (.inl ⟨rfl, rfl⟩)
  | wbit b => exact .inr (.inr (.inl (execWbit_step h)))
  | wflush => exact .inr (.inr (.inl (execWflush_step h)))
  | tser root => exact .inr (.inr (.inl (execTser_step h)))
  | nodeLeaf sym l r => exact .inr (.inr (.inl (execNodeLeaf_step (l := l) (r := r) h)))
  | nodeInternal sym l r => exact .inr (.inr (.inl (execNodeInternal_step (sym := sym) h)))
  | rbit => exact .inr (.inr (.inr ⟨(execRbit_step h).1, fun _ _ => (execRbit_step h).2⟩))
  | ralign => exact .inr (.inr (.inr ⟨(execRalign_step h).1, fun _ _ => (execRalign_step h).2⟩))
  | tdes => exact .inr (.inr (.inr ⟨execTdes_step h, fun _ hne => absurd rfl hne⟩))
  | leaf sym => exact .inr (.inr (.inr ⟨execRecord_step (r := .leaf sym) h, fun hc => by cases hc⟩))
  | internal => exact .inr (.inr (.inr ⟨execRecord_step (r := .internal) h, fun hc => by cases hc⟩))

/-! ### What a move of the host can do -/

/-- A command word that is answered runs its instruction or is answered ILLEGAL (R86, R178). -/
theorem runCommand_cases {w : CmdWord} {s t : State} (h : runCommand w s = .next t) :
    (∃ i, decodeCommand w = .instr i ∧ exec i s = .next t) ∨ t = answerIllegal s := by
  cases hd : decodeCommand w with
  | instr i => exact .inl ⟨i, rfl, (runCommand_of_instr hd s).symm.trans h⟩
  | illegal why =>
    simp only [runCommand, hd] at h
    cases h
    exact .inr rfl

theorem hostNodeRead_cases {i : NodeIdx} {s t : State} (h : hostNodeRead i s = .next t) :
    ∃ v, memRead s i = some v ∧ t = { s with host := { s.host with nodeReads := s.host.nodeReads ++ [v] } } := by
  cases hv : memRead s i with
  | none => simp only [hostNodeRead, hv] at h; cases h
  | some v =>
    simp only [hostNodeRead, hv] at h
    cases h
    exact ⟨v, rfl, rfl⟩

theorem placeSink_cases {bs : List Byte} {s t : State} (h : placeSink bs s = .next t) :
    s.bw = Bw.reset ∧ t = { s with sink := { s.sink with bytes := bs } } := by
  unfold placeSink at h
  split at h <;> cases h
  exact ⟨beq_iff_eq.mp ‹_›, rfl⟩

theorem placeSrc_cases {bs : List Byte} {pos : Nat} {s t : State} (h : placeSrc bs pos s = .next t) :
    s.br = Br.reset ∧ pos ≤ bs.length ∧ t = { s with src := { s.src with bytes := bs, src_pos := pos } } := by
  unfold placeSrc at h
  split at h
  · split at h <;> cases h
    exact ⟨beq_iff_eq.mp ‹_›, ‹_›, rfl⟩
  · cases h

/-- A host move is block reset, or runs an instruction, or leaves BW and BR alone and of NODE changes only what the
host writes. -/
theorem hostMove_cases {m : HostMove} {s t : State} (h : hostMove m s = .next t) :
    m = .blockReset
    ∨ (∃ w i, m = .command w ∧ decodeCommand w = .instr i ∧ exec i s = .next t)
    ∨ (t.bw = s.bw ∧ t.br = s.br ∧ (t.node = s.node ∨ ∃ i v, m = .nodeWrite i v)) := by
  cases m with
  | command w =>
    obtain ⟨i, hd, hi⟩ | rfl := runCommand_cases h
    · exact .inr (.inl ⟨w, i, rfl, hd, hi⟩)
    · exact .inr (.inr ⟨rfl, rfl, .inl rfl⟩)
  | nodeRead i =>
    obtain ⟨_, _, rfl⟩ := hostNodeRead_cases h
    exact .inr (.inr ⟨rfl, rfl, .inl rfl⟩)
  | nodeWrite i v => cases h; exact .inr (.inr ⟨rfl, rfl, .inr ⟨i, v, rfl⟩⟩)
  | blockReset => exact .inl rfl
  | placeSink bs =>
    obtain ⟨_, rfl⟩ := placeSink_cases h
    exact .inr (.inr ⟨rfl, rfl, .inl rfl⟩)
  | placeSrc bs pos =>
    obtain ⟨_, _, rfl⟩ := placeSrc_cases h
    exact .inr (.inr ⟨rfl, rfl, .inl rfl⟩)

/-- WRST, RRST and TDES have no operand, so each is one word (R81). -/
theorem word_of_decodeCommand {w : CmdWord} {i : Instr} (h : decodeCommand w = .instr i) :
    (i = .wrst → w = 0x3000#16) ∧ (i = .rrst → w = 0x6000#16) ∧ (i = .tdes → w = 0x9000#16) := by
  have hmask : w &&& 0xFFFF#16 = w := BitVec.and_allOnes
  unfold decodeCommand at h
  simp only [hmask] at h
  split_ifs at h <;> cases h <;> simp [*]

end Sys2Proof.Machine
end

section
/-! The state's own statements (10_state.md R22 to R37): the reset table, the invariant of the machine, the sticky
flags, who writes NODE, SINK and SRC, and one bit at a time through the writer and at the end of the reader. -/

namespace Sys2Proof.Machine

/-! ### The invariant of the machine -/

/-- The invariant without its part about the codec's registers, which says nothing between commands. -/
structure UnitsOk (s : State) : Prop where
  writer : WriterOk s
  reader : ReaderOk s
  wf : Arena.wf s.node = true

theorem inv_iff (s : State) : Inv s ↔ UnitsOk s ∧ CodecInv s :=
  ⟨fun ⟨hc, hn, hw, hr, hk⟩ => ⟨⟨⟨hc, hw⟩, ⟨hc, hr⟩, hn⟩, hk⟩,
    fun ⟨⟨⟨hc, hw⟩, ⟨_, hr⟩, hn⟩, hk⟩ => ⟨hc, hn, hw, hr, hk⟩⟩

theorem WriterOk.congr {s t : State} (h : WriterOk s) (hc : t.chunkBytes = s.chunkBytes) (hb : t.bw = s.bw) :
    WriterOk t := by
  unfold WriterOk WriterInv at *
  rw [hc, hb]
  exact h

theorem ReaderOk.congr {s t : State} (h : ReaderOk s) (hc : t.chunkBytes = s.chunkBytes) (hb : t.br = s.br)
    (hs : t.src = s.src) : ReaderOk t := by
  unfold ReaderOk ReaderInv at *
  rw [hc, hb, hs]
  exact h

theorem writerOk_of_reset {s : State} (hc : 1 ≤ s.chunkBytes) (hb : s.bw = Bw.reset) : WriterOk s :=
  ⟨hc, fun _ => by rw [hb]; exact ⟨lowZero_zero _, hc⟩⟩

theorem readerOk_of_reset {s : State} (hc : 1 ≤ s.chunkBytes) (hb : s.br = Br.reset)
    (hs : s.src.src_pos ≤ s.src.bytes.length) : ReaderOk s :=
  ⟨hc, hs, fun _ => by rw [hb]; simp [Br.reset]⟩

theorem UnitsOk.writerStep {s t : State} (h : UnitsOk s) (k : WriterStep s t) : UnitsOk t :=
  ⟨k.ok h.writer, h.reader.congr k.frame.chunkBytes k.frame.br k.frame.src, by rw [k.frame.node]; exact h.wf⟩

theorem UnitsOk.readerStep {s t : State} (h : UnitsOk s) (k : ReaderStep s t) : UnitsOk t :=
  ⟨h.writer.congr k.frame.chunkBytes k.frame.bw, k.ok h.reader, k.wf h.wf⟩

theorem exec_unitsOk {i : Instr} {s t : State} (hs : UnitsOk s) (h : exec i s = .next t) : UnitsOk t := by
  obtain ⟨_, rfl⟩ | ⟨_, rfl⟩ | hw | ⟨hr, _⟩ := exec_cases h
  · exact ⟨writerOk_of_reset hs.writer.1 rfl, hs.reader, hs.wf⟩
  · exact ⟨hs.writer, readerOk_of_reset hs.reader.1 rfl hs.reader.2.1, hs.wf⟩
  · exact hs.writerStep hw
  · exact hs.readerStep hr

theorem hostMove_unitsOk {m : HostMove} {s t : State} (hs : UnitsOk s) (h : hostMove m s = .next t) : UnitsOk t := by
  cases m with
  | command w =>
    obtain ⟨i, _, hi⟩ | rfl := runCommand_cases h
    · exact exec_unitsOk hs hi
    · exact ⟨hs.writer, hs.reader, hs.wf⟩
  | nodeRead i =>
    obtain ⟨_, _, rfl⟩ := hostNodeRead_cases h
    exact ⟨hs.writer, hs.reader, hs.wf⟩
  | nodeWrite i v => cases h; exact ⟨hs.writer, hs.reader, wf_memWrite i v hs.wf⟩
  | blockReset =>
    cases h
    exact ⟨writerOk_of_reset hs.writer.1 rfl, readerOk_of_reset hs.reader.1 rfl hs.reader.2.1, Arena.wf_nil⟩
  | placeSink bs =>
    obtain ⟨_, rfl⟩ := placeSink_cases h
    exact ⟨hs.writer, hs.reader, hs.wf⟩
  | placeSrc bs pos =>
    obtain ⟨hb, hpos, rfl⟩ := placeSrc_cases h
    exact ⟨hs.writer, readerOk_of_reset hs.reader.1 hb hpos, hs.wf⟩

theorem stepIdle_unitsOk {s t : State} (hs : UnitsOk s) (h : stepIdle s = .next t) : UnitsOk t := by
  cases hm : s.host.pending with
  | nil =>
    rw [stepIdle_nil hm] at h
    cases h
    exact hs
  | cons m rest =>
    rw [stepIdle_cons hm] at h
    exact hostMove_unitsOk (s := dropMove s) ⟨hs.writer, hs.reader, hs.wf⟩ h

/-- Between commands the codec's registers are not spoken of (R152). -/
theorem codecInv_of_idle {s : State} (h : s.phase = .idle) : CodecInv s := fun hp => absurd h hp

theorem serializePass_codecInv {s t : State} (hp : s.phase = .serializing) (hs : CodecInv s)
    (h : serializePass s = .next t) : CodecInv t := by
  obtain ⟨hbal, hmax, _⟩ := hs (by rw [hp]; simp)
  obtain ⟨_, _, ph, codec⟩ := serializePass_spec h
  rcases ph with ph | ph
  · exact codecInv_of_idle ph
  · obtain ⟨hbal', hmax', _⟩ := codec ph hbal hmax
    exact fun _ => ⟨hbal', hmax', fun hd => by rw [ph] at hd; cases hd⟩

theorem deserializePass_codecInv {s t : State} (hp : s.phase = .deserializing) (hs : CodecInv s)
    (h : deserializePass s = .next t) : CodecInv t := by
  obtain ⟨hbal, hmax, hnext⟩ := hs (by rw [hp]; simp)
  obtain ⟨_, _, _, ph, codec⟩ := deserializePass_spec h
  rcases ph with ph | ph
  · exact codecInv_of_idle ph
  · obtain ⟨hbal', hmax', hseen, hnext'⟩ := codec ph hbal hmax
    refine fun _ => ⟨hbal', hmax', fun _ => ?_⟩
    have hbuilt := hnext hp
    unfold nodesSeen at hseen
    omega

/-- Settles O11, by the phase: a step is a host move, which ends idle, or a pass of the loop that is under way. -/
theorem stepKeepsTheInvariant : Obligations.StepKeepsTheInvariant := by
  intro s t hs h
  rw [inv_iff] at hs ⊢
  obtain ⟨hu, hc⟩ := hs
  cases hp : s.phase with
  | idle =>
    have ht : t.phase = .idle := stepsBetweenCommandsStayBetweenCommands s t hp h
    rw [step_of_idle hp] at h
    exact ⟨stepIdle_unitsOk hu h, codecInv_of_idle ht⟩
  | serializing =>
    rw [step_of_serializing hp] at h
    exact ⟨hu.writerStep (serializePass_step h), serializePass_codecInv hp hc h⟩
  | deserializing =>
    rw [step_of_deserializing hp] at h
    exact ⟨hu.readerStep (deserializePass_step h), deserializePass_codecInv hp hc h⟩

/-- Settles O10: after reset both units are in their reset state, NODE is empty and no loop is under way. -/
theorem resetMeetsTheInvariant : Obligations.ResetMeetsTheInvariant := by
  have hc : 1 ≤ State.reset.chunkBytes := by decide
  exact (inv_iff _).mpr
    ⟨⟨writerOk_of_reset hc rfl, readerOk_of_reset hc rfl (Nat.le_refl _), Arena.wf_nil⟩, codecInv_of_idle rfl⟩

/-! ### The reset table -/

/-- Settles O9: `blockReset`, WRST and RRST put in the reset value of each unit and touch nothing else. -/
theorem resetTable : Obligations.ResetTable := by
  refine ⟨fun s hs => ?_, fun u => ⟨rfl, rfl, rfl, rfl⟩,
    fun u => ⟨respond .ok 0#9 (resetWriter u), rfl, rfl, rfl, rfl, rfl, rfl, rfl, rfl, rfl, rfl⟩,
    fun u => ⟨respond .ok 0#9 (resetReader u), rfl, rfl, rfl, rfl, rfl, rfl, rfl, rfl, rfl, rfl, rfl⟩⟩
  obtain rfl | ⟨u, rfl⟩ := hs <;> exact ⟨rfl, rfl, rfl, rfl, rfl, rfl, rfl, rfl, rfl, fun _ => rfl⟩

/-! ### What only moves one way -/

/-- Only WRST clears `w_fail` (R25, R117). -/
theorem exec_keeps_w_fail {i : Instr} {s t : State} (h : exec i s = .next t) (hs : s.bw.w_fail = true) :
    i = .wrst ∨ t.bw.w_fail = true := by
  obtain ⟨rfl, _⟩ | ⟨_, rfl⟩ | hw | ⟨hr, _⟩ := exec_cases h
  · exact .inl rfl
  · exact .inr hs
  · exact .inr (hw.mono.fail hs)
  · exact .inr (by rw [hr.frame.bw]; exact hs)

/-- Only RRST clears `r_fail` and `r_eos` (R29, R135). -/
theorem exec_keeps_reader_flags {i : Instr} {s t : State} (h : exec i s = .next t) :
    i = .rrst ∨ ((s.br.r_fail = true → t.br.r_fail = true) ∧ (s.br.r_eos = true → t.br.r_eos = true)) := by
  obtain ⟨_, rfl⟩ | ⟨rfl, _⟩ | hw | ⟨hr, _⟩ := exec_cases h
  · exact .inr ⟨id, id⟩
  · exact .inl rfl
  · exact .inr (by rw [hw.frame.br]; exact ⟨id, id⟩)
  · exact .inr ⟨hr.mono.fail, hr.mono.eos⟩

/-- Settles O56, by the kind of host move: of the moves besides block reset only a command touches BW or BR. -/
theorem stickyFlagsAreClearedOnlyByResets : Obligations.StickyFlagsAreClearedOnlyByResets := by
  intro m s t h
  obtain rfl | ⟨w, i, rfl, hd, hi⟩ | ⟨hbw, hbr, _⟩ := hostMove_cases h
  · exact ⟨fun _ _ => .inr rfl, fun _ _ => .inr rfl, fun _ _ => .inr rfl⟩
  · obtain ⟨hwrst, hrrst, _⟩ := word_of_decodeCommand hd
    refine ⟨fun h1 h0 => .inl ?_, fun h1 h0 => .inl ?_, fun h1 h0 => .inl ?_⟩
    · rw [hwrst ((exec_keeps_w_fail hi h1).resolve_right (by simp [h0]))]
    · rw [hrrst ((exec_keeps_reader_flags hi).resolve_right fun ⟨hfail, _⟩ => by simp [hfail h1] at h0)]
    · rw [hrrst ((exec_keeps_reader_flags hi).resolve_right fun ⟨_, heos⟩ => by simp [heos h1] at h0)]
  · rw [hbw, hbr]
    exact ⟨fun h1 h0 => by simp [h1] at h0, fun h1 h0 => by simp [h1] at h0, fun h1 h0 => by simp [h1] at h0⟩

/-- Settles O57, by the kind of host move: of the commands only TDES has a meaning that writes NODE. -/
theorem onlyTheHostAndTdesWriteNode : Obligations.OnlyTheHostAndTdesWriteNode := by
  intro m s t h hne
  obtain rfl | ⟨w, i, rfl, hd, hi⟩ | ⟨_, _, hn | hw⟩ := hostMove_cases h
  · exact .inr (.inr rfl)
  · obtain ⟨_, rfl⟩ | ⟨_, rfl⟩ | hw | ⟨_, hn⟩ := exec_cases hi
    · exact absurd rfl hne
    · exact absurd rfl hne
    · exact absurd hw.frame.node hne
    · by_cases ht : i = .tdes
      · exact .inr (.inl (by rw [(word_of_decodeCommand hd).2.2 ht]))
      · exact absurd (hn (isCommand_of_decodeCommand hd) ht) hne
  · exact absurd hn hne
  · exact .inl hw

/-- Settles O58, by the side the instruction works on: the other side's storage is in its frame. -/
theorem sinkIsAppendedToAndSrcIsReadInOrder : Obligations.SinkIsAppendedToAndSrcIsReadInOrder := by
  intro i s t h
  obtain ⟨_, rfl⟩ | ⟨_, rfl⟩ | hw | ⟨hr, _⟩ := exec_cases h
  · exact ⟨List.prefix_refl _, rfl, Nat.le_refl _, id⟩
  · exact ⟨List.prefix_refl _, rfl, Nat.le_refl _, id⟩
  · rw [hw.frame.src]
    exact ⟨hw.mono.sink, rfl, Nat.le_refl _, id⟩
  · have hbound := hr.mono.bound
    rw [hr.frame.srcBytes] at hbound
    exact ⟨by rw [hr.frame.sink], hr.frame.srcBytes, hr.mono.pos, hbound⟩

/-! ### One bit through the writer, and the end of the reader -/

/-- With the writer working, WBIT is `WriteBit` and the answer OK (R115). -/
theorem execWbit_of_done {b : Bool} {s t : State} (hf : s.bw.w_fail = false) (h : writeBit b s = .done () t) :
    exec (.wbit b) s = .next (respond .ok 0#9 t) := by
  simp only [exec, execWbit, writerSide, hf, h, Res.bind_done, endCommand, Bool.false_eq_true, if_false]

/-- Settles O21: `WriteBit` of a writer that can work, and the response. -/
theorem wbitExtendsTheStreamByItsBit : Obligations.WbitExtendsTheStreamByItsBit := by
  intro b s hs
  obtain ⟨t, _, hw, hready, hf, hbits, _⟩ := writeBit_live b hs
  refine ⟨_, execWbit_of_done hs.noFail hw, hbits, ⟨hready.chunk, hready.noFail, hready.inv, hready.never⟩, ?_,
    hf.chunkBytes, hf.br, hf.tc, hf.src, memRead_congr hf.node, hf.node, ?_, ?_⟩
  · rw [respond_responses, hf.host]
    rfl
  · rw [respond_pending, hf.host]
  · rw [respond_nodeReads, hf.host]

/-- With the reader working, an RBIT that finds no bit answers EOS (R133). -/
theorem execRbit_of_none {s t : State} (hf : s.br.r_fail = false) (h : readBit s = .done none t) :
    exec .rbit s = .next (respond .eos 0#9 t) := by
  simp only [exec, execRbit, readerSide, hf, h, Res.bind_done, endCommand, Bool.false_eq_true, if_false]

theorem readBit_of_r_eos {s : State} (hp : s.br.r_buf[s.br.r_pos]? = none) (he : s.br.r_eos = true) :
    readBit s = .done none s := by
  simp only [readBit, hp, he, if_true]

/-- An exhausted reader whose source is at its end records the end (R131). -/
theorem readBit_of_source_end {s : State} {k : Nat} (hp : s.br.r_buf[s.br.r_pos]? = none) (he : s.br.r_eos = false)
    (hl : srcLeft s = []) (ha : nextSrcAnswer s = .data k) :
    readBit s = .done none (setREos (srcTransaction 0 .ended s)) := by
  simp only [readBit, hp, he, srcRead, ha, hl, Bool.false_eq_true, if_false]

/-- Settles O30: the end is already recorded and RBIT reads nothing, or the source answers End. -/
theorem rbitAtTheEndAnswersEos : Obligations.RbitAtTheEndAnswersEos := by
  intro s hf hpos
  have hp : s.br.r_buf[s.br.r_pos]? = none := List.getElem?_eq_none (Nat.le_of_eq hpos.symm)
  refine ⟨fun he => execRbit_of_none hf (readBit_of_r_eos hp he), fun k he hend ha => ?_⟩
  have hl : srcLeft s = [] := List.drop_eq_nil_of_le (Nat.le_of_eq hend.symm)
  exact ⟨_, execRbit_of_none hf (readBit_of_source_end hp he hl ha), rfl, rfl, rfl, rfl,
    rfl, rfl, rfl, rfl, rfl, fun _ => rfl, rfl, rfl, rfl⟩

/-! ### An entry that holds no value -/

theorem serializePass_of_unwritten {s : State} (h : memRead s s.tc.t_cur = none) :
    serializePass s = .fault (.unwrittenNode s.tc.t_cur) := by
  simp only [serializePass, h]

/-- Settles O51: the first pass of TSER's loop is on the root, and it faults. -/
theorem tserOfAnUnwrittenRootFaults : Obligations.TserOfAnUnwrittenRootFaults := by
  intro root s hf hr
  have hpass : serializePass (startCodec .serializing root s.tc.t_next s) = .fault (.unwrittenNode root) :=
    serializePass_of_unwritten hr
  have hloop : codecLoop serializePass codecFuel (startCodec .serializing root s.tc.t_next s)
      = afterPass serializePass 511 (serializePass (startCodec .serializing root s.tc.t_next s)) :=
    codecLoop_succ serializePass 511 (by simp)
  rw [exec, execTser_of_noFail hf, hloop, hpass, afterPass]

end Sys2Proof.Machine
end

section
/-! NODE, SINK, SRC and the host's moves (20_memory.md R51, R55, R56, R59, R60): packing, what the host's moves do, where
an instruction can stop, what each side leaves alone, and `wu32`. -/

namespace Sys2Proof.Machine

/-- Settles O7, by the laws of `pack` and `unpack`. -/
theorem packingIsMsbFirstWithZeroPadding : Obligations.PackingIsMsbFirstWithZeroPadding := by
  refine ⟨fun bytes k h => ?_, fun bits => ⟨length_pack bits, unpack_pack bits⟩, pack_unpack⟩
  have hbyte : k / 8 < bytes.length := by omega
  have hbit : k % 8 < 8 := Nat.mod_lt _ (by omega)
  rw [getElem?_unpack, List.getElem?_eq_getElem hbyte, Option.map_some, BitVec.getMsbD]
  simp only [hbit, decide_true, Bool.true_and, Nat.add_one_sub_one]

/-! ### The host's moves -/

theorem hostNodeRead_of_some {s : State} {i : NodeIdx} {v : NodeWord} (h : memRead s i = some v) :
    hostNodeRead i s = .next { s with host := { s.host with nodeReads := s.host.nodeReads ++ [v] } } := by
  simp only [hostNodeRead, h]

theorem hostNodeRead_of_none {s : State} {i : NodeIdx} (h : memRead s i = none) :
    hostNodeRead i s = .fault (.unwrittenNode i) := by
  simp only [hostNodeRead, h]

theorem placeSink_of_reset {s : State} (h : s.bw = Bw.reset) (bs : List Byte) :
    placeSink bs s = .next { s with sink := { s.sink with bytes := bs } } :=
  if_pos (beq_iff_eq.mpr h)

theorem placeSink_of_ne {s : State} (h : s.bw ≠ Bw.reset) (bs : List Byte) : placeSink bs s = .refused .sinkInUse :=
  if_neg (mt beq_iff_eq.mp h)

theorem placeSrc_of_reset {s : State} (h : s.br = Br.reset) (bs : List Byte) (pos : Nat) :
    placeSrc bs pos s =
      if pos ≤ bs.length then .next { s with src := { s.src with bytes := bs, src_pos := pos } }
      else .refused .srcPositionOutside :=
  if_pos (beq_iff_eq.mpr h)

theorem placeSrc_of_ne {s : State} (h : s.br ≠ Br.reset) (bs : List Byte) (pos : Nat) :
    placeSrc bs pos s = .refused .srcInUse :=
  if_neg (mt beq_iff_eq.mp h)

/-- Settles O15, one law for each outcome of each move. -/
theorem hostMovesDoWhatTheySay : Obligations.HostMovesDoWhatTheySay := by
  refine ⟨fun s i j v => ⟨memWrite i v s, rfl, memRead_memWrite i j v s, rfl, rfl, rfl, rfl, rfl, rfl⟩,
    fun s i v => hostNodeRead_of_some, fun s i => hostNodeRead_of_none, fun s => rfl,
    fun s bs h => placeSink_of_reset h bs, fun s bs h => placeSink_of_ne h bs, fun s bs pos h hpos => ?_,
    fun s bs pos h hpos => ?_, fun s bs pos h => placeSrc_of_ne h bs pos⟩
  · exact (placeSrc_of_reset h bs pos).trans (if_pos hpos)
  · exact (placeSrc_of_reset h bs pos).trans (if_neg (Nat.not_le_of_lt hpos))

/-! ### Where an instruction can stop -/

theorem endCommand_next (r : Res (Status × BitVec 9)) : ∃ t, endCommand r = .next t := by
  cases r <;> exact ⟨_, rfl⟩

theorem writerSide_next {body : Result} (hb : ∃ t, body = .next t) (s : State) : ∃ t, writerSide s body = .next t := by
  unfold writerSide
  split
  · exact ⟨_, rfl⟩
  · exact hb

theorem readerSide_next {body : Result} (hb : ∃ t, body = .next t) (s : State) : ∃ t, readerSide s body = .next t := by
  unfold readerSide
  split
  · exact ⟨_, rfl⟩
  · exact hb

theorem execNodeLeaf_next (sym : Symbol) (l r : NodeIdx) (s : State) : ∃ t, execNodeLeaf sym l r s = .next t := by
  obtain ⟨_, _, _, h⟩ | ⟨_, _, _, h⟩ | ⟨_, _, _, _, _, h⟩ := execNodeLeaf_cases sym l r s <;> exact ⟨_, h⟩

theorem execNodeInternal_next (sym : Symbol) (l r : NodeIdx) (s : State) :
    ∃ t, execNodeInternal sym l r s = .next t := by
  obtain ⟨_, h⟩ | ⟨_, _, _, _, h⟩ | ⟨_, _, _, h⟩ := execNodeInternal_cases sym l r s <;> exact ⟨_, h⟩

theorem execRecord_next (r : Record) (s : State) : ∃ t, execRecord r s = .next t := by
  cases r with
  | leaf sym =>
    unfold execRecord execLeaf linkRight
    simp only
    split <;> exact ⟨_, rfl⟩
  | internal =>
    unfold execRecord execInternal
    simp only
    split <;> exact ⟨_, rfl⟩

/-- A pass of TSER stops only where the entry at `t_cur` holds no value (R153, U3). -/
theorem serializePass_next_or_fault (s : State) :
    (∃ t, serializePass s = .next t)
      ∨ (memRead s s.tc.t_cur = none ∧ serializePass s = .fault (.unwrittenNode s.tc.t_cur)) := by
  cases he : memRead s s.tc.t_cur with
  | none => exact .inr ⟨rfl, serializePass_of_unwritten he⟩
  | some e =>
    left
    simp only [serializePass, he]
    split
    · exact execNodeInternal_next _ _ _ s
    · exact execNodeLeaf_next _ _ _ s

/-- TSER's loop stops only on an entry that held no value when it started, since no pass writes NODE. -/
theorem serializeLoop_next_or_fault (n : Nat) (s : State) :
    (∃ t, codecLoop serializePass n s = .next t)
      ∨ ∃ j, memRead s j = none ∧ codecLoop serializePass n s = .fault (.unwrittenNode j) := by
  induction n generalizing s with
  | zero => exact .inl ⟨s, rfl⟩
  | succ n ih =>
    by_cases hi : s.phase = .idle
    · exact .inl ⟨s, codecLoop_idle _ _ hi⟩
    · rw [codecLoop_succ _ _ hi]
      obtain ⟨u, hu⟩ | ⟨hr, hf⟩ := serializePass_next_or_fault s
      · have hnode := memRead_congr (serializePass_spec hu).frame.node
        simpa only [hu, afterPass, hnode] using ih u
      · exact .inr ⟨_, hr, by rw [hf, afterPass]⟩

/-- Settles O17, by the instruction: all but TSER answer a next state, and TSER is its loop. -/
theorem onlyTserOnAnUnwrittenEntryStops : Obligations.OnlyTserOnAnUnwrittenEntryStops := by
  intro i s
  cases i with
  | wbit b => exact .inl (writerSide_next (endCommand_next _) s)
  | wflush => exact .inl (writerSide_next (endCommand_next _) s)
  | wrst => exact .inl ⟨_, rfl⟩
  | rbit => exact .inl (readerSide_next (endCommand_next _) s)
  | ralign => exact .inl (readerSide_next ⟨_, rfl⟩ s)
  | rrst => exact .inl ⟨_, rfl⟩
  | tdes => exact .inl (readerSide_next (deserializeLoop_next _ _) s)
  | leaf sym => exact .inl (execRecord_next (.leaf sym) s)
  | internal => exact .inl (execRecord_next .internal s)
  | nodeLeaf sym l r => exact .inl (execNodeLeaf_next sym l r s)
  | nodeInternal sym l r => exact .inl (execNodeInternal_next sym l r s)
  | tser root =>
    obtain hn | ⟨j, hr, hf⟩ :=
      serializeLoop_next_or_fault codecFuel (startCodec .serializing root s.tc.t_next s)
    · exact .inl (writerSide_next hn s)
    · cases hw : s.bw.w_fail with
      | true => exact .inl ⟨raise .ioError s, by simp only [exec, execTser, writerSide, hw, if_true]⟩
      | false => exact .inr ⟨root, j, rfl, hr, (execTser_of_noFail hw root).trans hf⟩

/-! ### What a command leaves alone -/

theorem OnlyWriterSide.refl (s : State) : OnlyWriterSide s s := ⟨rfl, rfl, rfl, rfl, fun _ => rfl, rfl, rfl, rfl⟩

theorem OnlyReaderSide.refl (s : State) : OnlyReaderSide s s :=
  ⟨rfl, rfl, rfl, rfl, rfl, fun _ => rfl, rfl, rfl, rfl⟩

theorem WriterFrame.onlyWriterSide {s t : State} (h : WriterFrame s t) : OnlyWriterSide s t :=
  ⟨h.chunkBytes, h.br, h.tc, h.src, memRead_congr h.node, h.node, by rw [h.host], by rw [h.host]⟩

theorem ReaderFrame.onlyReaderSide {s t : State} (h : ReaderFrame s t) : OnlyReaderSide s t :=
  ⟨h.chunkBytes, h.bw, h.tc, h.sink, h.srcBytes, memRead_congr h.node, h.node, by rw [h.host], by rw [h.host]⟩

/-- A writer-side command that holds no codec loop: the start check answers, or an internal operation and the answer to
it. -/
theorem onlyWriterSide_of_endCommand {α : Type} {s t : State} {r : Res α} {f : α → Status × BitVec 9}
    (hr : r.leaves (WriterFrame s)) (h : writerSide s (endCommand (r.bind fun a u => .done (f a) u)) = .next t) :
    OnlyWriterSide s t := by
  obtain ⟨_, rfl⟩ | ⟨_, h⟩ := writerSide_cases h
  · exact .refl s
  · exact endCommand_keeps (P := OnlyWriterSide s)
      (Res.leaves_bind_done f (Res.leaves_mono hr fun _ => WriterFrame.onlyWriterSide)) (fun _ _ _ => id) h

/-- Settles O52: each internal operation of the writer is in the writer's frame, and so is every pass of TSER. -/
theorem writerCommandsLeaveTheRestAlone : Obligations.WriterCommandsLeaveTheRestAlone := by
  refine fun i s t h => ⟨?_, ?_⟩
  · rintro (⟨b, rfl⟩ | rfl | rfl)
    · exact onlyWriterSide_of_endCommand (writeBit_frame b s) h
    · exact onlyWriterSide_of_endCommand (flush_frame s) h
    · cases h
      exact .refl s
  · rintro ⟨root, rfl⟩
    obtain ⟨frame, _, _⟩ := execTser_step h
    exact ⟨frame.chunkBytes, frame.br, frame.src, memRead_congr frame.node, frame.pending, frame.nodeReads⟩

theorem onlyReaderSide_of_readerSide {s t : State} {body : Result} (hb : body = .next t → OnlyReaderSide s t)
    (h : readerSide s body = .next t) : OnlyReaderSide s t := by
  obtain ⟨_, rfl⟩ | ⟨_, h⟩ := readerSide_cases h
  · exact .refl s
  · exact hb h

theorem execRbit_onlyReaderSide {s t : State} (h : execRbit s = .next t) : OnlyReaderSide s t := by
  refine onlyReaderSide_of_readerSide (endCommand_keeps ?_ fun _ _ _ => id) h
  refine Res.leaves_bind (readBit_frame s) (fun _ => ReaderFrame.onlyReaderSide) fun r u hu => ?_
  cases r <;> exact hu.onlyReaderSide

theorem execRalign_onlyReaderSide {s t : State} (h : execRalign s = .next t) : OnlyReaderSide s t := by
  refine onlyReaderSide_of_readerSide (fun hb => ?_) h
  cases hb
  exact (alignCursor_frame s).onlyReaderSide

/-- Settles O53: each internal operation of the reader is in the reader's frame, and every pass of TDES in its own. -/
theorem readerCommandsLeaveTheRestAlone : Obligations.ReaderCommandsLeaveTheRestAlone := by
  refine fun i s t h => ⟨?_, ?_⟩
  · rintro (rfl | rfl | rfl)
    · exact execRbit_onlyReaderSide h
    · exact execRalign_onlyReaderSide h
    · cases h
      exact .refl s
  · rintro rfl
    obtain ⟨frame, _, _, _⟩ := execTdes_step h
    exact ⟨frame.chunkBytes, frame.bw, frame.sink, frame.srcBytes, frame.pending, frame.nodeReads⟩

/-! ### Bits the host writes one command at a time -/

/-- A command word that decodes is run by the host's move (R81). -/
theorem hostMove_command {w : CmdWord} {i : Instr} (h : decodeCommand w = .instr i) (s : State) :
    hostMove (.command w) s = exec i s :=
  runCommand_of_instr h s

theorem issueBits_cons (b : Bool) (bs : List Bool) : issueBits (b :: bs) = issue (.wbit b) ++ issueBits bs := rfl

theorem issue_wbit (b : Bool) :
    issue (.wbit b) = [.command (mkCommand 0x1#4 ((BitVec.ofBool b).setWidth 9))] := rfl

theorem decodeCommand_wbit (b : Bool) :
    decodeCommand (mkCommand 0x1#4 ((BitVec.ofBool b).setWidth 9)) = .instr (.wbit b) := by
  cases b <;> decide

/-- A move answered OK lets the line go on (R95). -/
theorem runLine_cons_ok {m : HostMove} {rest : List HostMove} {s t : State} (h : hostMove m s = .next t)
    (hr : t.host.responses = s.host.responses ++ [0x0000#16]) : runLine (m :: rest) s = runLine rest t := by
  have hok : answeredOk s t = true := by
    simp only [answeredOk, hr, List.drop_left]
    decide
  simp only [runLine, h, hok, if_true]

/-- A writer that can work takes the bits of a line one WBIT at a time (R95, R111). -/
theorem runLine_issueBits (bs : List Bool) {s : State} (hs : WriterReady s) :
    ∃ t, runLine (issueBits bs) s = .next t ∧ WriterReady t ∧ acceptedBits t = acceptedBits s ++ bs
      ∧ t.host.responses = s.host.responses ++ List.replicate bs.length 0x0000#16 := by
  induction bs generalizing s with
  | nil => exact ⟨s, rfl, hs, by simp, by simp⟩
  | cons b bs ih =>
    obtain ⟨t, he, hbits, ht, hresp, _⟩ := wbitExtendsTheStreamByItsBit b s hs
    obtain ⟨u, hrun, hu, hbits', hresp'⟩ := ih ht
    refine ⟨u, ?_, hu, by rw [hbits', hbits, List.append_assoc, List.singleton_append], ?_⟩
    · rw [issueBits_cons, issue_wbit, List.singleton_append,
        runLine_cons_ok ((hostMove_command (decodeCommand_wbit b) s).trans he) hresp, hrun]
    · rw [hresp', hresp, List.append_assoc, List.singleton_append, List.length_cons, List.replicate_succ]

theorem getElem?_bigEndian32 (v : Nat) {j : Nat} (h : j < 4) :
    (bigEndian32 v)[j]? = some (BitVec.ofNat 8 (v / 2 ^ (24 - 8 * j))) := by
  match j with
  | 0 | 1 | 2 => rfl
  | 3 => simp [bigEndian32]

/-- A count's bits, most significant first, are those of its four bytes, most significant byte first (R55). -/
theorem msbBits_eq_unpack_bigEndian32 (v : Nat) : msbBits (BitVec.ofNat 32 v) = unpack (bigEndian32 v) := by
  refine List.ext_getElem (by simp [bigEndian32]) fun k h h' => ?_
  have hk : k < 32 := by simpa using h
  have hbit : k % 8 < 8 := Nat.mod_lt _ (by omega)
  have hat : 24 - 8 * (k / 8) + (8 - 1 - k % 8) = 32 - 1 - k := by omega
  apply Option.some.inj
  rw [← List.getElem?_eq_getElem h', getElem?_unpack, getElem?_bigEndian32 v (by omega), Option.map_some,
    getElem_msbBits, BitVec.getMsbD, BitVec.getMsbD, BitVec.getLsbD_ofNat, BitVec.getLsbD_ofNat,
    Nat.testBit_div_two_pow, Nat.add_comm (8 - 1 - k % 8), hat]
  simp only [hk, hbit, decide_true, Bool.true_and, show 32 - 1 - k < 32 by omega, show 8 - 1 - k % 8 < 8 by omega]

/-- Settles O27: the line is one WBIT per bit of the count. -/
theorem headerCountIsWrittenBigEndian : Obligations.HeaderCountIsWrittenBigEndian := by
  intro v s _ hs
  obtain ⟨t, hrun, _, hbits, hresp⟩ := runLine_issueBits (msbBits (BitVec.ofNat 32 v)) hs
  rw [length_msbBits] at hresp
  rw [msbBits_eq_unpack_bigEndian32] at hbits
  exact ⟨t, hrun, hbits, hresp⟩

end Sys2Proof.Machine
end

section
/-! The two sides do not interfere (20_memory.md R66; 60_exceptions.md R185): every writer-side operation commutes with a
change of BR and the source, every reader-side operation with a change of BW and the sink. -/

namespace Sys2Proof.Machine

/-! ### Changing the state an instruction answers -/

/-- A change of the next state, if there is one. -/
def mapNext (f : State → State) : Result → Result
  | .next t => .next (f t)
  | .fault x => .fault x
  | .refused x => .refused x

/-- A pass that commutes with a change of the state that keeps the phase makes a loop that does. -/
theorem codecLoop_mapNext {pass : State → Result} {f : State → State} (hp : ∀ s, pass (f s) = mapNext f (pass s))
    (hf : ∀ s, (f s).phase = s.phase) (n : Nat) (s : State) :
    codecLoop pass n (f s) = mapNext f (codecLoop pass n s) := by
  induction n generalizing s with
  | zero => rfl
  | succ n ih =>
    by_cases hi : s.phase = .idle
    · rw [codecLoop_idle _ _ hi, codecLoop_idle _ _ ((hf s).trans hi)]
      rfl
    · rw [codecLoop_succ _ _ hi, codecLoop_succ _ _ (by rw [hf]; exact hi), hp]
      cases pass s with
      | next t => exact ih t
      | fault x => rfl
      | refused x => rfl

/-- A command's end commutes with a change of the state that `respond` commutes with. -/
theorem endCommand_mapState {f : State → State} (hf : ∀ st d s, respond st d (f s) = f (respond st d s))
    (r : Res (Status × BitVec 9)) : endCommand (r.mapState f) = mapNext f (endCommand r) := by
  cases r with
  | done a s => exact congrArg _ (hf a.1 a.2 s)
  | raised e s => exact congrArg _ (hf e.status 0#9 s)

/-! ### The writer side and another BR and source -/

/-- The state with another BR and another source. -/
def withReader (br : Br) (src : Src) (s : State) : State := { s with br := br, src := src }

section
variable (br : Br) (src : Src)

@[simp] theorem withReader_bw (s : State) : (withReader br src s).bw = s.bw := rfl
@[simp] theorem withReader_tc (s : State) : (withReader br src s).tc = s.tc := rfl
@[simp] theorem withReader_chunkBytes (s : State) : (withReader br src s).chunkBytes = s.chunkBytes := rfl
@[simp] theorem memRead_withReader (s : State) (i : NodeIdx) : memRead (withReader br src s) i = memRead s i := rfl
@[simp] theorem nextSinkAnswer_withReader (s : State) :
    nextSinkAnswer (withReader br src s) = nextSinkAnswer s := rfl

theorem drain_withReader (s : State) : drain (withReader br src s) = (drain s).mapState (withReader br src) := by
  unfold drain sinkWrite
  rw [withReader_bw, nextSinkAnswer_withReader]
  split
  · rfl
  · cases nextSinkAnswer s <;> rfl

theorem drainIfFull_withReader (s : State) :
    drainIfFull (withReader br src s) = (drainIfFull s).mapState (withReader br src) := by
  unfold drainIfFull
  rw [drain_withReader, withReader_bw, withReader_chunkBytes]
  split <;> rfl

theorem writeBit_withReader (b : Bool) (s : State) :
    writeBit b (withReader br src s) = (writeBit b s).mapState (withReader br src) := by
  unfold writeBit
  rw [withReader_bw]
  split
  · exact drainIfFull_withReader br src (pushByte (accWith b s) s)
  · rfl

theorem writeBitList_withReader (bs : List Bool) (s : State) :
    writeBitList bs (withReader br src s) = (writeBitList bs s).mapState (withReader br src) := by
  induction bs generalizing s with
  | nil => rfl
  | cons b bs ih =>
    rw [writeBitList_cons, writeBitList_cons, writeBit_withReader, Res.mapState_bind _ _ _ fun _ t => ih t]

theorem completeByte_withReader (s : State) :
    completeByte (withReader br src s) = withReader br src (completeByte s) := by
  unfold completeByte
  rw [withReader_bw]
  split <;> rfl

theorem flush_withReader (s : State) : flush (withReader br src s) = (flush s).mapState (withReader br src) := by
  unfold flush
  rw [completeByte_withReader, drain_withReader]
  exact Res.mapState_bind _ _ _ fun _ _ => rfl

theorem writerSide_withReader {s : State} {body body' : Result} (h : body' = mapNext (withReader br src) body) :
    writerSide (withReader br src s) body' = mapNext (withReader br src) (writerSide s body) := by
  unfold writerSide
  rw [withReader_bw]
  split
  · rfl
  · exact h

theorem nextSubtree_withReader (s : State) :
    nextSubtree (withReader br src s) = mapNext (withReader br src) (nextSubtree s) := by
  unfold nextSubtree
  rw [withReader_tc]
  cases s.tc.t_stk <;> rfl

theorem execNodeLeaf_withReader (sym : Symbol) (l r : NodeIdx) (s : State) :
    execNodeLeaf sym l r (withReader br src s) = mapNext (withReader br src) (execNodeLeaf sym l r s) := by
  rw [execNodeLeaf_eq, execNodeLeaf_eq, writeBitList_withReader]
  cases writeBitList (leafRecord sym) s with
  | done _ t => exact nextSubtree_withReader br src (countLeaf t)
  | raised e t => rfl

theorem execNodeInternal_withReader (sym : Symbol) (l r : NodeIdx) (s : State) :
    execNodeInternal sym l r (withReader br src s) = mapNext (withReader br src) (execNodeInternal sym l r s) := by
  unfold execNodeInternal
  rw [withReader_tc, writeBit_withReader]
  split
  · rfl
  · cases writeBit true s <;> rfl

theorem serializePass_withReader (s : State) :
    serializePass (withReader br src s) = mapNext (withReader br src) (serializePass s) := by
  unfold serializePass
  rw [withReader_tc, memRead_withReader]
  cases memRead s s.tc.t_cur with
  | none => rfl
  | some e =>
    simp only
    split
    · exact execNodeInternal_withReader br src _ _ _ s
    · exact execNodeLeaf_withReader br src _ _ _ s

/-- What a writer-side command does is the same whatever BR and the source hold (R66). -/
theorem exec_withReader {i : Instr} (hi : (∃ b, i = .wbit b) ∨ i = .wflush ∨ i = .wrst ∨ ∃ root, i = .tser root)
    (s : State) : exec i (withReader br src s) = mapNext (withReader br src) (exec i s) := by
  obtain ⟨b, rfl⟩ | rfl | rfl | ⟨root, rfl⟩ := hi
  · refine writerSide_withReader br src ?_
    rw [writeBit_withReader, Res.mapState_bind _ _ _ fun _ _ => rfl, endCommand_mapState fun _ _ _ => rfl]
  · refine writerSide_withReader br src ?_
    rw [flush_withReader, Res.mapState_bind _ _ _ fun _ _ => rfl, endCommand_mapState fun _ _ _ => rfl]
  · rfl
  · exact writerSide_withReader br src
      (codecLoop_mapNext (serializePass_withReader br src) (fun _ => rfl) codecFuel
        (startCodec .serializing root s.tc.t_next s))

end

/-! ### The reader side and another BW and sink -/

/-- The state with another BW and another sink. -/
def withWriter (bw : Bw) (sink : Sink) (s : State) : State := { s with bw := bw, sink := sink }

section
variable (bw : Bw) (sink : Sink)

@[simp] theorem withWriter_br (s : State) : (withWriter bw sink s).br = s.br := rfl
@[simp] theorem withWriter_tc (s : State) : (withWriter bw sink s).tc = s.tc := rfl
@[simp] theorem nextSrcAnswer_withWriter (s : State) :
    nextSrcAnswer (withWriter bw sink s) = nextSrcAnswer s := rfl
@[simp] theorem srcLeft_withWriter (s : State) : srcLeft (withWriter bw sink s) = srcLeft s := rfl

theorem advanceCursor_withWriter (s : State) :
    advanceCursor (withWriter bw sink s) = withWriter bw sink (advanceCursor s) := by
  unfold advanceCursor
  rw [withWriter_br]
  split <;> rfl

theorem alignCursor_withWriter (s : State) :
    alignCursor (withWriter bw sink s) = withWriter bw sink (alignCursor s) := by
  unfold alignCursor
  rw [withWriter_br]
  split <;> rfl

theorem srcRead_withWriter (s : State) :
    srcRead (withWriter bw sink s) = ((srcRead s).1, withWriter bw sink (srcRead s).2) := by
  unfold srcRead
  rw [nextSrcAnswer_withWriter, srcLeft_withWriter]
  cases nextSrcAnswer s with
  | fail a => rfl
  | data k => cases srcLeft s <;> rfl

theorem readBit_withWriter (s : State) : readBit (withWriter bw sink s) = (readBit s).mapState (withWriter bw sink) := by
  unfold readBit
  rw [withWriter_br, srcRead_withWriter]
  cases s.br.r_buf[s.br.r_pos]? with
  | some byte => exact congrArg _ (advanceCursor_withWriter bw sink s)
  | none =>
    simp only
    split
    · rfl
    · obtain ⟨d, t⟩ := srcRead s
      cases d with
      | bytes first rest =>
        exact congrArg (Res.done (some (streamBit first 0)))
          (advanceCursor_withWriter bw sink (loadBuffer (first :: rest) t))
      | ended => rfl
      | failed => rfl

theorem readBitList_withWriter (n : Nat) (s : State) :
    readBitList n (withWriter bw sink s) = (readBitList n s).mapState (withWriter bw sink) := by
  induction n generalizing s with
  | zero => rfl
  | succ n ih =>
    simp only [readBitList, readBit_withWriter]
    refine Res.mapState_bind _ _ _ fun a t => ?_
    cases a with
    | none => rfl
    | some b =>
      simp only [ih]
      exact Res.mapState_bind _ _ _ fun _ _ => rfl

theorem fetchRecord_withWriter (s : State) :
    fetchRecord (withWriter bw sink s) = (fetchRecord s).mapState (withWriter bw sink) := by
  unfold fetchRecord
  rw [readBit_withWriter]
  refine Res.mapState_bind _ _ _ fun f t => ?_
  match f with
  | none => rfl
  | some true => rfl
  | some false =>
    simp only [readBits, readBitList_withWriter]
    rw [Res.mapState_bind _ _ _ fun _ _ => rfl]
    exact Res.mapState_bind _ _ _ fun _ _ => rfl

theorem readerSide_withWriter {s : State} {body body' : Result} (h : body' = mapNext (withWriter bw sink) body) :
    readerSide (withWriter bw sink s) body' = mapNext (withWriter bw sink) (readerSide s body) := by
  unfold readerSide
  rw [withWriter_br]
  split
  · rfl
  · exact h

theorem linkRight_withWriter (s : State) :
    linkRight (withWriter bw sink s) = mapNext (withWriter bw sink) (linkRight s) := by
  unfold linkRight
  rw [withWriter_tc]
  cases s.tc.t_stk <;> rfl

theorem execRecord_withWriter (r : Record) (s : State) :
    execRecord r (withWriter bw sink s) = mapNext (withWriter bw sink) (execRecord r s) := by
  cases r with
  | leaf sym => exact linkRight_withWriter bw sink (countLeaf (buildNode (mkEntry false sym 0#9 0#9) s))
  | internal =>
    simp only [execRecord, execInternal]
    rw [withWriter_tc]
    split <;> rfl

theorem deserializePass_withWriter (s : State) :
    deserializePass (withWriter bw sink s) = mapNext (withWriter bw sink) (deserializePass s) := by
  unfold deserializePass
  rw [fetchRecord_withWriter]
  cases fetchRecord s with
  | raised e t => rfl
  | done r t =>
    cases r with
    | none => rfl
    | some r => exact execRecord_withWriter bw sink r t

/-- What a reader-side command does is the same whatever BW and the sink hold (R66). -/
theorem exec_withWriter {i : Instr} (hi : i = .rbit ∨ i = .ralign ∨ i = .rrst ∨ i = .tdes) (s : State) :
    exec i (withWriter bw sink s) = mapNext (withWriter bw sink) (exec i s) := by
  obtain rfl | rfl | rfl | rfl := hi
  · refine readerSide_withWriter bw sink ?_
    rw [readBit_withWriter, Res.mapState_bind _ _ _ fun r _ => by cases r <;> rfl,
      endCommand_mapState fun _ _ _ => rfl]
  · refine readerSide_withWriter bw sink ?_
    rw [alignCursor_withWriter]
    rfl
  · rfl
  · exact readerSide_withWriter bw sink
      (codecLoop_mapNext (deserializePass_withWriter bw sink) (fun _ => rfl) codecFuel
        (startCodec .deserializing s.tc.t_cur 0 s))

end

/-- Settles O54: a change of the other side commutes with each internal operation, each pass and each command. -/
theorem theTwoSidesDoNotInterfere : Obligations.TheTwoSidesDoNotInterfere :=
  ⟨fun _ s br src hi => exec_withReader br src hi s, fun _ s bw sink hi => exec_withWriter bw sink hi s⟩

end Sys2Proof.Machine
end

section
/-! Refills (20_memory.md R54; 41_bitreader.md R131): one that delivers, and one that fails, in RBIT and anywhere inside
TDES (42_treecodec.md R154, R161; 60_exceptions.md R175). -/

namespace Sys2Proof.Machine

/-! ### A refill that delivers -/

/-- With the reader working, an RBIT that finds a bit answers OK with it (R133). -/
theorem execRbit_of_some {s t : State} {b : Bool} (hf : s.br.r_fail = false) (h : readBit s = .done (some b) t) :
    exec .rbit s = .next (respond .ok ((BitVec.ofBool b).setWidth 9) t) := by
  simp only [exec, execRbit, readerSide, hf, h, Res.bind_done, endCommand, Bool.false_eq_true, if_false]

theorem readBit_of_refill {s : State} {k : Nat} {first : Byte} {rest : List Byte}
    (hp : s.br.r_buf[s.br.r_pos]? = none) (he : s.br.r_eos = false) (hl : srcLeft s = first :: rest)
    (ha : nextSrcAnswer s = .data k) :
    readBit s = .done (some (streamBit first 0)) (advanceCursor (refilled k first rest s)) := by
  simp only [readBit, hp, he, srcRead, ha, hl, refilled, Bool.false_eq_true, if_false]

/-- The reader after the first bit of a refill has been delivered (R131). -/
theorem advanceCursor_refilled_br {s : State} (hc : 1 ≤ s.chunkBytes) {first : Byte} {rest : List Byte}
    (hl : srcLeft s = first :: rest) (k : Nat) :
    (advanceCursor (refilled k first rest s)).br =
      { s.br with r_buf := (srcLeft s).take (dataCount k s), r_pos := 0, r_bit := 1 } := by
  rw [← refilled_buf hc hl k]
  rfl

/-- A listed count within R54's range is the count handed over. -/
theorem dataCount_of_allowed {s : State} {k : Nat} (h1 : 1 ≤ k) (hc : k ≤ s.chunkBytes)
    (hl : k ≤ s.src.bytes.length - s.src.src_pos) : dataCount k s = k := by
  have hlen := length_srcLeft s
  unfold dataCount mostBytes
  omega

/-- Settles O29: the source hands over `dataCount k s` bytes, and the first bit of the first is delivered. -/
theorem rbitRefillsAnExhaustedBuffer : Obligations.RbitRefillsAnExhaustedBuffer := by
  intro s k hc hf hpos he hlt ha
  have hp : s.br.r_buf[s.br.r_pos]? = none := List.getElem?_eq_none (Nat.le_of_eq hpos.symm)
  have hl : srcLeft s = s.src.bytes[s.src.src_pos] :: s.src.bytes.drop (s.src.src_pos + 1) :=
    List.drop_eq_getElem_cons hlt
  have hrun := execRbit_of_some hf (readBit_of_refill hp he hl ha)
  obtain ⟨h1, hchunk, hleft⟩ := dataCount_bounds hc (hl ▸ List.cons_ne_nil _ _) k
  rw [length_srcLeft] at hleft
  refine ⟨_, dataCount k s, hrun, h1, hchunk, hleft, dataCount_of_allowed, ?_, ?_, ?_,
    ⟨s.src.bytes[s.src.src_pos], List.getElem?_eq_getElem hlt, rfl⟩, execRbit_onlyReaderSide hrun⟩
  · simp only [respond_br, advanceCursor_refilled_br hc hl, he, hf, srcLeft]
  · rfl
  · rfl

/-! ### A refill that fails -/

/-- With the reader working, an RBIT whose `ReadBit` raises answers with the exception (R133). -/
theorem execRbit_of_raised {s t : State} {e : Exc} (hf : s.br.r_fail = false) (h : readBit s = .raised e t) :
    exec .rbit s = .next (raise e t) := by
  simp only [exec, execRbit, readerSide, hf, h, Res.bind_raised, endCommand, Bool.false_eq_true, if_false]

/-- What a failed refill leaves, where the environment answers Fail with an advance of `a` (R54, R131). -/
def failedRefill (a : Nat) (s : State) : State :=
  scrambleReader (setRFail (srcTransaction (min a (mostBytes s)) .failed s))

theorem readBit_of_failed_refill {s : State} {a : Nat} (hp : s.br.r_buf[s.br.r_pos]? = none)
    (he : s.br.r_eos = false) (ha : nextSrcAnswer s = .fail a) : readBit s = .raised .ioError (failedRefill a s) := by
  simp only [readBit, hp, he, srcRead, ha, failedRefill, Bool.false_eq_true, if_false]

theorem failedRefill_src_pos (a : Nat) (s : State) :
    (failedRefill a s).src.src_pos
      = s.src.src_pos + min a (min s.chunkBytes (s.src.bytes.length - s.src.src_pos)) := by
  rw [← length_srcLeft s]
  rfl

/-! ### What the source answered -/

/-- The reader has made SrcReads since `s`, none of which answered Fail. -/
structure ReadsWell (s t : State) : Prop where
  replies : ∃ replies, t.src.tx = s.src.tx ++ replies ∧ .failed ∉ replies
  fail : t.br.r_fail = s.br.r_fail

/-- The reader has made SrcReads since `s`, one of which answered Fail, and the failure is recorded. -/
structure ReadsFailed (s t : State) : Prop where
  replies : ∃ replies, t.src.tx = s.src.tx ++ replies ∧ .failed ∈ replies
  fail : t.br.r_fail = true

theorem ReadsWell.of_eq {s t : State} (hb : t.br = s.br) (hs : t.src = s.src) : ReadsWell s t :=
  ⟨⟨[], by rw [hs, List.append_nil], by simp⟩, by rw [hb]⟩

theorem ReadsWell.trans {s t u : State} (h : ReadsWell s t) (k : ReadsWell t u) : ReadsWell s u := by
  obtain ⟨⟨xs, hx, hxf⟩, hf⟩ := h
  obtain ⟨⟨ys, hy, hyf⟩, kf⟩ := k
  exact ⟨⟨xs ++ ys, by rw [hy, hx, List.append_assoc], by simp [hxf, hyf]⟩, kf.trans hf⟩

theorem ReadsWell.trans_failed {s t u : State} (h : ReadsWell s t) (k : ReadsFailed t u) : ReadsFailed s u := by
  obtain ⟨⟨xs, hx, _⟩, _⟩ := h
  obtain ⟨⟨ys, hy, hyf⟩, kf⟩ := k
  exact ⟨⟨xs ++ ys, by rw [hy, hx, List.append_assoc], by simp [hyf]⟩, kf⟩

/-- A reader operation raises exactly when a SrcRead it made answered Fail. -/
def Res.raisesOnFailedRead {α : Type} (s : State) : Res α → Prop
  | .done _ t => ReadsWell s t
  | .raised _ t => ReadsFailed s t

theorem Res.raisesOnFailedRead_bind {α β : Type} {s : State} {r : Res α} {f : α → State → Res β}
    (hr : r.raisesOnFailedRead s) (hf : ∀ a t, (f a t).raisesOnFailedRead t) : (r.bind f).raisesOnFailedRead s := by
  cases r with
  | raised e t => exact hr
  | done a t =>
    have hft := hf a t
    rw [Res.bind_done]
    cases hu : f a t <;> rw [hu] at hft
    · exact hr.trans hft
    · exact hr.trans_failed hft

theorem readBit_raisesOnFailedRead (s : State) : (readBit s).raisesOnFailedRead s := by
  obtain ⟨b, _, h⟩ | ⟨_, _, h⟩ | ⟨_, _, _, _, h⟩ | ⟨_, _, k, f, r, _, _, h⟩ | ⟨_, _, a, _, h⟩ :=
    readBit_cases s <;> rw [h]
  · exact ⟨⟨[], by simp, by simp⟩, advanceCursor_r_fail s⟩
  · exact .of_eq rfl rfl
  · exact ⟨⟨[.ended], rfl, by simp⟩, rfl⟩
  · exact ⟨⟨[.data (dataCount k s)], by simp [refilled], by simp⟩, advanceCursor_r_fail _⟩
  · exact ⟨⟨[.failed], rfl, by simp⟩, rfl⟩

theorem readBitList_raisesOnFailedRead (n : Nat) (s : State) : (readBitList n s).raisesOnFailedRead s := by
  induction n generalizing s with
  | zero => exact .of_eq rfl rfl
  | succ n ih =>
    refine Res.raisesOnFailedRead_bind (readBit_raisesOnFailedRead s) fun r t => ?_
    cases r with
    | none => exact .of_eq rfl rfl
    | some b => exact Res.raisesOnFailedRead_bind (ih t) fun _ _ => .of_eq rfl rfl

theorem fetchRecord_raisesOnFailedRead (s : State) : (fetchRecord s).raisesOnFailedRead s := by
  refine Res.raisesOnFailedRead_bind (readBit_raisesOnFailedRead s) fun f t => ?_
  match f with
  | none => exact .of_eq rfl rfl
  | some true => exact .of_eq rfl rfl
  | some false =>
    refine Res.raisesOnFailedRead_bind (Res.raisesOnFailedRead_bind (readBitList_raisesOnFailedRead 8 t) ?_) ?_ <;>
      exact fun _ _ => .of_eq rfl rfl

/-! ### Failed reads inside TDES -/

/-- TDES was answered, and not IOERR. -/
def AnsweredWell (s t : State) : Prop := ∃ st d, t.host = s.host.answered st d ∧ st ≠ .ioErr

/-- TDES was answered IOERR, and NODE[0..510] holds no value (R161, R175). -/
def AnsweredIoErr (s t : State) : Prop :=
  t.host = s.host.answered .ioErr 0#9 ∧ ∀ i, i ≤ 510 → Arena.get? t.node i = none

/-- The meaning of a record goes on and answers nothing, or ends TDES with another status than IOERR. -/
theorem execRecord_answers {r : Record} {s t : State} (h : execRecord r s = .next t) :
    (t.phase = .deserializing ∧ t.host = s.host) ∨ (t.phase = .idle ∧ AnsweredWell s t) := by
  cases r with
  | leaf sym =>
    simp only [execRecord, execLeaf, linkRight] at h
    split at h <;> cases h
    · exact .inr ⟨rfl, .ok, _, rfl, by simp⟩
    · exact .inl ⟨rfl, rfl⟩
  | internal =>
    simp only [execRecord, execInternal] at h
    split at h <;> cases h
    · exact .inr ⟨rfl, .corruptTree, _, rfl, by simp⟩
    · exact .inl ⟨rfl, rfl⟩

theorem raiseInTdes_ioError_answers {s t : State} (h : t.host = s.host) :
    AnsweredIoErr s (raiseInTdes .ioError t) := by
  refine ⟨host_raise (t := spoilNode t) .ioError h, fun i hi => ?_⟩
  rw [raiseInTdes_eq_respond, respond_node, spoilNode_node, Arena.get?_spoil, if_pos hi]

/-- A pass of TDES: its SrcReads went well and it goes on or answers another status than IOERR, or one of them failed and
it answers IOERR. -/
theorem deserializePass_reads {s t : State} (h : deserializePass s = .next t) :
    (ReadsWell s t ∧ ((t.phase = .deserializing ∧ t.host = s.host) ∨ (t.phase = .idle ∧ AnsweredWell s t)))
      ∨ (ReadsFailed s t ∧ t.phase = .idle ∧ AnsweredIoErr s t) := by
  have hfr := fetchRecord_frame s
  have hio := fetchRecord_onlyIoError s
  have hrd := fetchRecord_raisesOnFailedRead s
  obtain ⟨r, u, hf, h'⟩ | ⟨u, hf, h'⟩ | ⟨e, u, hf, h'⟩ := deserializePass_cases s <;>
    rw [h'] at h <;> rw [hf] at hfr hio hrd
  · left
    obtain ⟨hb, hs⟩ := execRecord_br_src h
    have ha := execRecord_answers h
    rw [AnsweredWell, hfr.host] at ha
    exact ⟨hrd.trans (.of_eq hb hs), ha⟩
  · left
    cases h
    exact ⟨hrd.trans (.of_eq rfl rfl), .inr ⟨rfl, .corruptTree, 0#9,
      host_raise (t := spoilNode u) .corruptTree hfr.host, by simp⟩⟩
  · right
    cases h
    cases hio
    exact ⟨⟨hrd.replies, hrd.fail⟩, rfl, raiseInTdes_ioError_answers hfr.host⟩

/-- TDES's loop, once ended: all its SrcReads went well and the answer is not IOERR, or one failed and it is. -/
theorem deserializeLoop_readsWell_or_failed (n : Nat) {s t : State} (hp : s.phase = .deserializing)
    (ht : t.phase = .idle) (h : codecLoop deserializePass n s = .next t) :
    (ReadsWell s t ∧ AnsweredWell s t) ∨ (ReadsFailed s t ∧ AnsweredIoErr s t) := by
  induction n generalizing s with
  | zero =>
    cases h
    rw [hp] at ht
    cases ht
  | succ n ih =>
    obtain ⟨u, hu⟩ := deserializePass_next s
    rw [codecLoop_succ _ _ (by rw [hp]; simp), hu, afterPass] at h
    have stop (hi : u.phase = .idle) : u = t := by
      rw [codecLoop_idle _ _ hi] at h
      cases h
      rfl
    obtain ⟨hw, ⟨hpu, hh⟩ | ⟨hi, ha⟩⟩ | ⟨hf, hi, ha⟩ := deserializePass_reads hu
    · rw [AnsweredWell, AnsweredIoErr, ← hh]
      exact (ih hpu h).imp (fun ⟨k, a⟩ => ⟨hw.trans k, a⟩) fun ⟨k, a⟩ => ⟨hw.trans_failed k, a⟩
    · cases stop hi
      exact .inl ⟨hw, ha⟩
    · cases stop hi
      exact .inr ⟨hf, ha⟩

/-! ### TDES leaves entry 511 alone -/

/-- Between two passes of TDES the next free entry and every node that waits for its right child lie below 511 (R152,
R158). -/
structure BuildsBelow511 (s : State) : Prop where
  counters : CountersOk s
  next : s.tc.t_next = s.tc.t_nint + s.tc.t_nleaf
  stk : ∀ p ∈ s.tc.t_stk, p.toNat ≤ 510

theorem BuildsBelow511.next_le {s : State} (h : BuildsBelow511 s) : (nodeIdx s.tc.t_next).toNat ≤ 510 := by
  have hle := h.counters.nodesSeen_le
  rw [nodesSeen, ← h.next] at hle
  rw [toNat_nodeIdx (by omega)]
  exact hle

theorem get?_buildNode_511 {s : State} (h : BuildsBelow511 s) (v : NodeWord) :
    Arena.get? (buildNode v s).node 511 = Arena.get? s.node 511 := by
  have hle := h.next_le
  rw [buildNode_node, Arena.get?_put_other _ _ (by omega)]

theorem get?_spoilNode_511 (s : State) : Arena.get? (spoilNode s).node 511 = Arena.get? s.node 511 := by
  rw [spoilNode_node, Arena.get?_spoil, if_neg (by omega)]

/-- A record's meaning writes no entry above 510, and leaves none waiting there. -/
theorem execRecord_511 {r : Record} {s t : State} (hs : BuildsBelow511 s) (h : execRecord r s = .next t) :
    Arena.get? t.node 511 = Arena.get? s.node 511 ∧ ∀ p ∈ t.tc.t_stk, p.toNat ≤ 510 := by
  cases r with
  | leaf sym =>
    have hb := get?_buildNode_511 hs (mkEntry false sym 0#9 0#9)
    simp only [execRecord, execLeaf, linkRight] at h
    split at h <;> cases h
    · exact ⟨hb, hs.stk⟩
    · rename_i p below hst
      have hstk : ∀ q ∈ p :: below, q.toNat ≤ 510 := hst ▸ hs.stk
      obtain ⟨hp, hbelow⟩ := List.forall_mem_cons.mp hstk
      exact ⟨(Arena.get?_put_other _ _ (by omega)).trans hb, hbelow⟩
  | internal =>
    simp only [execRecord, execInternal] at h
    split at h <;> cases h
    · exact ⟨get?_spoilNode_511 s, hs.stk⟩
    · exact ⟨get?_buildNode_511 hs _, List.forall_mem_cons.mpr ⟨hs.next_le, hs.stk⟩⟩

theorem BuildsBelow511.congr {s t : State} (h : BuildsBelow511 s) (ht : t.tc = s.tc) : BuildsBelow511 t := by
  obtain ⟨hc, hn, hs⟩ := h
  exact ⟨by unfold CountersOk; rw [ht]; exact hc, by rw [ht]; exact hn, by rw [ht]; exact hs⟩

theorem deserializePass_511 {s t : State} (hs : BuildsBelow511 s) (h : deserializePass s = .next t) :
    Arena.get? t.node 511 = Arena.get? s.node 511 ∧ (t.phase = .idle ∨ BuildsBelow511 t) := by
  have hspec := deserializePass_spec h
  have hfr := fetchRecord_frame s
  obtain ⟨r, u, hf, h'⟩ | ⟨u, hf, h'⟩ | ⟨e, u, hf, h'⟩ := deserializePass_cases s <;>
    rw [h'] at h <;> rw [hf] at hfr
  · obtain ⟨hnode, hstk⟩ := execRecord_511 (hs.congr hfr.tc) h
    refine ⟨by rw [hnode, hfr.node], hspec.phase.imp id fun hp => ?_⟩
    obtain ⟨hbal, hmax, hseen, hnext⟩ := hspec.codec hp hs.counters.1 hs.counters.2
    exact ⟨⟨hbal, hmax⟩, by rw [hnext, hs.next]; exact hseen.symm, hstk⟩
  · cases h
    exact ⟨by rw [← hfr.node]; exact get?_spoilNode_511 u, .inl rfl⟩
  · cases h
    exact ⟨by rw [← hfr.node]; exact get?_spoilNode_511 u, .inl rfl⟩

/-- TDES never touches entry 511 (R152, R161). -/
theorem execTdes_511 {s t : State} (h : execTdes s = .next t) : Arena.get? t.node 511 = Arena.get? s.node 511 := by
  obtain ⟨_, rfl⟩ | ⟨_, h⟩ := readerSide_cases h
  · rfl
  · have hstart : BuildsBelow511 (startCodec .deserializing s.tc.t_cur 0 s) :=
      ⟨countersOk_startCodec _ _ _ _, rfl, by simp⟩
    refine (codecLoop_keeps (s := startCodec .deserializing s.tc.t_cur 0 s)
      (P := fun u => Arena.get? u.node 511 = Arena.get? s.node 511 ∧ (u.phase = .idle ∨ BuildsBelow511 u))
      (fun u v ⟨hu, hb⟩ hne hv => ?_) codecFuel ⟨rfl, .inr hstart⟩ h).1
    obtain ⟨hnode, hb'⟩ := deserializePass_511 (hb.resolve_left hne) hv
    exact ⟨hnode.trans hu, hb'⟩

/-- Once NODE[0..510] holds no value after a TDES, NODE is as R161 says. -/
theorem memRead_of_failed_tdes {s t : State} (h : execTdes s = .next t)
    (hn : ∀ i, i ≤ 510 → Arena.get? t.node i = none) (i : NodeIdx) :
    memRead t i = if i.toNat ≤ 510 then none else memRead s i := by
  split
  · rename_i hi
    exact hn _ hi
  · have hi : i.toNat = 511 := by omega
    rw [memRead, memRead, hi]
    exact execTdes_511 h

/-- A TDES that has read a beginning of a tree when a refill fails (R154, R175). -/
theorem execTdes_of_failed_refill {T : Tree} {bits missing : List Bool} {s u v : State} (hf : s.br.r_fail = false)
    (hT : T.leaves ≤ 256) (hb : bits ++ missing = T.serialize) (hm : missing ≠ [])
    (hr : readBitList bits.length s = .done (some bits) u) (hx : readBit u = .raised .ioError v) :
    ∃ t, exec .tdes s = .next t ∧ t.br = v.br ∧ t.src = v.src ∧ t.host = s.host.answered .ioErr 0#9
      ∧ t.phase = .idle ∧ (∀ i, memRead t i = if i.toNat ≤ 510 then none else memRead s i)
      ∧ DeserializeFrame s t := by
  have hleaves := T.leaves_eq
  have hsize := T.size_eq
  obtain ⟨tc, htc⟩ : ∃ tc, startCodec .deserializing s.tc.t_cur 0 s = inCodec tc .deserializing s.node s := ⟨_, rfl⟩
  have hr' := readBitList_inCodec tc .deserializing s.node bits.length s
  have hx' := readBit_inCodec tc .deserializing s.node u
  rw [hr, ← htc] at hr'
  rw [hx] at hx'
  obtain ⟨t, hloop, hbr, hsrc, hhost, hidle, hnode, hframe⟩ := deserializeLoop_raises codecFuel (ts := [T])
    (s := startCodec .deserializing s.tc.t_cur 0 s) rfl rfl (by simpa [serializeAll] using hb) hm
    (by simp [internalsAll]; omega) hr' hx'
    (by simp [codecFuel, Config.maxInternal, Config.maxLeaves]; omega)
  have hrun : execTdes s = .next t := (execTdes_of_noFail hf).trans hloop
  exact ⟨t, hrun, hbr, hsrc, hhost, hidle, memRead_of_failed_tdes hrun hnode,
    ⟨hframe.1, hframe.2, hframe.3, hframe.4, hframe.5, hframe.6⟩⟩

/-- Settles O31: RBIT raises at its one bit; a TDES at the bit after a beginning of a tree, (b) being the empty beginning;
and (d) TDES answers IOERR exactly when a SrcRead it made failed. -/
theorem failedRefillAnswersIoErr : Obligations.FailedRefillAnswersIoErr := by
  refine ⟨fun s a hf hpos he ha => ?_, fun T bits missing s u v hf hT hb hm hr hx => ?_, fun s t hf h => ?_⟩
  · have hp : s.br.r_buf[s.br.r_pos]? = none := List.getElem?_eq_none (Nat.le_of_eq hpos.symm)
    have hx := readBit_of_failed_refill hp he ha
    have hrun := execRbit_of_raised hf hx
    obtain ⟨t, ht, hbr, hsrc, hhost, hidle, hnode, hfr⟩ := execTdes_of_failed_refill (T := .leaf 0#8) (bits := []) hf
      (by decide) rfl (by decide) rfl hx
    refine ⟨⟨_, hrun, rfl, he, failedRefill_src_pos a s, rfl, execRbit_onlyReaderSide hrun⟩,
      t, ht, by rw [hbr]; rfl, by rw [hbr]; exact he, by rw [hsrc]; exact failedRefill_src_pos a s,
      by rw [hhost]; rfl, hidle, hnode, hfr.chunkBytes, hfr.bw, hfr.sink, hfr.srcBytes, hfr.pending, hfr.nodeReads⟩
  · have hrd := readBit_raisesOnFailedRead u
    rw [hx] at hrd
    obtain ⟨t, ht, hbr, hsrc, hhost, hidle, hnode, hfr⟩ := execTdes_of_failed_refill hf hT hb hm hr hx
    exact ⟨t, ht, hbr, by rw [hbr]; exact hrd.fail, hsrc, by rw [hhost]; rfl, hidle, hnode, hfr.chunkBytes, hfr.bw,
      hfr.sink, hfr.pending, hfr.nodeReads⟩
  · have hl := (execTdes_of_noFail hf).symm.trans h
    obtain ⟨⟨⟨replies, htx, hnone⟩, hfail⟩, st, d, hhost, hst⟩ | ⟨⟨⟨replies, htx, hsome⟩, hfail⟩, hhost, hnode⟩ :=
      deserializeLoop_readsWell_or_failed codecFuel rfl (deserializeLoop_idle hl) hl
    · refine ⟨replies, htx, fun hin => absurd hin hnone, fun hor => ?_⟩
      obtain hlast | hset := hor
      · exact absurd ((lastStatus_answered hhost _).mp hlast) hst
      · exact absurd (hfail.symm.trans hset) (by rw [startCodec_br, hf]; simp)
    · exact ⟨replies, htx, fun _ => ⟨hfail, by rw [hhost]; rfl, memRead_of_failed_tdes h hnode⟩, fun _ => hsome⟩

end Sys2Proof.Machine
end

section
/-! Codes and their meanings (30_encoding.md R80 to R90): the fields of a 16-bit word, command words, node entries and
records, responses, the lines of the textual form (R94, R95), and the serialization of a tree (R89). -/

namespace Sys2Proof.Machine

/-! ### The three fields of a 16-bit word -/

theorem cmdOp_append (op : BitVec 4) (z : BitVec 3) (arg : BitVec 9) : cmdOp (op ++ z ++ arg) = op := by
  rw [cmdOp, BitVec.append_assoc]
  exact BitVec.extractLsb'_append_eq_left

theorem cmdZ_append (op : BitVec 4) (z : BitVec 3) (arg : BitVec 9) : cmdZ (op ++ z ++ arg) = z := by
  rw [cmdZ, BitVec.extractLsb'_append_eq_of_le (by omega)]
  exact BitVec.extractLsb'_append_eq_right

theorem cmdArg_append (op : BitVec 4) (z : BitVec 3) (arg : BitVec 9) : cmdArg (op ++ z ++ arg) = arg :=
  BitVec.extractLsb'_append_eq_right

/-- A word is its three fields (R80). -/
theorem append_cmdFields (w : CmdWord) : cmdOp w ++ cmdZ w ++ cmdArg w = w := by
  rw [cmdOp, cmdZ, cmdArg, BitVec.extractLsb'_append_extractLsb'_eq_extractLsb' (by omega),
    BitVec.extractLsb'_append_extractLsb'_eq_extractLsb' (by omega)]
  exact BitVec.extractLsb'_eq_self

@[simp] theorem cmdOp_mkCommand (op : BitVec 4) (arg : BitVec 9) : cmdOp (mkCommand op arg) = op := cmdOp_append _ _ _

@[simp] theorem cmdZ_mkCommand (op : BitVec 4) (arg : BitVec 9) : cmdZ (mkCommand op arg) = 0#3 := cmdZ_append _ _ _

@[simp] theorem cmdArg_mkCommand (op : BitVec 4) (arg : BitVec 9) : cmdArg (mkCommand op arg) = arg :=
  cmdArg_append _ _ _

/-- With `z` = 000 a word is its `op` and its `arg`. -/
theorem mkCommand_cmdFields {w : CmdWord} (h : cmdZ w = 0#3) : mkCommand (cmdOp w) (cmdArg w) = w := by
  rw [mkCommand, ← h, append_cmdFields]

/-! ### The rows of the opcode table -/

/-- A mask that keeps `op`, `z` and the bits `m` of `arg` selects by fields (R81). -/
theorem and_mask_eq_mkCommand_iff (w : CmdWord) (m p : BitVec 9) (op : BitVec 4) :
    w &&& (0xF#4 ++ 0x7#3 ++ m) = mkCommand op p ↔ cmdOp w = op ∧ cmdZ w = 0#3 ∧ cmdArg w &&& m = p := by
  have hand : w &&& (0xF#4 ++ 0x7#3 ++ m) = cmdOp w ++ cmdZ w ++ (cmdArg w &&& m) := by
    conv_lhs => rw [← append_cmdFields w]
    rw [BitVec.and_append, BitVec.and_append, show 0xF#4 = BitVec.allOnes 4 from rfl,
      show 0x7#3 = BitVec.allOnes 3 from rfl, BitVec.and_allOnes, BitVec.and_allOnes]
  rw [hand, mkCommand]
  constructor
  · intro h
    have hop := congrArg cmdOp h
    have hz := congrArg cmdZ h
    have harg := congrArg cmdArg h
    rw [cmdOp_append, cmdOp_append] at hop
    rw [cmdZ_append, cmdZ_append] at hz
    rw [cmdArg_append, cmdArg_append] at harg
    exact ⟨hop, hz, harg⟩
  · rintro ⟨hop, hz, harg⟩
    rw [hop, hz, harg]

/-- The bits of a word above its lowest are 0 exactly when half of it is. -/
theorem and_not_one_eq_zero_iff {n : Nat} (a : BitVec n) : a &&& ~~~1#n = 0#n ↔ a.toNat / 2 = 0 := by
  constructor
  · intro h
    refine Nat.eq_of_testBit_eq fun i => ?_
    have hbit := congrArg (BitVec.getLsbD · (i + 1)) h
    simp only [BitVec.getLsbD_and, BitVec.getLsbD_not, BitVec.getLsbD_one, BitVec.getLsbD_zero] at hbit
    rw [Nat.testBit_div_two, BitVec.testBit_toNat, Nat.zero_testBit]
    by_cases hi : i + 1 < n
    · simpa [hi] using hbit
    · exact BitVec.getLsbD_of_ge _ _ (by omega)
  · intro h
    refine BitVec.eq_of_getLsbD_eq fun i hi => ?_
    simp only [BitVec.getLsbD_and, BitVec.getLsbD_not, BitVec.getLsbD_one, BitVec.getLsbD_zero]
    cases i with
    | zero => simp [hi]
    | succ i => rw [← BitVec.testBit_toNat, ← Nat.testBit_div_two, h, Nat.zero_testBit, Bool.false_and]

/-- WBIT is selected by its `op`, with every bit of `arg` but the lowest 0. -/
theorem selects_wbit_iff (w : CmdWord) :
    w &&& 0xFFFE#16 = 0x1000#16 ↔ cmdOp w = 0x1#4 ∧ cmdZ w = 0#3 ∧ (cmdArg w).toNat / 2 = 0 := by
  rw [← and_not_one_eq_zero_iff]
  exact and_mask_eq_mkCommand_iff w (~~~1#9) 0#9 0x1#4

/-- TSER is selected by its `op`, whatever `arg` is. -/
theorem selects_tser_iff (w : CmdWord) : w &&& 0xFE00#16 = 0x8000#16 ↔ cmdOp w = 0x8#4 ∧ cmdZ w = 0#3 := by
  have h := and_mask_eq_mkCommand_iff w 0#9 0#9 0x8#4
  rw [BitVec.and_zero] at h
  exact h.trans (and_congr_right fun _ => and_iff_left rfl)

/-- The other commands are selected by their `op`, with `arg` 0. -/
theorem selects_plain_iff (w : CmdWord) (op : BitVec 4) :
    w &&& 0xFFFF#16 = mkCommand op 0#9 ↔ cmdOp w = op ∧ cmdZ w = 0#3 ∧ cmdArg w = 0#9 := by
  have h := and_mask_eq_mkCommand_iff w (BitVec.allOnes 9) 0#9 op
  rw [BitVec.and_allOnes] at h
  exact h

/-- Decoding, said by fields (R80, R81). -/
theorem decodeCommand_eq_fields (w : CmdWord) : decodeCommand w =
    if cmdOp w = 0x1#4 ∧ cmdZ w = 0#3 ∧ (cmdArg w).toNat / 2 = 0 then .instr (.wbit ((cmdArg w).getLsbD 0))
    else if cmdOp w = 0x2#4 ∧ cmdZ w = 0#3 ∧ cmdArg w = 0#9 then .instr .wflush
    else if cmdOp w = 0x3#4 ∧ cmdZ w = 0#3 ∧ cmdArg w = 0#9 then .instr .wrst
    else if cmdOp w = 0x4#4 ∧ cmdZ w = 0#3 ∧ cmdArg w = 0#9 then .instr .rbit
    else if cmdOp w = 0x5#4 ∧ cmdZ w = 0#3 ∧ cmdArg w = 0#9 then .instr .ralign
    else if cmdOp w = 0x6#4 ∧ cmdZ w = 0#3 ∧ cmdArg w = 0#9 then .instr .rrst
    else if cmdOp w = 0x8#4 ∧ cmdZ w = 0#3 then .instr (.tser (cmdArg w))
    else if cmdOp w = 0x9#4 ∧ cmdZ w = 0#3 ∧ cmdArg w = 0#9 then .instr .tdes
    else .illegal (illegalReason w) := by
  simp only [← selects_wbit_iff, ← selects_tser_iff, ← selects_plain_iff]
  rfl

/-! ### Commands: decoding and encoding agree -/

theorem eq_mkCommand_of_fields {w : CmdWord} {op : BitVec 4} {arg : BitVec 9}
    (h : cmdOp w = op ∧ cmdZ w = 0#3 ∧ cmdArg w = arg) : mkCommand op arg = w := by
  obtain ⟨rfl, hz, rfl⟩ := h
  exact mkCommand_cmdFields hz

/-- A word below 2 is its lowest bit. -/
theorem setWidth_ofBool_getLsbD_zero {n : Nat} {a : BitVec n} (h : a.toNat / 2 = 0) :
    (BitVec.ofBool (a.getLsbD 0)).setWidth n = a := by
  refine BitVec.eq_of_getLsbD_eq fun i hi => ?_
  rw [BitVec.getLsbD_setWidth, BitVec.getLsbD_ofBool]
  cases i with
  | zero => simp [hi]
  | succ i =>
    have hbit : a.getLsbD (i + 1) = false := by
      rw [← BitVec.testBit_toNat, ← Nat.testBit_div_two, h, Nat.zero_testBit]
    simp [hbit]

/-- A command word that decodes to an instruction is its encoding. -/
theorem encode_of_decodeCommand {w : CmdWord} {i : Instr} (h : decodeCommand w = .instr i) :
    encode i = .command w := by
  rw [decodeCommand_eq_fields] at h
  split_ifs at h with hf hf hf hf hf hf hf hf <;> cases h <;>
    refine congrArg Code.command (eq_mkCommand_of_fields ?_)
  -- the six commands without an operand: the row's own test gives the fields
  any_goals exact hf
  · obtain ⟨hop, hz, harg⟩ := hf
    exact ⟨hop, hz, (setWidth_ofBool_getLsbD_zero harg).symm⟩
  · obtain ⟨hop, hz⟩ := hf
    exact ⟨hop, hz, rfl⟩

theorem decodeCommand_tser (root : NodeIdx) : decodeCommand (mkCommand 0x8#4 root) = .instr (.tser root) := by
  simp [decodeCommand_eq_fields]

/-- The other commands have no operand, so each is one word. -/
theorem decodeCommand_plain :
    decodeCommand (mkCommand 0x2#4 0#9) = .instr .wflush ∧ decodeCommand (mkCommand 0x3#4 0#9) = .instr .wrst
      ∧ decodeCommand (mkCommand 0x4#4 0#9) = .instr .rbit ∧ decodeCommand (mkCommand 0x5#4 0#9) = .instr .ralign
      ∧ decodeCommand (mkCommand 0x6#4 0#9) = .instr .rrst ∧ decodeCommand (mkCommand 0x9#4 0#9) = .instr .tdes := by
  decide

/-! ### Node entries -/

theorem ofBool_entryKind (e : NodeWord) : BitVec.ofBool (entryKind e) = e.extractLsb' 26 1 := by
  refine BitVec.eq_of_getLsbD_eq fun i hi => ?_
  obtain rfl : i = 0 := by omega
  simp [entryKind]

/-- An entry is put together from its own fields (R84). -/
theorem mkEntry_fields (e : NodeWord) : mkEntry (entryKind e) (entrySym e) (entryLeft e) (entryRight e) = e := by
  rw [mkEntry, ofBool_entryKind, entrySym, entryLeft, entryRight,
    BitVec.extractLsb'_append_extractLsb'_eq_extractLsb' (by omega),
    BitVec.extractLsb'_append_extractLsb'_eq_extractLsb' (by omega),
    BitVec.extractLsb'_append_extractLsb'_eq_extractLsb' (by omega)]
  exact BitVec.extractLsb'_eq_self

/-- Settles O6, by the fields of an entry made from fields and by the entry made from its own. -/
theorem nodeEntryIsItsFields : Obligations.NodeEntryIsItsFields :=
  ⟨fun k sym l r => ⟨entryKind_mkEntry k sym l r, entrySym_mkEntry k sym l r,
    entryLeft_mkEntry k sym l r, entryRight_mkEntry k sym l r⟩, mkEntry_fields⟩

theorem decodeEntry_mkEntry (k : Bool) (sym : Symbol) (l r : NodeIdx) :
    decodeEntry (mkEntry k sym l r) = if k then .nodeInternal sym l r else .nodeLeaf sym l r := by
  rw [decodeEntry, entryKind_mkEntry, entrySym_mkEntry, entryLeft_mkEntry,
    entryRight_mkEntry]

theorem encode_decodeEntry (e : NodeWord) : encode (decodeEntry e) = .entry e := by
  have he := mkEntry_fields e
  unfold decodeEntry
  cases hk : entryKind e <;> rw [hk] at he <;> exact congrArg Code.entry he

/-! ### Records -/

theorem decodeRecord_bits (r : Record) (rest : List Bool) : decodeRecord (Record.bits r ++ rest) = some (r, rest) := by
  cases r with
  | internal => rfl
  | leaf sym =>
    have hlen : ¬ (msbBits sym ++ rest).length < 8 := by simp
    rw [Record.bits, leafRecord, List.cons_append, decodeRecord, if_neg hlen, List.take_left' (length_msbBits sym),
      List.drop_left' (length_msbBits sym), symbolOfBits_msbBits]

/-- The decoder reads a record from the bits exactly when they begin with it (R88, R90). -/
theorem decodeRecord_eq_some_iff {bs : List Bool} {r : Record} {rest : List Bool} :
    decodeRecord bs = some (r, rest) ↔ bs = Record.bits r ++ rest := by
  refine ⟨fun h => ?_, fun h => h ▸ decodeRecord_bits r rest⟩
  match bs with
  | [] => cases h
  | true :: bs =>
    cases h
    rfl
  | false :: bs =>
    rw [decodeRecord] at h
    split at h <;> cases h
    rename_i hlen
    rw [Record.bits, leafRecord, msbBits_symbolOfBits (by simp; omega), List.cons_append, List.take_append_drop]

theorem encode_recordInstr (r : Record) : encode r.instr = .record (Record.bits r) := by
  cases r <;> rfl

theorem decode_record (r : Record) : decode (.record (Record.bits r)) = .instr r.instr := by
  have h := decodeRecord_bits r []
  rw [List.append_nil] at h
  simp only [decode, h]

/-! ### All three shapes of a code -/

/-- Settles O2, by the shape the instruction is encoded in. -/
theorem decodeOfEncodeIsTheInstruction : Obligations.DecodeOfEncodeIsTheInstruction := by
  intro i _
  obtain ⟨hwflush, hwrst, hrbit, hralign, hrrst, htdes⟩ := decodeCommand_plain
  cases i with
  | wbit b => exact decodeCommand_wbit b
  | wflush => exact hwflush
  | wrst => exact hwrst
  | rbit => exact hrbit
  | ralign => exact hralign
  | rrst => exact hrrst
  | tser root => exact decodeCommand_tser root
  | tdes => exact htdes
  | leaf sym => exact decode_record (.leaf sym)
  | internal => exact decode_record .internal
  | nodeLeaf sym l r => exact congrArg Decoded.instr (decodeEntry_mkEntry false sym l r)
  | nodeInternal sym l r => exact congrArg Decoded.instr (decodeEntry_mkEntry true sym l r)

/-- Settles O3, by the shape of the code. -/
theorem encodeOfDecodedCodeIsTheCode : Obligations.EncodeOfDecodedCodeIsTheCode := by
  intro c i h
  cases c with
  | command w => exact encode_of_decodeCommand h
  | entry e =>
    cases h
    exact encode_decodeEntry e
  | record bits =>
    simp only [decode] at h
    split at h <;> cases h
    rename_i r hr
    rw [encode_recordInstr, decodeRecord_eq_some_iff.mp hr, List.append_nil]

/-! ### Illegal words -/

/-- No row of the table selects a word exactly when its fields are those of R86. -/
theorem decodeCommand_illegal_iff (w : CmdWord) : (∃ why, decodeCommand w = .illegal why) ↔
    (cmdOp w = 0x0#4 ∨ cmdOp w = 0x7#4 ∨ 0xA ≤ (cmdOp w).toNat)
      ∨ cmdZ w ≠ 0#3
      ∨ (cmdOp w = 0x1#4 ∧ (cmdArg w).toNat / 2 ≠ 0)
      ∨ ((cmdOp w = 0x2#4 ∨ cmdOp w = 0x3#4 ∨ cmdOp w = 0x4#4 ∨ cmdOp w = 0x5#4 ∨ cmdOp w = 0x6#4 ∨ cmdOp w = 0x9#4)
          ∧ cmdArg w ≠ 0#9) := by
  rw [decodeCommand_eq_fields]
  generalize cmdOp w = op
  generalize cmdZ w = z
  generalize cmdArg w = arg
  -- each row's test holds or fails in turn; what is left is arithmetic about a 4-bit, a 3-bit and a 9-bit number
  split_ifs
  all_goals simp only [exists_false, false_iff, Decoded.illegal.injEq, exists_eq', true_iff]
  all_goals bv_omega

theorem decodeCommand_instr_iff_selects (w : CmdWord) :
    (∃ i, decodeCommand w = .instr i) ↔ ∃ r ∈ opcodeTable, r.selects w = true := by
  simp only [opcodeTable, OpRow.selects, List.exists_mem_cons_iff, List.not_mem_nil, false_and, exists_false, or_false,
    beq_iff_eq]
  unfold decodeCommand
  split_ifs <;> simp [*]

/-- A row of the table that selects a word has the word's `op` (R81). -/
theorem cmdOp_of_selects {r : OpRow} (hr : r ∈ opcodeTable) {w : CmdWord} (h : r.selects w = true) :
    cmdOp r.pattern = cmdOp w := by
  have hmask : ∀ r ∈ opcodeTable, cmdOp r.mask = BitVec.allOnes 4 := by decide
  rw [← beq_iff_eq.mp h, cmdOp, BitVec.extractLsb'_and]
  exact (congrArg (cmdOp w &&& ·) (hmask r hr)).trans BitVec.and_allOnes

/-- No two rows of the table have one `op`, so no two select one word (R81). -/
theorem length_filter_selects_le_one (w : CmdWord) : (opcodeTable.filter fun r => r.selects w).length ≤ 1 := by
  have hnodup : (opcodeTable.map fun r => cmdOp r.pattern).Nodup := by decide
  have hsub := hnodup.sublist ((List.filter_sublist (p := fun r => r.selects w) (l := opcodeTable)).map _)
  have hall : (opcodeTable.filter fun r => r.selects w).map (fun r => cmdOp r.pattern)
      = List.replicate (opcodeTable.filter fun r => r.selects w).length (cmdOp w) := by
    refine List.eq_replicate_iff.mpr ⟨List.length_map _, fun op hop => ?_⟩
    obtain ⟨r, hr, rfl⟩ := List.mem_map.mp hop
    obtain ⟨hmem, hsel⟩ := List.mem_filter.mp hr
    exact cmdOp_of_selects hmem hsel
  rw [hall] at hsub
  exact List.nodup_replicate.mp hsub

theorem decodeCommand_instr_iff_length (w : CmdWord) :
    (∃ i, decodeCommand w = .instr i) ↔ (opcodeTable.filter fun r => r.selects w).length = 1 := by
  have hle := length_filter_selects_le_one w
  have hpos : (∃ r ∈ opcodeTable, r.selects w = true) ↔ 0 < (opcodeTable.filter fun r => r.selects w).length := by
    rw [List.length_pos_iff_exists_mem]
    simp only [List.mem_filter]
  rw [decodeCommand_instr_iff_selects, hpos]
  omega

theorem runCommand_of_illegal {w : CmdWord} {why : Illegal} (h : decodeCommand w = .illegal why) (s : State) :
    runCommand w s = .next (answerIllegal s) := by
  simp only [runCommand, h]

/-- Settles O4: by fields, by the table's rows, and by the answer to an illegal word. -/
theorem illegalWordsAreThoseOfR86 : Obligations.IllegalWordsAreThoseOfR86 := by
  refine ⟨decodeCommand_illegal_iff, decodeCommand_instr_iff_length, fun s w why rest hp hw hd => ?_,
    ⟨_, rfl⟩, ⟨_, rfl⟩⟩
  rw [step_of_idle hp, stepIdle_cons hw, dropMove_of_pending hw]
  refine (runCommand_of_illegal hd _).trans (congrArg _ ?_)
  rw [answerIllegal, respond, ← hp]
  rfl

/-! ### Responses -/

theorem rspData_responseWord (st : Status) (d : BitVec 9) :
    rspData (responseWord st d) = if st = .ok then d else 0#9 :=
  cmdArg_append _ _ _

/-- Settles O5: a response word has the three fields of a 16-bit word (R83). -/
theorem responseWordFields : Obligations.ResponseWordFields :=
  fun st d => ⟨rspStatus_responseWord st d, rspData_responseWord st d, cmdZ_append _ _ _⟩

/-- Settles O1, word by word. -/
theorem handWrittenWordsDecode : Obligations.HandWrittenWordsDecode := by
  unfold Obligations.HandWrittenWordsDecode
  decide

/-! ### Lines -/

theorem expandLine_of_wellFormed {l : Line} (h : l.wellFormed = true) : expandLine l = some (lineMoves l) :=
  if_pos h

/-- The word of TSER is 0x8000 plus its root (R81). -/
theorem mkCommand_tser {root : Nat} (h : root ≤ 511) :
    mkCommand 0x8#4 (nodeIdx root) = BitVec.ofNat 16 (0x8000 + root) := by
  refine eq_mkCommand_of_fields ⟨?_, ?_, ?_⟩ <;> apply BitVec.eq_of_toNat_eq <;>
    simp only [cmdOp, cmdZ, cmdArg, nodeIdx, BitVec.extractLsb'_toNat, BitVec.toNat_ofNat] <;> omega

/-- Settles O8, line by line. -/
theorem linesExpandToTheirWords : Obligations.LinesExpandToTheirWords := by
  refine ⟨rfl, rfl, rfl, rfl, rfl, rfl, rfl, rfl, fun root h => ?_, fun i sym hi hs => ?_, fun i l r hi hl hr => ?_⟩
  · rw [expandLine_of_wellFormed (by simpa [Line.wellFormed] using h), ← mkCommand_tser h]
    rfl
  · exact expandLine_of_wellFormed (by simp [Line.wellFormed, hi, hs])
  · exact expandLine_of_wellFormed (by simp [Line.wellFormed, hi, hl, hr])

/-- Settles O59, by whether the move was answered OK. -/
theorem aLineStopsAtTheFirstResponseNotOk : Obligations.ALineStopsAtTheFirstResponseNotOk := by
  intro m rest s t h
  simp only [runLine, h]
  exact ⟨fun ha => if_pos ha, fun ha => if_neg (by simp [ha])⟩

/-! ### The serialization of a tree is self-delimiting (R89) -/

theorem serialize_append_inj {T U : Tree} {x y : List Bool} (h : T.serialize ++ x = U.serialize ++ y) :
    T = U ∧ x = y := by
  induction T generalizing U x y with
  | leaf s =>
    cases U with
    | leaf t =>
      obtain ⟨rfl, hxy⟩ := leafRecord_inj h
      exact ⟨rfl, hxy⟩
    | node l r => simp [Tree.serialize, leafRecord, internalRecord] at h
  | node l r ihl ihr =>
    cases U with
    | leaf t => simp [Tree.serialize, leafRecord, internalRecord] at h
    | node l' r' =>
      simp only [Tree.serialize, internalRecord, List.append_assoc, List.append_cancel_left_eq] at h
      obtain ⟨rfl, hr⟩ := ihl h
      obtain ⟨rfl, hxy⟩ := ihr hr
      exact ⟨rfl, hxy⟩

/-- Settles O41, by induction on the tree. -/
theorem serializationIsSelfDelimiting : Obligations.SerializationIsSelfDelimiting := by
  refine ⟨fun T => ⟨T.length_serialize, ?_⟩, fun T U x y => serialize_append_inj⟩
  rw [T.leaves_eq, Nat.add_sub_cancel]

end Sys2Proof.Machine
end

section
/-! One record and one pass (30_encoding.md R88, R90; 42_treecodec.md R153), and the one response of each command
(30_encoding.md R83; 43_command_classes.md R193; 60_exceptions.md R170). -/

namespace Sys2Proof.Machine

/-! ### The record TDES fetches -/

/-- Settles O14, by whether the bits next in SRC begin with a record. -/
theorem fetchedRecordIsTheDecodedOne : Obligations.FetchedRecordIsTheDecodedOne := by
  intro s hs
  cases hd : decodeRecord (unreadBits s) with
  | some p =>
    obtain ⟨r, rest⟩ := p
    have hu := decodeRecord_eq_some_iff.mp hd
    obtain ⟨t, hf, _, hfr, hrest, hpos⟩ := fetchRecord_bits hs r hu
    refine ⟨t, hf, fun r' rest' h => ?_, hfr.onlyReaderSide, hfr.phase, hfr.host⟩
    cases h
    refine ⟨hrest, ?_⟩
    rw [encode_recordInstr, hpos, Nat.add_sub_cancel_left, hu, List.take_left]
  | none =>
    obtain ⟨r, t, hf, _, hfr, hleaf, hinternal⟩ := fetchRecord_live hs
    have hr : r = none := by
      cases r with
      | none => rfl
      | some r =>
        have hu : unreadBits s = Record.bits r ++ unreadBits t := by
          cases r with
          | leaf sym => exact hleaf sym rfl
          | internal => exact hinternal rfl
        rw [decodeRecord_eq_some_iff.mpr hu] at hd
        cases hd
    subst hr
    exact ⟨t, hf, fun _ _ h => absurd h (by simp), hfr.onlyReaderSide, hfr.phase, hfr.host⟩

/-! ### TSER's passes while no transaction fails -/

/-- A writer that can work is one by its own storage alone. -/
theorem WriterReady.congr {s t : State} (h : WriterReady s) (hc : t.chunkBytes = s.chunkBytes) (hb : t.bw = s.bw)
    (hk : t.sink = s.sink) : WriterReady t := by
  obtain ⟨_, hinv⟩ := WriterOk.congr ⟨h.chunk, h.inv⟩ hc hb
  exact ⟨hc ▸ h.chunk, hb ▸ h.noFail, hinv, by rw [SinkNeverFails, hk]; exact h.never⟩

theorem nextSubtree_nil {s : State} (h : s.tc.t_stk = []) :
    nextSubtree s = .next (respond .ok (BitVec.ofNat 9 s.tc.t_nleaf) s) := by
  simp only [nextSubtree, h, endCodec]

theorem nextSubtree_cons {s : State} {top : NodeIdx} {below : List NodeIdx} (h : s.tc.t_stk = top :: below) :
    nextSubtree s = .next { s with phase := .serializing, tc := { s.tc with t_cur := top, t_stk := below } } := by
  simp only [nextSubtree, h]

/-- Settles O36: the writer takes the record, and what follows a leaf is told by the stack. -/
theorem nodeLeafPassWritesTheLeafRecord : Obligations.NodeLeafPassWritesTheLeafRecord := by
  intro sym l r s hs
  obtain ⟨t, _, hw, hready, hfr, hbits, _⟩ := writeBitList_live (leafRecord sym) hs
  have hexec : exec (.nodeLeaf sym l r) s = nextSubtree (countLeaf t) := by
    simp only [exec, execNodeLeaf_eq, hw]
  cases hstk : s.tc.t_stk with
  | nil =>
    have hstk' : (countLeaf t).tc.t_stk = [] := by rw [countLeaf_tc, hfr.tc]; exact hstk
    rw [hexec, nextSubtree_nil hstk']
    refine ⟨_, rfl, hbits, hready.congr rfl rfl rfl, ?_, ?_, ?_, fun _ => ⟨rfl, hstk', ?_⟩,
      fun _ _ h => absurd h (by simp), hfr.chunkBytes, hfr.br, hfr.src, memRead_congr hfr.node, ?_, ?_⟩ <;>
      simp [hfr.tc, hfr.host]
  | cons top below =>
    have hstk' : (countLeaf t).tc.t_stk = top :: below := by rw [countLeaf_tc, hfr.tc]; exact hstk
    rw [hexec, nextSubtree_cons hstk']
    refine ⟨_, rfl, hbits, hready.congr rfl rfl rfl, ?_, ?_, ?_, fun h => absurd h (by simp), fun _ _ h => ?_,
      hfr.chunkBytes, hfr.br, hfr.src, memRead_congr hfr.node, ?_, ?_⟩
    case refine_4 =>
      cases h
      exact ⟨rfl, rfl, rfl, congrArg _ hfr.host⟩
    all_goals simp [hfr.tc, hfr.host]

/-- Settles O37: the capacity test lets the node through, and the writer takes the flag. -/
theorem nodeInternalPassWritesTheFlag : Obligations.NodeInternalPassWritesTheFlag := by
  intro sym l r s hs hn
  obtain ⟨t, _, hw, hready, hfr, hbits, _⟩ := writeBit_live true hs
  have hexec : exec (.nodeInternal sym l r) s = .next (enterNode l r t) := by
    simp only [exec, execNodeInternal, Config.maxInternal, hw]
    exact if_neg hn
  exact ⟨_, hexec, hbits, hready.congr rfl rfl rfl, rfl, by rw [enterNode_tc, hfr.tc], hfr.chunkBytes, hfr.br, hfr.src,
    memRead_congr hfr.node, hfr.host⟩

/-! ### One response to each command -/

/-- A status and `data` that R170 and R193 give the command. -/
def AllowedAnswer (i : Instr) (st : Status) (d : BitVec 9) : Prop :=
  st ∈ commandStatuses i ∧ (st = .ok → (commandDataRange i).1 ≤ d.toNat ∧ d.toNat ≤ (commandDataRange i).2)

/-- The host has received one response more, of the command's own kind, and nothing else. -/
def AnsweredOnce (i : Instr) (s t : State) : Prop :=
  ∃ st d, t.host = s.host.answered st d ∧ AllowedAnswer i st d

/-- An answer other than OK carries no `data` that could be out of range. -/
theorem allowedAnswer_of_ne_ok {i : Instr} {st : Status} (hm : st ∈ commandStatuses i) (hst : st ≠ .ok) (d : BitVec 9) :
    AllowedAnswer i st d :=
  ⟨hm, fun h => absurd h hst⟩

theorem answeredOnce_raise {i : Instr} (hm : .ioErr ∈ commandStatuses i) {s t : State} (h : t.host = s.host) :
    AnsweredOnce i s (raise .ioError t) :=
  ⟨.ioErr, 0#9, host_raise .ioError h, allowedAnswer_of_ne_ok hm (by simp) _⟩

/-- An internal operation that leaves the host alone and raises nothing but IOError, and an answer of the command's own
to each of its values, make the command (R11). -/
theorem endCommand_answeredOnce {α : Type} {i : Instr} (hm : .ioErr ∈ commandStatuses i) {s t : State} {r : Res α}
    {f : α → State → Res (Status × BitVec 9)} (hio : r.onlyIoError) (hh : r.leaves fun u => u.host = s.host)
    (hf : ∀ a u, r = .done a u → ∃ st d, f a u = .done (st, d) u ∧ AllowedAnswer i st d)
    (h : endCommand (r.bind f) = .next t) : AnsweredOnce i s t := by
  cases r with
  | raised e u =>
    cases hio
    cases h
    exact answeredOnce_raise hm hh
  | done a u =>
    obtain ⟨st, d, hfa, hd⟩ := hf a u rfl
    rw [Res.bind_done, hfa] at h
    cases h
    exact ⟨st, d, congrArg (HostPort.answered · st d) hh, hd⟩

theorem writerSide_answeredOnce {i : Instr} (hm : .ioErr ∈ commandStatuses i) {s t : State} {body : Result}
    (hb : body = .next t → AnsweredOnce i s t) (h : writerSide s body = .next t) : AnsweredOnce i s t := by
  obtain ⟨_, rfl⟩ | ⟨_, h⟩ := writerSide_cases h
  · exact answeredOnce_raise hm rfl
  · exact hb h

theorem readerSide_answeredOnce {i : Instr} (hm : .ioErr ∈ commandStatuses i) {s t : State} {body : Result}
    (hb : body = .next t → AnsweredOnce i s t) (h : readerSide s body = .next t) : AnsweredOnce i s t := by
  obtain ⟨_, rfl⟩ | ⟨_, h⟩ := readerSide_cases h
  · exact answeredOnce_raise hm rfl
  · exact hb h

theorem toNat_bitsToBoundary (k : Fin 8) : (BitVec.ofNat 9 (bitsToBoundary k)).toNat = bitsToBoundary k := by
  unfold bitsToBoundary
  rw [BitVec.toNat_ofNat]
  omega

theorem bitsToBoundary_le (k : Fin 8) : bitsToBoundary k ≤ 7 := by
  unfold bitsToBoundary
  omega

theorem flush_value {s t : State} {pad : Nat} (h : flush s = .done pad t) : pad = bitsToBoundary s.bw.w_cnt := by
  unfold flush at h
  cases hd : drain (completeByte s) <;> rw [hd] at h <;> cases h
  rfl

/-- TSER is answered once: refused by the start check, or by the pass that ends its loop (R110, R153). -/
theorem execTser_answeredOnce {root : NodeIdx} {s t : State} (h : execTser root s = .next t) :
    AnsweredOnce (.tser root) s t :=
  writerSide_answeredOnce (by simp [commandStatuses]) (fun hl =>
    codecLoop_answers (p := .serializing) (s := startCodec .serializing root s.tc.t_next s) (by simp)
      (fun _ _ => serializePass_answers) (fun _ _ => serializePass_countersOk) codecFuel rfl
      (countersOk_startCodec _ _ _ _) (serializeLoop_idle hl) hl) h

/-- TDES is answered once: refused by the start check, or by the pass that ends its loop (R130, R154). -/
theorem execTdes_answeredOnce {s t : State} (h : execTdes s = .next t) : AnsweredOnce .tdes s t :=
  readerSide_answeredOnce (by simp [commandStatuses]) (fun hl =>
    codecLoop_answers (p := .deserializing) (s := startCodec .deserializing s.tc.t_cur 0 s) (by simp)
      (fun _ _ => deserializePass_answers) (fun _ _ => deserializePass_countersOk) codecFuel rfl
      (countersOk_startCodec _ _ _ _) (deserializeLoop_idle hl) hl) h

theorem exec_answeredOnce {i : Instr} (hi : i.isCommand = true) {s t : State} (h : exec i s = .next t) :
    AnsweredOnce i s t := by
  cases i with
  | wbit b =>
    have hm : .ioErr ∈ commandStatuses (.wbit b) := by simp [commandStatuses]
    exact writerSide_answeredOnce hm (endCommand_answeredOnce hm (writeBit_onlyIoError b s)
      (Res.leaves_mono (writeBit_frame b s) fun _ => WriterFrame.host)
      fun _ u _ => ⟨.ok, 0#9, rfl, by simp [commandStatuses], by simp [commandDataRange]⟩) h
  | wflush =>
    have hm : .ioErr ∈ commandStatuses .wflush := by simp [commandStatuses]
    refine writerSide_answeredOnce hm (endCommand_answeredOnce hm (flush_onlyIoError s)
      (Res.leaves_mono (flush_frame s) fun _ => WriterFrame.host)
      fun pad u hu => ⟨.ok, BitVec.ofNat 9 pad, rfl, by decide, fun _ => ⟨Nat.zero_le _, ?_⟩⟩) h
    rw [flush_value hu, toNat_bitsToBoundary]
    exact bitsToBoundary_le _
  | wrst =>
    cases h
    exact ⟨.ok, 0#9, rfl, by decide, by decide⟩
  | rbit =>
    have hm : .ioErr ∈ commandStatuses .rbit := by simp [commandStatuses]
    refine readerSide_answeredOnce hm (endCommand_answeredOnce hm (readBit_onlyIoError s)
      (Res.leaves_mono (readBit_frame s) fun _ => ReaderFrame.host) fun r u _ => ?_) h
    cases r with
    | none => exact ⟨.eos, 0#9, rfl, by decide, by decide⟩
    | some b => exact ⟨.ok, _, rfl, by decide, by cases b <;> decide⟩
  | ralign =>
    refine readerSide_answeredOnce (by simp [commandStatuses]) (fun hb => ?_) h
    cases hb
    refine ⟨.ok, BitVec.ofNat 9 (bitsToBoundary s.br.r_bit), ?_, by decide, fun _ => ⟨Nat.zero_le _, ?_⟩⟩
    · rw [← alignCursor_host s]
      rfl
    · rw [toNat_bitsToBoundary]
      exact bitsToBoundary_le _
  | rrst =>
    cases h
    exact ⟨.ok, 0#9, rfl, by decide, by decide⟩
  | tser root => exact execTser_answeredOnce h
  | tdes => exact execTdes_answeredOnce h
  | leaf sym => cases hi
  | internal => cases hi
  | nodeLeaf sym l r => cases hi
  | nodeInternal sym l r => cases hi

/-- Settles O16, by the command. -/
theorem eachCommandGetsOneResponseOfItsOwn : Obligations.EachCommandGetsOneResponseOfItsOwn := by
  intro i s t hi h
  obtain ⟨st, d, hhost, hst, hd⟩ := exec_answeredOnce hi h
  exact ⟨st, d, by rw [hhost]; rfl, hst, hd, by rw [hhost]; rfl, by rw [hhost]; rfl⟩

end Sys2Proof.Machine
end

section
/-! The compressed file (30_encoding.md R91, R92; 70_reset_and_hazards.md R203, R204, R208): what TSER and TDES come to
on a tree when no transaction fails, lines that are answered OK throughout, and the file laid through SINK and read
back. -/

namespace Sys2Proof.Machine

/-! ### TSER and TDES on a tree -/

theorem Tree.size_le {T : Tree} (hT : T.leaves ≤ 256) : T.size ≤ 511 := by
  unfold Tree.size
  omega

theorem codecFuel_eq {T : Tree} (hT : T.leaves ≤ 256) : codecFuel = (512 - T.size) + T.size := by
  have hsize := T.size_le hT
  simp only [codecFuel, Config.maxInternal, Config.maxLeaves]
  omega

/-- TSER on a tree of at most 256 leaves (R153): its loop hands the writer S(T) and OK carries the number of leaves. -/
theorem execTser_tree {T : Tree} {root : NodeIdx} {s : State} (hs : WriterReady s) (hT : T.leaves ≤ 256)
    (ht : Arena.holdsTree s.node root T = true) :
    ∃ u txs, SerializedTree T (startCodec .serializing root s.tc.t_next s) u txs
      ∧ exec (.tser root) s = .next (respond .ok (BitVec.ofNat 9 T.leaves) u) := by
  have hleaves := T.leaves_eq
  obtain ⟨u, txs, hu, hloop⟩ := serializeLoop_tree T (s := startCodec .serializing root s.tc.t_next s) rfl
    (hs.congr rfl rfl rfl) ht (by simp; omega)
  have hnleaf : u.tc.t_nleaf = T.leaves := by simpa using hu.nleaf
  refine ⟨u, txs, hu, ?_⟩
  rw [exec, execTser_of_noFail hs.noFail, codecFuel_eq hT, hloop, nextSubtree_nil hu.stk, hnleaf, afterPass,
    codecLoop_idle _ _ rfl]

/-- A reader that can work is one by its own storage alone. -/
theorem ReaderReady.congr {s t : State} (h : ReaderReady s) (hc : t.chunkBytes = s.chunkBytes) (hb : t.br = s.br)
    (hk : t.src = s.src) : ReaderReady t := by
  obtain ⟨_, hinv⟩ := ReaderOk.congr ⟨h.chunk, h.inv⟩ hc hb hk
  exact ⟨hc ▸ h.chunk, hb ▸ h.noFail, hinv, by rw [SrcNeverFails, hk]; exact h.never⟩

theorem linkRight_nil {s : State} (h : s.tc.t_stk = []) :
    linkRight s = .next (respond .ok (BitVec.ofNat 9 s.tc.t_nleaf) s) := by
  simp only [linkRight, h, endCodec]

/-- TDES on a stream that goes on with S(T), T of at most 256 leaves (R154, R155): its loop consumes S(T) and lays T out
from index 0, and OK carries the number of leaves. -/
theorem execTdes_tree {T : Tree} {rest : List Bool} {s : State} (hs : ReaderReady s) (hT : T.leaves ≤ 256)
    (hu : unreadBits s = T.serialize ++ rest) :
    ∃ u, DeserializedTree T (startCodec .deserializing s.tc.t_cur 0 s) u ∧ unreadBits u = rest
      ∧ exec .tdes s = .next (respond .ok (BitVec.ofNat 9 T.leaves) u) := by
  have hleaves := T.leaves_eq
  have hsize := T.size_le hT
  obtain ⟨u, hd, hrest, hloop⟩ := deserializeLoop_tree T (s := startCodec .deserializing s.tc.t_cur 0 s) rfl
    (hs.congr rfl rfl rfl) hu (by simp; omega) (by simp; omega)
  have hnleaf : u.tc.t_nleaf = T.leaves := by simpa using hd.nleaf
  refine ⟨u, hd, hrest, ?_⟩
  rw [exec, execTdes_of_noFail hs.noFail, codecFuel_eq hT, hloop, linkRight_nil hd.stk, hnleaf, afterPass,
    codecLoop_idle _ _ rfl]

/-- The tree a TDES has built stands at index 0 (R155). -/
theorem DeserializedTree.holdsTree {T : Tree} {s u : State} (h : DeserializedTree T s u) (hT : T.leaves ≤ 256)
    (hn : s.tc.t_next = 0) : Arena.holdsTree u.node 0#9 T = true := by
  have hsize := T.size_le hT
  have hlayout := h.layout
  rw [hn] at hlayout
  exact Arena.holdsTree_of_holdsLayout (b := 0) T (by omega) hlayout

/-! ### Moves answered OK throughout -/

/-- The moves come to `t` with every answer OK, so that the host goes on with whatever follows them (R95). -/
def RunsOk (ms : List HostMove) (s t : State) : Prop :=
  ∀ rest, runLine (ms ++ rest) s = runLine rest t

theorem RunsOk.nil (s : State) : RunsOk [] s s := fun _ => rfl

theorem RunsOk.append {ms ms' : List HostMove} {s t u : State} (h : RunsOk ms s t) (k : RunsOk ms' t u) :
    RunsOk (ms ++ ms') s u := fun rest => by
  rw [List.append_assoc, h, k]

theorem RunsOk.runLine_eq {ms : List HostMove} {s t : State} (h : RunsOk ms s t) : runLine ms s = .next t := by
  have hnil := h []
  rwa [List.append_nil] at hnil

/-- A move answered by one OK response. -/
theorem runsOk_of_respond {m : HostMove} {s u : State} {d : BitVec 9} (h : hostMove m s = .next (respond .ok d u))
    (hh : u.host = s.host) : RunsOk [m] s (respond .ok d u) := by
  have hok : answeredOk s (respond .ok d u) = true := by
    simp [answeredOk, hh, rspStatus_responseWord]
  exact fun rest => (aLineStopsAtTheFirstResponseNotOk m rest s _ h).1 hok

/-- A command is issued as the one word that decodes to it (R81). -/
theorem issue_of_isCommand {i : Instr} (hi : i.isCommand = true) :
    ∃ w, issue i = [.command w] ∧ decodeCommand w = .instr i := by
  have hdec := decodeOfEncodeIsTheInstruction i (by cases i <;> rfl)
  cases he : encode i with
  | command w => exact ⟨w, by simp [issue, commandWord?, he], by rw [he] at hdec; exact hdec⟩
  | entry e => cases i <;> cases hi <;> cases he
  | record bits => cases i <;> cases hi <;> cases he

theorem runsOk_issue {i : Instr} (hi : i.isCommand = true) {s u : State} {d : BitVec 9}
    (h : exec i s = .next (respond .ok d u)) (hh : u.host = s.host) : RunsOk (issue i) s (respond .ok d u) := by
  obtain ⟨w, hissue, hdec⟩ := issue_of_isCommand hi
  rw [hissue]
  exact runsOk_of_respond ((hostMove_command hdec s).trans h) hh

/-! ### The lines of the writer side -/

/-- A writer that can work takes any bits, one WBIT each (R95, R114). -/
theorem runsOk_issueBits (bs : List Bool) {s : State} (hs : WriterReady s) :
    ∃ t, RunsOk (issueBits bs) s t ∧ WriterReady t ∧ acceptedBits t = acceptedBits s ++ bs ∧ t.node = s.node := by
  induction bs generalizing s with
  | nil => exact ⟨s, .nil s, hs, by simp, rfl⟩
  | cons b bs ih =>
    obtain ⟨t, he, hbits, ht, hresp, _, _, _, _, _, hnode, _⟩ := wbitExtendsTheStreamByItsBit b s hs
    obtain ⟨u, hrun, hu, hbits', hnode'⟩ := ih ht
    have hbit : RunsOk (issue (.wbit b)) s t := fun _ =>
      runLine_cons_ok ((hostMove_command (decodeCommand_wbit b) s).trans he) hresp
    exact ⟨u, hbit.append hrun, hu, by rw [hbits', hbits, List.append_assoc, List.singleton_append],
      hnode'.trans hnode⟩

theorem runsOk_wu32 (v : Nat) {s : State} (hs : WriterReady s) :
    ∃ t, RunsOk (lineMoves (.wu32 v)) s t ∧ WriterReady t
      ∧ acceptedBits t = acceptedBits s ++ unpack (bigEndian32 v) ∧ t.node = s.node := by
  rw [← msbBits_eq_unpack_bigEndian32]
  exact runsOk_issueBits _ hs

theorem runsOk_tser {T : Tree} {root : NodeIdx} {s : State} (hs : WriterReady s) (hT : T.leaves ≤ 256)
    (ht : Arena.holdsTree s.node root T = true) :
    ∃ t, RunsOk (lineMoves (.tser root.toNat)) s t ∧ WriterReady t
      ∧ acceptedBits t = acceptedBits s ++ T.serialize := by
  obtain ⟨u, _, hu, hexec⟩ := execTser_tree hs hT ht
  have hroot : nodeIdx root.toNat = root := BitVec.eq_of_toNat_eq (toNat_nodeIdx root.isLt)
  refine ⟨respond .ok (BitVec.ofNat 9 T.leaves) u, ?_, hu.live.congr rfl rfl rfl, hu.bits⟩
  rw [lineMoves, hroot]
  exact runsOk_issue rfl hexec hu.host

/-- Whole bytes that unpack to bytes, bits and less than a byte of zeros are those bytes and the packed bits (R56,
R87). -/
theorem eq_append_pack_of_unpack {xs bs : List Byte} {bits : List Bool} {p : Nat} (hp : p < 8)
    (h : unpack xs = unpack bs ++ bits ++ List.replicate p false) : xs = bs ++ pack bits := by
  have hlen := congrArg List.length h
  simp only [List.length_append, length_unpack, List.length_replicate] at hlen
  have hpad : p = (8 - bits.length % 8) % 8 := by omega
  apply unpack_inj
  rw [h, unpack_append, unpack_pack, ← hpad, List.append_assoc]

theorem execWflush_of_done {s t : State} {pad : Nat} (hf : s.bw.w_fail = false) (h : flush s = .done pad t) :
    exec .wflush s = .next (respond .ok (BitVec.ofNat 9 pad) t) := by
  simp only [exec, execWflush, writerSide, hf, h, Res.bind_done, endCommand, Bool.false_eq_true, if_false]

/-- WFLUSH hands SINK what has been accepted beyond whole bytes, packed (R113, R116). -/
theorem runsOk_wflush {s : State} (hs : WriterReady s) {bs : List Byte} {bits : List Bool}
    (hb : acceptedBits s = unpack bs ++ bits) :
    ∃ t, RunsOk (lineMoves .wflush) s t ∧ WriterReady t ∧ t.bw = Bw.reset ∧ t.sink.bytes = bs ++ pack bits := by
  obtain ⟨t, hf, ht, hfr, hbw, hbits, _⟩ := flush_live hs
  rw [hb] at hbits
  have hpad : bitsToBoundary s.bw.w_cnt < 8 := Nat.lt_succ_of_le (bitsToBoundary_le _)
  exact ⟨_, runsOk_issue rfl (execWflush_of_done hs.noFail hf) hfr.host, ht.congr rfl rfl rfl, hbw,
    eq_append_pack_of_unpack hpad hbits⟩

theorem acceptedBits_of_reset {s : State} (h : s.bw = Bw.reset) : acceptedBits s = unpack s.sink.bytes := by
  simp [acceptedBits, h, Bw.reset]

/-- Settles O46, line by line: what the writer has accepted after each, and what each WFLUSH hands over. -/
theorem fileIsLaidThroughSink : Obligations.FileIsLaidThroughSink := by
  intro T root n payload s hs hbw hT _ ht
  obtain ⟨s₁, hrun₁, hs₁, hbits₁, hnode₁⟩ := runsOk_wu32 T.leaves hs
  obtain ⟨s₂, hrun₂, hs₂, hbits₂, hnode₂⟩ := runsOk_wu32 n hs₁
  obtain ⟨s₃, hrun₃, hs₃, hbits₃⟩ := runsOk_tser (root := root) hs₂ hT (by rw [hnode₂, hnode₁]; exact ht)
  rw [hbits₂, hbits₁, acceptedBits_of_reset hbw, ← unpack_append, ← unpack_append] at hbits₃
  obtain ⟨s₄, hrun₄, hs₄, hbw₄, hsink₄⟩ := runsOk_wflush hs₃ hbits₃
  obtain ⟨s₅, hrun₅, hs₅, hbits₅, _⟩ := runsOk_issueBits payload hs₄
  rw [acceptedBits_of_reset hbw₄] at hbits₅
  obtain ⟨s₆, hrun₆, _, hbw₆, hsink₆⟩ := runsOk_wflush hs₅ hbits₅
  have hrun := hrun₁.append (hrun₂.append (hrun₃.append (hrun₄.append (hrun₅.append (hrun₆.append (.nil s₆))))))
  refine ⟨s₆, hrun.runLine_eq, ?_, hbw₆⟩
  rw [hsink₆, hsink₄, compressedFile]
  simp only [List.append_assoc]

/-! ### The lines of the reader side -/

/-- A reader that can work delivers the bits that stand next, one RBIT each (R95, R132). -/
theorem runsOk_rbits (bs : List Bool) {s : State} {rest : List Bool} (hs : ReaderReady s)
    (hu : unreadBits s = bs ++ rest) :
    ∃ t, RunsOk (List.replicate bs.length (.command 0x4000#16)) s t ∧ ReaderReady t ∧ unreadBits t = rest
      ∧ readPosition t = readPosition s + bs.length
      ∧ t.host.responses = s.host.responses ++ bs.map okBit ∧ t.node = s.node := by
  induction bs generalizing s with
  | nil => exact ⟨s, .nil s, hs, by simpa using hu, rfl, by simp, rfl⟩
  | cons b bs ih =>
    obtain ⟨b', t, hr, ht, hf, hb, hpos⟩ | ⟨_, _, _, _, hb, _⟩ := readBit_live hs <;>
      rw [hb, List.cons_append] at hu
    · obtain ⟨rfl, htail⟩ := List.cons.inj hu
      have hbit : RunsOk [.command 0x4000#16] s (respond .ok ((BitVec.ofBool b').setWidth 9) t) :=
        runsOk_issue (i := .rbit) rfl (execRbit_of_some hs.noFail hr) hf.host
      obtain ⟨u, hrun, hu', hrest, hpos', hresp, hnode⟩ :=
        ih (s := respond .ok ((BitVec.ofBool b').setWidth 9) t) (ht.congr rfl rfl rfl) htail
      refine ⟨u, hbit.append hrun, hu', hrest, ?_, ?_, hnode.trans hf.node⟩
      · rw [hpos', show readPosition (respond .ok _ t) = readPosition t from rfl, hpos, List.length_cons]
        omega
      · rw [hresp, respond_responses, hf.host, List.append_assoc]
        rfl
    · cases hu

theorem runsOk_ru32 {v : Nat} {s : State} {rest : List Bool} (hs : ReaderReady s)
    (hu : unreadBits s = unpack (bigEndian32 v) ++ rest) :
    ∃ t, RunsOk (lineMoves .ru32) s t ∧ ReaderReady t ∧ unreadBits t = rest
      ∧ readPosition t = readPosition s + 32
      ∧ t.host.responses = s.host.responses ++ (msbBits (BitVec.ofNat 32 v)).map okBit := by
  rw [← msbBits_eq_unpack_bigEndian32] at hu
  obtain ⟨t, hrun, ht, hrest, hpos, hresp, _⟩ := runsOk_rbits _ hs hu
  rw [length_msbBits] at hrun hpos
  exact ⟨t, hrun, ht, hrest, hpos, hresp⟩

theorem runsOk_tdes {T : Tree} {rest : List Bool} {s : State} (hs : ReaderReady s) (hT : T.leaves ≤ 256)
    (hu : unreadBits s = T.serialize ++ rest) :
    ∃ t, RunsOk (lineMoves .tdes) s t ∧ ReaderReady t ∧ unreadBits t = rest
      ∧ readPosition t = readPosition s + (10 * T.leaves - 1)
      ∧ t.host.responses = s.host.responses ++ [responseWord .ok (BitVec.ofNat 9 T.leaves)]
      ∧ Arena.holdsTree t.node 0#9 T = true := by
  obtain ⟨u, hd, hrest, hexec⟩ := execTdes_tree hs hT hu
  refine ⟨_, runsOk_issue rfl hexec hd.host, hd.live.congr rfl rfl rfl, hrest, ?_, ?_, hd.holdsTree hT rfl⟩
  · rw [← T.length_serialize]
    exact hd.position
  · rw [respond_responses, hd.host]
    rfl

theorem alignCursor_r_fail (s : State) : (alignCursor s).br.r_fail = s.br.r_fail := by
  unfold alignCursor
  split <;> rfl

theorem unreadBits_alignCursor (s : State) :
    unreadBits (alignCursor s) = (unreadBits s).drop (bitsToBoundary s.br.r_bit) := by
  rw [unreadBits, unreadBits, readPosition_alignCursor, alignCursor_src, List.drop_drop]

theorem bitsToBoundary_r_bit (s : State) : bitsToBoundary s.br.r_bit = (8 - readPosition s % 8) % 8 := by
  unfold bitsToBoundary readPosition
  omega

/-- With the reader working, RALIGN answers OK with the number of bits skipped (R134). -/
theorem execRalign_of_noFail {s : State} (hf : s.br.r_fail = false) :
    exec .ralign s = .next (respond .ok (BitVec.ofNat 9 (bitsToBoundary s.br.r_bit)) (alignCursor s)) := by
  simp only [exec, execRalign, readerSide, hf, Bool.false_eq_true, if_false]

/-- RALIGN skips the padding up to the byte boundary (R208). -/
theorem runsOk_ralign {pad rest : List Bool} {s : State} (hs : ReaderReady s)
    (hp : pad.length = (8 - readPosition s % 8) % 8) (hu : unreadBits s = pad ++ rest) :
    ∃ t, RunsOk (lineMoves .ralign) s t ∧ ReaderReady t ∧ unreadBits t = rest
      ∧ t.host.responses = s.host.responses ++ [responseWord .ok (BitVec.ofNat 9 pad.length)] ∧ t.node = s.node := by
  have hready : ReaderReady (alignCursor s) := hs.ofOk (readerOk_alignCursor ⟨hs.chunk, hs.inv⟩)
    ((alignCursor_r_fail s).trans hs.noFail) (by simp)
  refine ⟨_, runsOk_issue rfl (execRalign_of_noFail hs.noFail) (alignCursor_host s), hready.congr rfl rfl rfl, ?_, ?_,
    alignCursor_node s⟩
  · rw [show unreadBits (respond .ok _ (alignCursor s)) = unreadBits (alignCursor s) from rfl, unreadBits_alignCursor,
      bitsToBoundary_r_bit, ← hp, hu, List.drop_left]
  · rw [respond_responses, alignCursor_host, bitsToBoundary_r_bit, ← hp]

theorem readPosition_of_reset {s : State} (h : s.br = Br.reset) : readPosition s = 8 * s.src.src_pos := by
  simp [readPosition, h, Br.reset]

theorem unreadBits_of_reset {s : State} (h : s.br = Br.reset) :
    unreadBits s = unpack (s.src.bytes.drop s.src.src_pos) := by
  rw [unreadBits, readPosition_of_reset h, unpack_drop]

/-- The value of `rbits` over the responses to its RBITs is the number whose bits they carried (R95). -/
theorem rbitsValue_okBit (bs : List Bool) : rbitsValue (bs.map okBit) = natOfMsbBits bs := by
  have hbit : (fun r => (rspData r).getLsbD 0) ∘ okBit = id := by
    funext b
    rw [Function.comp_apply, okBit, rspData_responseWord]
    cases b <;> rfl
  rw [rbitsValue, List.map_map, hbit, List.map_id]

/-- The lines of R204 on the file of R91. -/
theorem runLine_readBack {T : Tree} {n : Nat} {payload : List Bool} {s : State} (hs : ReaderReady s)
    (hbr : s.br = Br.reset) (hT : T.leaves ≤ 256)
    (hfile : s.src.bytes.drop s.src.src_pos = compressedFile T n payload) :
    ∃ t, runLine ([Line.ru32, .ru32, .tdes, .ralign].flatMap lineMoves
          ++ List.replicate payload.length (.command 0x4000#16)) s = .next t
      ∧ t.host.responses = s.host.responses
          ++ (msbBits (BitVec.ofNat 32 T.leaves)).map okBit ++ (msbBits (BitVec.ofNat 32 n)).map okBit
          ++ [responseWord .ok (BitVec.ofNat 9 T.leaves),
              responseWord .ok (BitVec.ofNat 9 ((8 - (10 * T.leaves - 1) % 8) % 8))]
          ++ payload.map okBit
      ∧ Arena.holdsTree t.node 0#9 T = true := by
  have hpos := readPosition_of_reset hbr
  have hu := unreadBits_of_reset hbr
  rw [hfile, compressedFile, unpack_append, unpack_append, unpack_append, unpack_pack T.serialize,
    unpack_pack payload, T.length_serialize] at hu
  simp only [List.append_assoc] at hu
  obtain ⟨s₁, hrun₁, hs₁, hu₁, hpos₁, hresp₁⟩ := runsOk_ru32 hs hu
  obtain ⟨s₂, hrun₂, hs₂, hu₂, hpos₂, hresp₂⟩ := runsOk_ru32 hs₁ hu₁
  obtain ⟨s₃, hrun₃, hs₃, hu₃, hpos₃, hresp₃, htree₃⟩ := runsOk_tdes hs₂ hT hu₂
  obtain ⟨s₄, hrun₄, hs₄, hu₄, hresp₄, hnode₄⟩ := runsOk_ralign hs₃ (by rw [List.length_replicate]; omega) hu₃
  obtain ⟨s₅, hrun₅, _, _, _, hresp₅, hnode₅⟩ := runsOk_rbits payload hs₄ hu₄
  have hlines := hrun₁.append (hrun₂.append (hrun₃.append (hrun₄.append (.nil s₄))))
  refine ⟨s₅, (hlines.append hrun₅).runLine_eq, ?_, by rw [hnode₅, hnode₄]; exact htree₃⟩
  rw [hresp₅, hresp₄, hresp₃, hresp₂, hresp₁, List.length_replicate]
  simp only [List.append_assoc, List.cons_append, List.nil_append]

/-- Settles O47: the lines read the file back, and `rbits` gives the value of a header count (R92). -/
theorem fileIsReadBackFromSrc : Obligations.FileIsReadBackFromSrc := by
  refine ⟨fun T n payload s hs hbr hT hfile => runLine_readBack hs hbr hT hfile, fun v hv => ?_⟩
  rw [rbitsValue_okBit, natOfMsbBits_msbBits, BitVec.toNat_ofNat, Nat.mod_eq_of_lt hv]

end Sys2Proof.Machine
end

section
/-! The bit writer (40_bitwriter.md R110 to R118): what a drain hands over and how it fails, the three commands, the law of
the packed segments, and drains that fail inside TSER (42_treecodec.md R153). -/

namespace Sys2Proof.Machine

/-! ### Drains -/

/-- What a drain that the sink answers with ok leaves (R112). -/
def drained (s : State) : State := emptyBuffer (sinkTransaction s.bw.w_buf s.bw.w_buf s)

/-- What a failed drain leaves, where the environment keeps the first `kept` bytes (R53, R112). -/
def failedDrain (kept : Nat) (s : State) : State :=
  scrambleWriter (setWFail (sinkTransaction (s.bw.w_buf.take kept) s.bw.w_buf s))

theorem drain_of_empty {s : State} (h : s.bw.w_buf = []) : drain s = .done () s := by
  simp only [drain, h, if_true]

theorem drain_of_ok {s : State} (h : s.bw.w_buf ≠ []) (ha : nextSinkAnswer s = .ok) :
    drain s = .done () (drained s) := by
  simp only [drain, h, sinkWrite, ha, drained, if_false]

theorem drain_of_fail {s : State} {kept : Nat} (h : s.bw.w_buf ≠ []) (ha : nextSinkAnswer s = .fail kept) :
    drain s = .raised .ioError (failedDrain kept s) := by
  simp only [drain, h, sinkWrite, ha, failedDrain, if_false]

/-- The byte under assembly joins the buffer unless it is empty (R113). -/
theorem completeByte_w_buf (s : State) :
    (completeByte s).bw.w_buf = s.bw.w_buf ++ if s.bw.w_cnt = 0 then [] else [s.bw.w_acc] := by
  unfold completeByte
  split <;> simp

theorem completeByte_w_buf_ne_nil {s : State} (h : s.bw.w_cnt ≠ 0 ∨ s.bw.w_buf ≠ []) :
    (completeByte s).bw.w_buf ≠ [] := by
  rw [completeByte_w_buf]
  obtain h | h := h <;> simp [h]

theorem length_completeByte_w_buf_le (s : State) : (completeByte s).bw.w_buf.length ≤ s.bw.w_buf.length + 1 := by
  rw [completeByte_w_buf]
  split <;> simp

/-- With nothing buffered there is nothing to flush (R113). -/
theorem flush_of_empty {s : State} (hc : s.bw.w_cnt = 0) (hb : s.bw.w_buf = []) :
    flush s = .done (bitsToBoundary s.bw.w_cnt) s := by
  have hcomplete : completeByte s = s := if_pos hc
  rw [flush, hcomplete, drain_of_empty hb, Res.bind_done]

/-! ### How large a transaction is -/

/-- `t` has made no transaction since `s`, or one whose size satisfies `P`. -/
def AtMostOneChunk (P : Nat → Prop) (s t : State) : Prop :=
  t.sink.tx = s.sink.tx ∨ ∃ c, t.sink.tx = s.sink.tx ++ [c] ∧ P c.length

theorem drain_chunk {P : Nat → Prop} {s : State} (h : s.bw.w_buf ≠ [] → P s.bw.w_buf.length) :
    (drain s).leaves (AtMostOneChunk P s) := by
  obtain ⟨_, hd⟩ | ⟨hne, _, hd⟩ | ⟨hne, _, _, hd⟩ := drain_cases s <;> rw [hd]
  · exact .inl rfl
  · exact .inr ⟨_, rfl, h hne⟩
  · exact .inr ⟨_, rfl, h hne⟩

/-- Only a full buffer is drained by `WriteBit` (R111). -/
theorem writeBit_chunk (b : Bool) (s : State) : (writeBit b s).leaves (AtMostOneChunk (· = s.chunkBytes) s) := by
  obtain ⟨_, h⟩ | ⟨_, _, h⟩ | ⟨_, hf, h⟩ := writeBit_cases b s <;> rw [h]
  · exact .inl rfl
  · exact .inl rfl
  · exact drain_chunk (P := (· = s.chunkBytes)) (s := pushByte (accWith b s) s) fun _ => by simpa using hf

/-- A buffer that is not full holds at most CHUNK_BYTES bytes with the last one completed (R26, R113). -/
theorem flush_chunk {s : State} (h : s.bw.w_buf.length < s.chunkBytes) :
    (flush s).leaves (AtMostOneChunk (fun n => 1 ≤ n ∧ n ≤ s.chunkBytes) s) := by
  have hle := length_completeByte_w_buf_le s
  have hd := drain_chunk (P := fun n => 1 ≤ n ∧ n ≤ s.chunkBytes) (s := completeByte s) fun hne =>
    ⟨List.length_pos_iff.mpr hne, by omega⟩
  refine Res.leaves_bind_done _ (Res.leaves_mono hd fun t ht => ?_)
  simpa only [AtMostOneChunk, completeByte_sink] using ht

theorem endCommand_chunk {α : Type} {P : Nat → Prop} {s t : State} {r : Res α} {f : α → Status × BitVec 9}
    (hr : s.bw.w_fail = false → r.leaves (AtMostOneChunk P s))
    (h : writerSide s (endCommand (r.bind fun a u => .done (f a) u)) = .next t) : AtMostOneChunk P s t := by
  obtain ⟨_, rfl⟩ | ⟨hf, h⟩ := writerSide_cases h
  · exact .inl rfl
  · exact endCommand_keeps (P := AtMostOneChunk P s) (Res.leaves_bind_done f (hr hf)) (fun _ _ _ => id) h

/-! ### What the sink answered -/

/-- The writer has made transactions since `s`, none of which failed: SINK has grown by all of them. -/
structure WritesWell (s t : State) : Prop where
  chunks : ∃ chunks, t.sink.tx = s.sink.tx ++ chunks ∧ t.sink.bytes = s.sink.bytes ++ chunks.flatten
  fail : t.bw.w_fail = s.bw.w_fail

/-- The writer has made transactions since `s`, the last of which failed, and the failure is recorded: SINK has grown by
the others and the first bytes of the last. -/
structure WriteFailed (s t : State) : Prop where
  chunks : ∃ chunks last kept, t.sink.tx = s.sink.tx ++ chunks ++ [last]
    ∧ t.sink.bytes = s.sink.bytes ++ chunks.flatten ++ last.take kept
  fail : t.bw.w_fail = true

theorem WritesWell.of_eq {s t : State} (hf : t.bw.w_fail = s.bw.w_fail) (hs : t.sink = s.sink) : WritesWell s t :=
  ⟨⟨[], by simp [hs], by simp [hs]⟩, hf⟩

theorem WritesWell.trans {s t u : State} (h : WritesWell s t) (k : WritesWell t u) : WritesWell s u := by
  obtain ⟨⟨xs, hx, hxb⟩, hf⟩ := h
  obtain ⟨⟨ys, hy, hyb⟩, kf⟩ := k
  exact ⟨⟨xs ++ ys, by simp [hy, hx], by simp [hyb, hxb]⟩, kf.trans hf⟩

theorem WritesWell.trans_failed {s t u : State} (h : WritesWell s t) (k : WriteFailed t u) : WriteFailed s u := by
  obtain ⟨⟨xs, hx, hxb⟩, _⟩ := h
  obtain ⟨⟨ys, last, kept, hy, hyb⟩, kf⟩ := k
  exact ⟨⟨xs ++ ys, last, kept, by simp [hy, hx], by simp [hyb, hxb]⟩, kf⟩

/-- SINK tells what the transactions were, when none failed. -/
theorem WritesWell.flatten_eq {s t : State} (h : WritesWell s t) {bs : List Byte}
    (hb : t.sink.bytes = s.sink.bytes ++ bs) :
    ∃ txs, t.sink.tx = s.sink.tx ++ txs ∧ txs.flatten = bs := by
  obtain ⟨⟨txs, htx, hbytes⟩, _⟩ := h
  exact ⟨txs, htx, List.append_cancel_left (hbytes.symm.trans hb)⟩

/-- A writer operation raises exactly when a transaction it made failed. -/
def Res.raisesOnFailedWrite {α : Type} (s : State) : Res α → Prop
  | .done _ t => WritesWell s t
  | .raised _ t => WriteFailed s t

theorem Res.raisesOnFailedWrite_bind {α β : Type} {s : State} {r : Res α} {f : α → State → Res β}
    (hr : r.raisesOnFailedWrite s) (hf : ∀ a t, (f a t).raisesOnFailedWrite t) : (r.bind f).raisesOnFailedWrite s := by
  cases r with
  | raised e t => exact hr
  | done a t =>
    have hft := hf a t
    rw [Res.bind_done]
    cases hu : f a t <;> rw [hu] at hft
    · exact hr.trans hft
    · exact hr.trans_failed hft

theorem drain_raisesOnFailedWrite (s : State) : (drain s).raisesOnFailedWrite s := by
  obtain ⟨_, h⟩ | ⟨_, _, h⟩ | ⟨_, kept, _, h⟩ := drain_cases s <;> rw [h]
  · exact .of_eq rfl rfl
  · exact ⟨⟨[s.bw.w_buf], rfl, by simp⟩, rfl⟩
  · exact ⟨⟨[], s.bw.w_buf, kept, by simp, by simp⟩, rfl⟩

theorem writeBit_raisesOnFailedWrite (b : Bool) (s : State) : (writeBit b s).raisesOnFailedWrite s := by
  obtain ⟨_, h⟩ | ⟨_, _, h⟩ | ⟨_, _, h⟩ := writeBit_cases b s <;> rw [h]
  · exact .of_eq rfl rfl
  · exact .of_eq rfl rfl
  · have hd := drain_raisesOnFailedWrite (pushByte (accWith b s) s)
    cases hr : drain (pushByte (accWith b s) s) <;> rw [hr] at hd <;> exact ⟨hd.chunks, hd.fail⟩

theorem writeBitList_raisesOnFailedWrite (bs : List Bool) (s : State) : (writeBitList bs s).raisesOnFailedWrite s := by
  induction bs generalizing s with
  | nil => exact .of_eq rfl rfl
  | cons b bs ih => exact Res.raisesOnFailedWrite_bind (writeBit_raisesOnFailedWrite b s) fun _ t => ih t

theorem completeByte_w_fail (s : State) : (completeByte s).bw.w_fail = s.bw.w_fail := by
  unfold completeByte
  split <;> rfl

theorem flush_raisesOnFailedWrite (s : State) : (flush s).raisesOnFailedWrite s := by
  have hd := drain_raisesOnFailedWrite (completeByte s)
  have hc : WritesWell s (completeByte s) := .of_eq (completeByte_w_fail s) (completeByte_sink s)
  unfold flush
  cases hr : drain (completeByte s) <;> rw [hr] at hd
  · exact hc.trans hd
  · exact hc.trans_failed hd

/-! ### The writer's law (R118) -/

theorem OnlyWriterSide.trans {s t u : State} (h : OnlyWriterSide s t) (k : OnlyWriterSide t u) : OnlyWriterSide s u := by
  obtain ⟨h1, h2, h3, h4, h5, h6, h7, h8⟩ := h
  obtain ⟨k1, k2, k3, k4, k5, k6, k7, k8⟩ := k
  exact ⟨k1.trans h1, k2.trans h2, k3.trans h3, k4.trans h4, fun i => (k5 i).trans (h5 i), k6.trans h6, k7.trans h7,
    k8.trans h8⟩

/-- What WBITs and WFLUSHes keep while no transaction fails. -/
structure WriterRun (s t : State) : Prop where
  ready : WriterReady t
  writes : WritesWell s t
  frame : OnlyWriterSide s t

theorem WriterRun.refl {s : State} (hs : WriterReady s) : WriterRun s s := ⟨hs, .of_eq rfl rfl, .refl s⟩

theorem WriterRun.trans {s t u : State} (h : WriterRun s t) (k : WriterRun t u) : WriterRun s u :=
  ⟨k.ready, h.writes.trans k.writes, h.frame.trans k.frame⟩

/-- An internal operation that did not raise, and the answer to it. -/
theorem WriterRun.of_done {α : Type} {s t : State} {r : Res α} {a : α} (hr : r = .done a t) (ht : WriterReady t)
    (hf : WriterFrame s t) (hw : r.raisesOnFailedWrite s) (st : Status) (d : BitVec 9) :
    WriterRun s (respond st d t) := by
  subst hr
  exact ⟨ht.congr rfl rfl rfl, ⟨hw.chunks, hw.fail⟩, hf.onlyWriterSide⟩

theorem execSeq_cons {i : Instr} {s t : State} (h : exec i s = .next t) (is : List Instr) :
    execSeq (i :: is) s = execSeq is t := by
  simp only [execSeq, h]

theorem execSeq_append {is : List Instr} {s t : State} (h : execSeq is s = .next t) (js : List Instr) :
    execSeq (is ++ js) s = execSeq js t := by
  induction is generalizing s with
  | nil => cases h; rfl
  | cons i is ih =>
    cases hi : exec i s with
    | next u =>
      rw [execSeq_cons hi] at h
      rw [List.cons_append, execSeq_cons hi, ih h]
    | fault f => simp only [execSeq, hi] at h; cases h
    | refused r => simp only [execSeq, hi] at h; cases h

theorem execSeq_wbits (bs : List Bool) {s : State} (hs : WriterReady s) :
    ∃ t, execSeq (bs.map Instr.wbit) s = .next t ∧ WriterRun s t ∧ acceptedBits t = acceptedBits s ++ bs := by
  induction bs generalizing s with
  | nil => exact ⟨s, rfl, .refl hs, by simp⟩
  | cons b bs ih =>
    obtain ⟨t, _, hw, ht, hf, hbits, _⟩ := writeBit_live b hs
    have hrun := WriterRun.of_done hw ht hf (writeBit_raisesOnFailedWrite b s) .ok 0#9
    obtain ⟨u, hu, hrun', hbits'⟩ := ih hrun.ready
    refine ⟨u, by rw [List.map_cons, execSeq_cons (execWbit_of_done hs.noFail hw), hu], hrun.trans hrun', ?_⟩
    calc acceptedBits u = acceptedBits t ++ bs := hbits'
      _ = acceptedBits s ++ b :: bs := by rw [hbits, List.append_assoc, List.singleton_append]

/-- WFLUSH hands SINK what has been accepted beyond whole bytes, packed (R113, R116). -/
theorem exec_wflush_packs {s : State} (hs : WriterReady s) {bs : List Byte} {bits : List Bool}
    (hb : acceptedBits s = unpack bs ++ bits) :
    ∃ t, exec .wflush s = .next t ∧ WriterRun s t ∧ t.bw = Bw.reset ∧ t.sink.bytes = bs ++ pack bits := by
  obtain ⟨t, hf, ht, hfr, hbw, hbits, _⟩ := flush_live hs
  rw [hb] at hbits
  exact ⟨_, execWflush_of_done hs.noFail hf, .of_done hf ht hfr (flush_raisesOnFailedWrite s) _ _, hbw,
    eq_append_pack_of_unpack (Nat.lt_succ_of_le (bitsToBoundary_le _)) hbits⟩

theorem execSeq_segment (g : List Bool) {s : State} (hs : WriterReady s) (hbw : s.bw = Bw.reset) :
    ∃ t, execSeq (g.map Instr.wbit ++ [.wflush]) s = .next t ∧ WriterRun s t ∧ t.bw = Bw.reset
      ∧ t.sink.bytes = s.sink.bytes ++ pack g := by
  obtain ⟨t, ht, hrun, hbits⟩ := execSeq_wbits g hs
  rw [acceptedBits_of_reset hbw] at hbits
  obtain ⟨u, hu, hrun', hbw', hbytes⟩ := exec_wflush_packs hrun.ready hbits
  exact ⟨u, by rw [execSeq_append ht, execSeq_cons hu]; rfl, hrun.trans hrun', hbw', hbytes⟩

theorem execSeq_segments (segments : List (List Bool)) {s : State} (hs : WriterReady s) (hbw : s.bw = Bw.reset) :
    ∃ t, execSeq (segments.flatMap fun g => g.map Instr.wbit ++ [.wflush]) s = .next t ∧ WriterRun s t
      ∧ t.sink.bytes = s.sink.bytes ++ segments.flatMap pack := by
  induction segments generalizing s with
  | nil => exact ⟨s, rfl, .refl hs, by simp⟩
  | cons g segments ih =>
    obtain ⟨t, ht, hrun, hbw', hbytes⟩ := execSeq_segment g hs hbw
    obtain ⟨u, hu, hrun', hbytes'⟩ := ih hrun.ready hbw'
    refine ⟨u, by rw [List.flatMap_cons, execSeq_append ht, hu], hrun.trans hrun', ?_⟩
    rw [hbytes', hbytes, List.flatMap_cons, List.append_assoc]

theorem writerReady_of_reset {s : State} (hc : 1 ≤ s.chunkBytes) (hbw : s.bw = Bw.reset) (hn : SinkNeverFails s) :
    WriterReady s :=
  ⟨hc, by rw [hbw]; rfl, (writerOk_of_reset hc hbw).2, hn⟩

/-- Settles O26: by induction over the segments, each packed by its WFLUSH; and the sizes of what a command drains. -/
theorem sinkHoldsThePackedSegments : Obligations.SinkHoldsThePackedSegments := by
  refine ⟨fun s segments hc hbw hn => ?_, fun b s t h => ?_, fun s t _ hinv h => ?_⟩
  · obtain ⟨t, ht, hrun, hbytes⟩ := execSeq_segments segments (writerReady_of_reset hc hbw hn) hbw
    exact ⟨t, ht, hbytes, hrun.writes.flatten_eq hbytes, hrun.frame⟩
  · exact endCommand_chunk (fun _ => writeBit_chunk b s) h
  · exact endCommand_chunk (fun hf => flush_chunk (hinv hf).2) h

/-! ### Placing a bit, and completing a byte -/

/-- The bit that completes the byte under assembly is its bit 0 (R111). -/
theorem accWith_of_last {s : State} (hk : s.bw.w_cnt = 7) (b : Bool) : accWith b s = setStreamBit s.bw.w_acc 7 b := by
  rw [accWith, hk]

theorem writeBit_of_place {s : State} (hk : s.bw.w_cnt ≠ 7) (b : Bool) : writeBit b s = .done () (placeBit b s) :=
  if_neg hk

theorem writeBit_of_complete {s : State} (hk : s.bw.w_cnt = 7) (hf : s.bw.w_buf.length + 1 ≠ s.chunkBytes) (b : Bool) :
    writeBit b s = .done () (pushByte (setStreamBit s.bw.w_acc 7 b) s) := by
  rw [← accWith_of_last hk]
  obtain ⟨hne, _⟩ | ⟨_, _, h⟩ | ⟨_, he, _⟩ := writeBit_cases b s
  · exact absurd hk hne
  · exact h
  · exact absurd he hf

/-- The bit that fills the buffer drains it (R111). -/
theorem writeBit_of_full {s : State} (hk : s.bw.w_cnt = 7) (hf : s.bw.w_buf.length + 1 = s.chunkBytes) (b : Bool) :
    writeBit b s = drain (pushByte (setStreamBit s.bw.w_acc 7 b) s) := by
  rw [← accWith_of_last hk]
  obtain ⟨hne, _⟩ | ⟨_, hne, _⟩ | ⟨_, _, h⟩ := writeBit_cases b s
  · exact absurd hk hne
  · exact absurd hf hne
  · exact h

/-- Settles O18: `WriteBit` places the bit. -/
theorem wbitPlacesTheBit : Obligations.WbitPlacesTheBit :=
  fun b _ hf hk => execWbit_of_done hf (writeBit_of_place hk b)

/-- Settles O19: `WriteBit` moves the completed byte, and the buffer is not full. -/
theorem wbitCompletesAByte : Obligations.WbitCompletesAByte :=
  fun b _ hf hk hne => execWbit_of_done hf (writeBit_of_complete hk hne b)

/-- Settles O20: the completed byte fills the buffer, and the drain succeeds. -/
theorem wbitDrainsAFullBuffer : Obligations.WbitDrainsAFullBuffer := by
  intro b s hf hk hfull ha
  have hw : writeBit b s = .done () (drained (pushByte (setStreamBit s.bw.w_acc 7 b) s)) :=
    (writeBit_of_full hk hfull b).trans (drain_of_ok (by simp) ha)
  refine ⟨_, execWbit_of_done hf hw, ?_, ?_, rfl, rfl,
    (Res.leaves_done (writeBit_frame b s) hw).onlyWriterSide⟩
  · simp [drained, Bw.reset, hf]
  · simp [drained]

/-! ### WFLUSH, WRST and the start check -/

/-- Settles O23: what `Flush()` of a writer that can work does, and what it hands over. -/
theorem wflushPadsAndHandsOverEverything : Obligations.WflushPadsAndHandsOverEverything := by
  intro s hs
  obtain ⟨t, hflush, _, hfr, hbw, hbits, hbytes, htx⟩ := flush_live hs
  have hsize := length_completeByte_w_buf_le s
  have hbuf := (hs.inv hs.noFail).2
  refine ⟨_, execWflush_of_done hs.noFail hflush, congrArg Bw.w_cnt hbw, congrArg Bw.w_buf hbw,
    congrArg Bw.w_acc hbw, congrArg Bw.w_fail hbw, hbits, ?_, fun hc hb => ?_, fun hne => ?_, hfr.onlyWriterSide⟩
  · rw [respond_responses, hfr.host]
    rfl
  · rw [flush_of_empty hc hb] at hflush
    cases hflush
    rfl
  · have hne := completeByte_w_buf_ne_nil hne
    rw [if_neg hne] at htx
    exact ⟨_, htx, hbytes, List.length_pos_iff.mpr hne, by omega⟩

/-- Settles O24: WRST is the recovery of the writer side. -/
theorem wrstReturnsTheWriterToReset : Obligations.WrstReturnsTheWriterToReset := fun _ => rfl

/-- Between commands an exception leaves nothing but its response (R175). -/
theorem raise_of_idle {s : State} (h : s.phase = .idle) (e : Exc) :
    raise e s = { s with host := s.host.answered e.status 0#9 } := by
  rw [raise, respond, ← h]
  rfl

/-- While the writer has failed, the start check answers (R110). -/
theorem writerSide_of_fail {s : State} (h : s.bw.w_fail = true) (body : Result) :
    writerSide s body = .next (raise .ioError s) := by
  simp only [writerSide, h, if_true]

/-- Settles O25: WBIT, WFLUSH and TSER begin with the start check, WRST does not. -/
theorem failedWriterOnlyAnswersIoErr : Obligations.FailedWriterOnlyAnswersIoErr := by
  intro s i hp hf
  have hraise : raise .ioError s = { s with host := { s.host with responses := s.host.responses ++ [0x2000#16] } } :=
    raise_of_idle hp .ioError
  refine ⟨?_, ?_⟩
  · rw [← hraise]
    rintro (⟨b, rfl⟩ | rfl | ⟨root, rfl⟩) <;> exact writerSide_of_fail hf _
  · rintro rfl
    exact ⟨_, rfl, rfl, rfl⟩

/-! ### A drain that fails in WBIT, in WFLUSH and in a pass of TSER -/

theorem execWbit_of_raised {b : Bool} {s t : State} {e : Exc} (hf : s.bw.w_fail = false)
    (h : writeBit b s = .raised e t) : exec (.wbit b) s = .next (raise e t) := by
  simp only [exec, execWbit, writerSide, hf, h, Res.bind_raised, endCommand, Bool.false_eq_true, if_false]

theorem execWflush_of_raised {s t : State} {e : Exc} (hf : s.bw.w_fail = false) (h : flush s = .raised e t) :
    exec .wflush s = .next (raise e t) := by
  simp only [exec, execWflush, writerSide, hf, h, Res.bind_raised, endCommand, Bool.false_eq_true, if_false]

theorem execNodeInternal_of_raised {sym : Symbol} {l r : NodeIdx} {s t : State} {e : Exc} (hn : s.tc.t_nint ≠ 255)
    (h : writeBit true s = .raised e t) : exec (.nodeInternal sym l r) s = .next (raise e t) := by
  simp only [exec, execNodeInternal, Config.maxInternal, hn, h, if_false]

theorem execNodeLeaf_of_raised {sym : Symbol} {l r : NodeIdx} {s t : State} {e : Exc}
    (h : writeBitList (leafRecord sym) s = .raised e t) : exec (.nodeLeaf sym l r) s = .next (raise e t) := by
  simp only [exec, execNodeLeaf_eq, h]

theorem writeBit_of_failed_drain {s : State} {kept : Nat} (hk : s.bw.w_cnt = 7)
    (hfull : s.bw.w_buf.length + 1 = s.chunkBytes) (ha : nextSinkAnswer s = .fail kept) (b : Bool) :
    writeBit b s = .raised .ioError (failedDrain kept (pushByte (setStreamBit s.bw.w_acc 7 b) s)) :=
  (writeBit_of_full hk hfull b).trans (drain_of_fail (by simp) ha)

theorem nextSinkAnswer_congr {s t : State} (h : t.sink = s.sink) : nextSinkAnswer t = nextSinkAnswer s := by
  rw [nextSinkAnswer, nextSinkAnswer, h]

theorem flush_of_failed_drain {s : State} {kept : Nat} (hne : s.bw.w_cnt ≠ 0 ∨ s.bw.w_buf ≠ [])
    (ha : nextSinkAnswer s = .fail kept) : flush s = .raised .ioError (failedDrain kept (completeByte s)) := by
  rw [← nextSinkAnswer_congr (completeByte_sink s)] at ha
  rw [flush, drain_of_fail (completeByte_w_buf_ne_nil hne) ha, Res.bind_raised]

theorem answers_of_fail {s : State} {kept : Nat} (h : nextSinkAnswer s = .fail kept) :
    ∃ rest, s.sink.answers = .fail kept :: rest := by
  unfold nextSinkAnswer at h
  split at h
  · cases h
  · exact ⟨_, by rw [← h]; assumption⟩

/-- A record of a leaf completes the byte that fills the buffer (R88, R114). -/
theorem writeBitList_leafRecord_fails (sym : Symbol) {s : State} {kept : Nat}
    (hfull : s.bw.w_buf.length + 1 = s.chunkBytes) (ha : nextSinkAnswer s = .fail kept) :
    ∃ u, writeBitList (leafRecord sym) s = .raised .ioError u ∧ u.bw.w_fail = true
      ∧ u.sink.bytes = s.sink.bytes
        ++ (s.bw.w_buf ++ (pack (topBits s.bw.w_acc s.bw.w_cnt.val ++ leafRecord sym)).take 1).take kept := by
  obtain ⟨rest, ha⟩ := answers_of_fail ha
  obtain ⟨u, hw, hfail, hbytes, _⟩ := writeBitList_fails (leafRecord sym) (s := s) (k := 0) (by omega) ha
    (by rw [length_leafRecord]; omega)
  refine ⟨u, hw, hfail, ?_⟩
  rw [hbytes, bytesWith, ← hfull]
  simp [List.take_length_add_append]

/-- The command or pass that ends with what a writer operation raised is answered IOERR (R175). -/
theorem raise_ioError_of_frame {s u : State} (h : WriterFrame s u) :
    (raise .ioError u).host.responses = s.host.responses ++ [0x2000#16] ∧ OnlyWriterSide s (raise .ioError u) :=
  ⟨congrArg HostPort.responses (host_raise .ioError h.host), h.onlyWriterSide⟩

/-- Settles O22: the drain fails in the one bit of a WBIT or a flag, in the flush, or within the record of a leaf. -/
theorem failedDrainAnswersIoErr : Obligations.FailedDrainAnswersIoErr := by
  refine ⟨fun b s kept hf hk hfull ha => ?_, fun s kept hf hne ha => ?_, fun sym l r s kept _ hk hfull ha hn => ?_,
    fun sym l r s kept _ hfull ha => ?_⟩
  · have hw := writeBit_of_failed_drain hk hfull ha b
    obtain ⟨hresp, hframe⟩ := raise_ioError_of_frame (Res.leaves_raised (writeBit_frame b s) hw)
    exact ⟨_, execWbit_of_raised hf hw, rfl, rfl, rfl, hresp, hframe⟩
  · have hw := flush_of_failed_drain hne ha
    obtain ⟨hresp, hframe⟩ := raise_ioError_of_frame (Res.leaves_raised (flush_frame s) hw)
    exact ⟨_, execWflush_of_raised hf hw, rfl, by simp [failedDrain, completeByte_w_buf], hresp, hframe⟩
  · have hw := writeBit_of_failed_drain hk hfull ha true
    obtain ⟨hresp, hframe⟩ := raise_ioError_of_frame (Res.leaves_raised (writeBit_frame true s) hw)
    exact ⟨_, execNodeInternal_of_raised hn hw, rfl, rfl, rfl, hresp, hframe⟩
  · obtain ⟨u, hw, hfail, hbytes⟩ := writeBitList_leafRecord_fails sym hfull ha
    obtain ⟨hresp, hframe⟩ := raise_ioError_of_frame (Res.leaves_raised (writeBitList_frame _ s) hw)
    exact ⟨_, execNodeLeaf_of_raised hw, hfail, hbytes, rfl, hresp, hframe⟩

/-! ### A drain that fails inside TSER -/

/-- A pass of TSER: its transactions went well and it goes on or answers another status than IOERR, or one of them failed
and it answers IOERR. -/
def PassWrites (s t : State) : Prop :=
  (WritesWell s t ∧ ((t.phase = .serializing ∧ t.host = s.host) ∨ (t.phase = .idle ∧ AnsweredWell s t)))
    ∨ (WriteFailed s t ∧ t.phase = .idle ∧ t.host = s.host.answered .ioErr 0#9)

/-- A writer operation that raised ends the pass with IOERR (R153, R175). -/
theorem PassWrites.of_raised {α : Type} {s u : State} {r : Res α} {e : Exc} (h : r = .raised e u)
    (hfr : r.leaves (WriterFrame s)) (hio : r.onlyIoError) (hw : r.raisesOnFailedWrite s) :
    PassWrites s (raise e u) := by
  subst h
  cases hio
  exact .inr ⟨⟨hw.chunks, hw.fail⟩, rfl, host_raise .ioError hfr.host⟩

theorem execNodeInternal_writes {sym : Symbol} {l r : NodeIdx} {s t : State}
    (h : execNodeInternal sym l r s = .next t) : PassWrites s t := by
  have hfr := writeBit_frame true s
  have hw := writeBit_raisesOnFailedWrite true s
  obtain ⟨_, h'⟩ | ⟨_, e, u, hu, h'⟩ | ⟨_, u, hu, h'⟩ := execNodeInternal_cases sym l r s <;> rw [h'] at h <;> cases h
  · exact .inl ⟨.of_eq rfl rfl, .inr ⟨rfl, .badTree, 0#9, rfl, by simp⟩⟩
  · exact .of_raised hu hfr (writeBit_onlyIoError true s) hw
  · rw [hu] at hfr hw
    exact .inl ⟨⟨hw.chunks, hw.fail⟩, .inl ⟨rfl, hfr.host⟩⟩

theorem execNodeLeaf_writes {sym : Symbol} {l r : NodeIdx} {s t : State} (h : execNodeLeaf sym l r s = .next t) :
    PassWrites s t := by
  have hfr := writeBitList_frame (leafRecord sym) s
  have hw := writeBitList_raisesOnFailedWrite (leafRecord sym) s
  obtain ⟨e, u, hu, h'⟩ | ⟨u, hu, _, h'⟩ | ⟨u, top, below, hu, _, h'⟩ := execNodeLeaf_cases sym l r s <;>
    rw [h'] at h <;> cases h
  · exact .of_raised hu hfr (writeBitList_onlyIoError _ s) hw
  · rw [hu] at hfr hw
    exact .inl ⟨⟨hw.chunks, hw.fail⟩, .inr ⟨rfl, .ok, _, congrArg (HostPort.answered · _ _) hfr.host, by simp⟩⟩
  · rw [hu] at hfr hw
    exact .inl ⟨⟨hw.chunks, hw.fail⟩, .inl ⟨rfl, hfr.host⟩⟩

theorem serializePass_writes {s t : State} (h : serializePass s = .next t) : PassWrites s t := by
  unfold serializePass at h
  split at h
  · cases h
  · split at h
    · exact execNodeInternal_writes h
    · exact execNodeLeaf_writes h

/-- TSER's loop, once ended: all its transactions went well and the answer is not IOERR, or one failed and it is. -/
theorem serializeLoop_writesWell_or_failed (n : Nat) {s t : State} (hp : s.phase = .serializing)
    (ht : t.phase = .idle) (h : codecLoop serializePass n s = .next t) :
    (WritesWell s t ∧ AnsweredWell s t) ∨ (WriteFailed s t ∧ t.host = s.host.answered .ioErr 0#9) := by
  induction n generalizing s with
  | zero =>
    cases h
    rw [hp] at ht
    cases ht
  | succ n ih =>
    rw [codecLoop_succ _ _ (by rw [hp]; simp)] at h
    cases hu : serializePass s with
    | fault f => rw [hu] at h; cases h
    | refused r => rw [hu] at h; cases h
    | next u =>
      rw [hu, afterPass] at h
      have stop (hi : u.phase = .idle) : u = t := by
        rw [codecLoop_idle _ _ hi] at h
        cases h
        rfl
      obtain ⟨hw, ⟨hpu, hh⟩ | ⟨hi, ha⟩⟩ | ⟨hf, hi, ha⟩ := serializePass_writes hu
      · rw [AnsweredWell, ← hh]
        exact (ih hpu h).imp (fun ⟨k, a⟩ => ⟨hw.trans k, a⟩) fun ⟨k, a⟩ => ⟨hw.trans_failed k, a⟩
      · cases stop hi
        exact .inl ⟨hw, ha⟩
      · cases stop hi
        exact .inr ⟨hf, ha⟩

/-- An answer that is not IOERR is not the response 0x2000 (R83, R85). -/
theorem AnsweredWell.responses_ne {s t : State} (h : AnsweredWell s t) :
    t.host.responses ≠ s.host.responses ++ [0x2000#16] := by
  obtain ⟨st, d, hhost, hst⟩ := h
  intro hr
  have hlast : LastStatus t .ioErr := by rw [LastStatus, hr, List.getLast?_concat]; rfl
  exact hst ((lastStatus_answered hhost _).mp hlast)

/-- A walk that meets at most 255 internal nodes is one TSER has the passes for (R152, R158). -/
theorem visits_le_codecFuel {m : Arena} {n : Nat} {root : NodeIdx} {rs : List Record} (h : m.visits n [root] = some rs)
    (hi : internalsIn rs ≤ 255) : n ≤ codecFuel := by
  have hlen := Arena.visits_length h
  have hcounts := Arena.visits_counts h
  have hsum := internalsIn_add_leavesIn rs
  simp only [List.length_singleton] at hcounts
  simp only [codecFuel, Config.maxInternal, Config.maxLeaves]
  omega

/-- Settles O60: (a) the writer raises while it takes the bits of the records met, and the loop ends with that; (b) every
pass ends the loop with IOERR exactly when a transaction it made failed. -/
theorem failedDrainInsideTserAnswersIoErr : Obligations.FailedDrainInsideTserAnswersIoErr := by
  refine ⟨fun root n k kept rs rest s hf hb hv hi ha hn => ?_, fun root s t hf h => ?_⟩
  · obtain ⟨u, hw, hfail, hbytes, hlen⟩ := writeBitList_fails (rs.flatMap Record.bits)
      (s := startCodec .serializing root s.tc.t_next s) hb ha hn
    obtain ⟨t, hloop, hbw, hsink, hhost, hidle, hfr⟩ := serializeLoop_raises n
      (s := startCodec .serializing root s.tc.t_next s) rfl hv (by simpa using hi) hw (codecFuel - n)
    rw [Nat.sub_add_cancel (visits_le_codecFuel hv hi)] at hloop
    exact ⟨t, _, (execTser_of_noFail hf root).trans hloop, rfl, by rw [hbw]; exact hfail, by rw [hhost]; rfl,
      by rw [hsink]; exact hbytes, by rw [hsink]; exact hlen, hidle, hfr.chunkBytes, hfr.br, hfr.src,
      memRead_congr hfr.node, hfr.pending, hfr.nodeReads⟩
  · have hl := (execTser_of_noFail hf root).symm.trans h
    obtain ⟨hw, ha⟩ | ⟨⟨hchunks, hfail⟩, hhost⟩ :=
      serializeLoop_writesWell_or_failed codecFuel rfl (serializeLoop_idle hl) hl
    · have hnot : t.bw.w_fail ≠ true := by rw [hw.fail, startCodec_bw, hf]; simp
      exact ⟨⟨fun k => absurd k hnot, fun k => absurd k ha.responses_ne⟩, fun k => absurd k hnot⟩
    · exact ⟨⟨fun _ => by rw [hhost]; rfl, fun _ => hfail⟩, fun _ => hchunks⟩

end Sys2Proof.Machine
end

section
/-! The bit reader (41_bitreader.md R130 to R136): one bit from the buffer, RALIGN, RRST, the start check, and the law of
the bits of SRC in order. -/

namespace Sys2Proof.Machine

/-! ### The reader's law (R136) -/

theorem OnlyReaderSide.trans {s t u : State} (h : OnlyReaderSide s t) (k : OnlyReaderSide t u) : OnlyReaderSide s u := by
  obtain ⟨h1, h2, h3, h4, h5, h6, h7, h8, h9⟩ := h
  obtain ⟨k1, k2, k3, k4, k5, k6, k7, k8, k9⟩ := k
  exact ⟨k1.trans h1, k2.trans h2, k3.trans h3, k4.trans h4, k5.trans h5, fun i => (k6 i).trans (h6 i), k7.trans h7,
    k8.trans h8, k9.trans h9⟩

theorem readerReady_of_reset {s : State} (hc : 1 ≤ s.chunkBytes) (hbr : s.br = Br.reset)
    (hp : s.src.src_pos ≤ s.src.bytes.length) (hn : SrcNeverFails s) : ReaderReady s :=
  ⟨hc, by rw [hbr]; rfl, (readerOk_of_reset hc hbr hp).2, hn⟩

theorem ReaderReady.alignCursor {s : State} (hs : ReaderReady s) : ReaderReady (alignCursor s) :=
  hs.ofOk (readerOk_alignCursor ⟨hs.chunk, hs.inv⟩) ((alignCursor_r_fail s).trans hs.noFail) (by simp)

/-- The bit of SRC at the reader's position is the first unread one (R30). -/
theorem getElem?_readPosition (s : State) : (unpack s.src.bytes)[readPosition s]? = (unreadBits s).head? :=
  List.head?_drop.symm

@[simp] theorem readPosition_respond (st : Status) (d : BitVec 9) (s : State) :
    readPosition (respond st d s) = readPosition s := rfl

theorem lawResponses_rbit_of_some {u : List Bool} {p : Nat} {b : Bool} (h : u[p]? = some b) (rest : List ReadMove) :
    lawResponses u p (.rbit :: rest) = okBit b :: lawResponses u (p + 1) rest := by
  simp only [lawResponses, h, okBit]

theorem lawResponses_rbit_of_none {u : List Bool} {p : Nat} (h : u[p]? = none) (rest : List ReadMove) :
    lawResponses u p (.rbit :: rest) = responseWord .eos 0#9 :: lawResponses u p rest := by
  simp only [lawResponses, h]

theorem lawResponses_ralign (u : List Bool) (p : Nat) (rest : List ReadMove) :
    lawResponses u p (.ralign :: rest) = responseWord .ok (BitVec.ofNat 9 ((8 - p % 8) % 8))
      :: lawResponses u (p + (8 - p % 8) % 8) rest := rfl

/-- From `s` to `t` a reader that can work has carried out `m` with the response the law demands, and the law goes on from
the position of `t`. -/
structure LawfulMove (m : ReadMove) (s t : State) : Prop where
  runs : exec m.instr s = .next t
  ready : ReaderReady t
  frame : OnlyReaderSide s t
  answers : ∃ rsp, t.host.responses = s.host.responses ++ [rsp] ∧ ∀ rest,
    lawResponses (unpack s.src.bytes) (readPosition s) (m :: rest)
      = rsp :: lawResponses (unpack s.src.bytes) (readPosition t) rest

/-- RBIT answers the next bit of SRC, or EOS when there is none (R133). -/
theorem lawfulMove_rbit {s : State} (hs : ReaderReady s) : ∃ t, LawfulMove .rbit s t := by
  have hnext := getElem?_readPosition s
  obtain ⟨b, t, hr, ht, hf, hu, hpos⟩ | ⟨t, hr, ht, hf, hu, _, hpos, _⟩ := readBit_live hs <;> rw [hu] at hnext
  · refine ⟨_, execRbit_of_some hs.noFail hr, ht.congr rfl rfl rfl, hf.onlyReaderSide, okBit b, ?_, fun rest => ?_⟩
    · rw [respond_responses, hf.host, okBit]
    · rw [lawResponses_rbit_of_some hnext, readPosition_respond, hpos]
  · refine ⟨_, execRbit_of_none hs.noFail hr, ht.congr rfl rfl rfl, hf.onlyReaderSide, responseWord .eos 0#9, ?_,
      fun rest => ?_⟩
    · rw [respond_responses, hf.host]
    · rw [lawResponses_rbit_of_none hnext, readPosition_respond, hpos]

/-- RALIGN answers the distance to the byte boundary and goes there (R134). -/
theorem lawfulMove_ralign {s : State} (hs : ReaderReady s) : ∃ t, LawfulMove .ralign s t := by
  refine ⟨_, execRalign_of_noFail hs.noFail, hs.alignCursor.congr rfl rfl rfl,
    (alignCursor_frame s).onlyReaderSide,
    responseWord .ok (BitVec.ofNat 9 (bitsToBoundary s.br.r_bit)), ?_, fun rest => ?_⟩
  · rw [respond_responses, alignCursor_host]
  · rw [readPosition_respond, readPosition_alignCursor, bitsToBoundary_r_bit, lawResponses_ralign]

theorem lawfulMove (m : ReadMove) {s : State} (hs : ReaderReady s) : ∃ t, LawfulMove m s t :=
  match m with
  | .rbit => lawfulMove_rbit hs
  | .ralign => lawfulMove_ralign hs

/-- The law from any position of a reader that can work, by induction over the moves. -/
theorem execSeq_readMoves (moves : List ReadMove) {s : State} (hs : ReaderReady s) :
    ∃ t, execSeq (moves.map ReadMove.instr) s = .next t
      ∧ t.host.responses = s.host.responses ++ lawResponses (unpack s.src.bytes) (readPosition s) moves
      ∧ OnlyReaderSide s t := by
  induction moves generalizing s with
  | nil => exact ⟨s, rfl, by simp [lawResponses], .refl s⟩
  | cons m moves ih =>
    obtain ⟨t, hrun, ht, hfr, rsp, hrsp, hlaw⟩ := lawfulMove m hs
    obtain ⟨u, hrun', hrsp', hfr'⟩ := ih ht
    have ⟨_, _, _, _, hbytes, _⟩ := hfr
    refine ⟨u, by rw [List.map_cons, execSeq_cons hrun, hrun'], ?_, hfr.trans hfr'⟩
    rw [hrsp', hrsp, hlaw, hbytes, List.append_assoc, List.singleton_append]

/-- The law from the start of SRC. -/
theorem execSeq_readMoves_of_reset (moves : List ReadMove) {s : State} (hc : 1 ≤ s.chunkBytes) (hbr : s.br = Br.reset)
    (hp : s.src.src_pos = 0) (hn : SrcNeverFails s) :
    ∃ t, execSeq (moves.map ReadMove.instr) s = .next t
      ∧ t.host.responses = s.host.responses ++ lawResponses (unpack s.src.bytes) 0 moves
      ∧ OnlyReaderSide s t := by
  have hpos : readPosition s = 0 := by rw [readPosition_of_reset hbr, hp]
  rw [← hpos]
  exact execSeq_readMoves moves (readerReady_of_reset hc hbr (by omega) hn)

/-- The bits of what a writer run leaves in SINK (R118): each segment, followed by its padding. -/
theorem unpack_flatMap_pack (segments : List (List Bool)) :
    unpack (segments.flatMap pack)
      = segments.flatMap fun g => g ++ List.replicate ((8 - g.length % 8) % 8) false := by
  simp only [← unpack_pack]
  exact List.flatMap_assoc

/-- Settles O35: by induction over the moves, each of which answers from the reader's position in SRC. -/
theorem readerDeliversSrcInOrder : Obligations.ReaderDeliversSrcInOrder := by
  refine ⟨fun s moves hc hbr hp hn => execSeq_readMoves_of_reset moves hc hbr hp hn,
    fun s segments moves hc hbr hp hn hsrc => ?_⟩
  obtain ⟨t, hrun, hrsp, _⟩ := execSeq_readMoves_of_reset moves hc hbr hp hn
  rw [hsrc, unpack_flatMap_pack] at hrsp
  exact ⟨t, hrun, hrsp⟩

/-! ### One bit from the buffer, and the cursor -/

theorem readBit_of_buffered {s : State} {byte : Byte} (h : s.br.r_buf[s.br.r_pos]? = some byte) :
    readBit s = .done (some (streamBit byte s.br.r_bit)) (advanceCursor s) := by
  simp only [readBit, h]

theorem advanceCursor_eq (s : State) : advanceCursor s = { s with br := { s.br with
    r_pos := if s.br.r_bit = 7 then s.br.r_pos + 1 else s.br.r_pos
    r_bit := if s.br.r_bit = 7 then 0 else s.br.r_bit + 1 } } := by
  unfold advanceCursor
  split_ifs <;> rfl

theorem alignCursor_eq (s : State) : alignCursor s = { s with br := { s.br with
    r_pos := if s.br.r_bit = 0 then s.br.r_pos else s.br.r_pos + 1, r_bit := 0 } } := by
  unfold alignCursor
  split_ifs with h
  · rw [← h]
  · rfl

/-- Settles O28: `ReadBit()` delivers from the buffer. -/
theorem rbitDeliversTheBitAtTheCursor : Obligations.RbitDeliversTheBitAtTheCursor := by
  intro s byte hf hb
  rw [← advanceCursor_eq]
  exact execRbit_of_some hf (readBit_of_buffered hb)

/-- Settles O32: the cursor moves to the byte boundary. -/
theorem ralignSkipsToTheByteBoundary : Obligations.RalignSkipsToTheByteBoundary := by
  intro s hf
  rw [← alignCursor_eq]
  exact execRalign_of_noFail hf

/-! ### RRST and the start check -/

/-- Settles O33: RRST is the recovery of the reader side. -/
theorem rrstReturnsTheReaderToReset : Obligations.RrstReturnsTheReaderToReset := fun _ => rfl

/-- While the reader has failed, the start check answers (R130). -/
theorem readerSide_of_fail {s : State} (h : s.br.r_fail = true) (body : Result) :
    readerSide s body = .next (raise .ioError s) := by
  simp only [readerSide, h, if_true]

/-- Settles O34: RBIT, RALIGN and TDES begin with the start check, RRST does not. -/
theorem failedReaderOnlyAnswersIoErr : Obligations.FailedReaderOnlyAnswersIoErr := by
  intro s i hp hf
  have hraise : raise .ioError s = { s with host := { s.host with responses := s.host.responses ++ [0x2000#16] } } :=
    raise_of_idle hp .ioError
  refine ⟨?_, ?_⟩
  · rw [← hraise]
    rintro (rfl | rfl | rfl) <;> exact readerSide_of_fail hf _
  · rintro rfl
    exact ⟨_, rfl, rfl, rfl⟩

end Sys2Proof.Machine
end

section
/-! The tree codec (42_treecodec.md R150 to R161): the two passes of TDES, TSER and TDES on a tree, what a TDES that
answered OK has read, how a TDES fails, and the 256th internal node. -/

namespace Sys2Proof.Machine

/-! ### The passes of TDES -/

theorem memRead_buildNode (v : NodeWord) (s : State) (i : NodeIdx) :
    memRead (buildNode v s) i = if i = nodeIdx s.tc.t_next then some v else memRead s i :=
  memRead_memWrite _ _ _ _

/-- A leaf of TDES that finds no parent waiting is the last one (R154). -/
theorem execLeaf_of_nil {s : State} (h : s.tc.t_stk = []) (sym : Symbol) :
    execLeaf sym s = .next (respond .ok (BitVec.ofNat 9 (s.tc.t_nleaf + 1))
      (countLeaf (buildNode (mkEntry false sym 0#9 0#9) s))) :=
  linkRight_nil h

/-- A leaf of TDES that finds a parent waiting is followed by that parent's right child (R154). -/
theorem execLeaf_of_cons {s : State} {p : NodeIdx} {below : List NodeIdx} (h : s.tc.t_stk = p :: below)
    (sym : Symbol) :
    execLeaf sym s = .next { memWrite p (mkEntry true 0#8 (p + 1#9) (nodeIdx (s.tc.t_next + 1)))
        (countLeaf (buildNode (mkEntry false sym 0#9 0#9) s)) with
      phase := .deserializing
      tc := { s.tc with t_next := s.tc.t_next + 1, t_nleaf := s.tc.t_nleaf + 1, t_stk := below } } := by
  have hstk : (countLeaf (buildNode (mkEntry false sym 0#9 0#9) s)).tc.t_stk = p :: below := h
  simp only [execLeaf, linkRight, hstk]
  rfl

/-- Settles O38, by whether a parent waits; one that does lies below the leaf, so its link is another entry. -/
theorem leafPassBuildsTheLeaf : Obligations.LeafPassBuildsTheLeaf := by
  intro sym s hn hstk
  have hleaf := memRead_buildNode (mkEntry false sym 0#9 0#9) s
  cases hs : s.tc.t_stk with
  | nil =>
    refine ⟨_, execLeaf_of_nil hs sym, (hleaf _).trans (if_pos rfl), rfl, rfl, rfl,
      fun _ => ⟨rfl, rfl, fun i hi => (hleaf i).trans (if_neg hi)⟩, fun _ _ h => absurd h (by simp),
      rfl, rfl, rfl, rfl, rfl, rfl, rfl⟩
  | cons p below =>
    have hlt : p.toNat < s.tc.t_next := hstk p (by rw [hs]; exact List.mem_cons_self)
    have hne : nodeIdx s.tc.t_next ≠ p := fun h => by
      rw [← h, toNat_nodeIdx (by omega)] at hlt
      exact Nat.lt_irrefl _ hlt
    have hlink := fun i => memRead_memWrite p i (mkEntry true 0#8 (p + 1#9) (nodeIdx (s.tc.t_next + 1)))
      (countLeaf (buildNode (mkEntry false sym 0#9 0#9) s))
    refine ⟨_, execLeaf_of_cons hs sym, ?_, rfl, rfl, rfl, fun h => absurd h (by simp), fun q rest h => ?_,
      rfl, rfl, rfl, rfl, rfl, rfl, rfl⟩
    · exact ((hlink _).trans (if_neg hne)).trans ((hleaf _).trans (if_pos rfl))
    · cases h
      exact ⟨rfl, rfl, (hlink p).trans (if_pos rfl), rfl,
        fun i hi hip => ((hlink i).trans (if_neg hip)).trans ((hleaf i).trans (if_neg hi))⟩

theorem execInternal_of_ne {s : State} (h : s.tc.t_nint ≠ 255) :
    execInternal s = .next (openNode (nodeIdx s.tc.t_next)
      (buildNode (mkEntry true 0#8 (nodeIdx (s.tc.t_next + 1)) 0#9) s)) :=
  if_neg h

theorem execInternal_of_eq {s : State} (h : s.tc.t_nint = 255) :
    execInternal s = .next (raiseInTdes .corruptTree s) :=
  if_pos h

/-- Settles O39: the capacity test lets the node through, and it is built. -/
theorem internalPassOpensANode : Obligations.InternalPassOpensANode := by
  intro s hn
  exact ⟨_, execInternal_of_ne hn, rfl, rfl, memRead_buildNode _ s, rfl, rfl, rfl, rfl, rfl, rfl⟩

/-! ### TSER on a tree -/

theorem length_acceptedBits (s : State) :
    (acceptedBits s).length = 8 * (s.sink.bytes.length + s.bw.w_buf.length) + s.bw.w_cnt.val := by
  have hcnt : s.bw.w_cnt.val ≤ 8 := by omega
  rw [acceptedBits, List.length_append, length_unpack, List.length_append, length_topBits _ hcnt]

/-- What a writer that can work still holds is less than one full buffer. -/
theorem WriterReady.pending_lt {s : State} (h : WriterReady s) :
    8 * s.bw.w_buf.length + s.bw.w_cnt.val < 8 * s.chunkBytes := by
  obtain ⟨_, hlen⟩ := h.inv h.noFail
  omega

/-- Transactions of full buffers only: there is one for each buffer the pending and the new bits fill (R216). -/
theorem FullChunks.count {s t : State} {txs : List (List Byte)} {bits : List Bool} (h : FullChunks s t txs)
    (ht : WriterReady t) (hc : t.chunkBytes = s.chunkBytes) (hb : acceptedBits t = acceptedBits s ++ bits) :
    t.sink.tx.length = s.sink.tx.length
      + (8 * s.bw.w_buf.length + s.bw.w_cnt.val + bits.length) / (8 * s.chunkBytes) := by
  have hpending := hc ▸ ht.pending_lt
  have hsum : t.sink.bytes.length = s.sink.bytes.length + txs.length * s.chunkBytes := by
    rw [h.bytes, List.length_append, List.length_flatten, List.map_congr_left h.full, List.map_const',
      List.sum_replicate, smul_eq_mul]
  have hlen := congrArg List.length hb
  rw [List.length_append, length_acceptedBits, length_acceptedBits, hsum] at hlen
  have hsplit : 8 * s.bw.w_buf.length + s.bw.w_cnt.val + bits.length
      = 8 * t.bw.w_buf.length + t.bw.w_cnt.val + 8 * s.chunkBytes * txs.length := by
    rw [Nat.mul_assoc, Nat.mul_comm s.chunkBytes]
    omega
  rw [hsplit, Nat.add_mul_div_left _ _ (by omega), Nat.div_eq_of_lt hpending, h.tx, List.length_append, Nat.zero_add]

/-- Settles O42: what TSER's loop has done with the tree, whose transactions are all of full buffers. -/
theorem tserWritesTheSerialization : Obligations.TserWritesTheSerialization := by
  intro T root s hs hT ht
  obtain ⟨u, txs, hu, hexec⟩ := execTser_tree hs hT ht
  have hbits : acceptedBits u = acceptedBits s ++ T.serialize := hu.bits
  have hchunks : FullChunks s u txs := ⟨hu.chunks.tx, hu.chunks.bytes, hu.chunks.full⟩
  refine ⟨_, hexec, hbits, hu.live.congr rfl rfl rfl, ?_, ?_, rfl, hu.frame.chunkBytes, hu.frame.br, hu.frame.src,
    memRead_congr hu.frame.node, hu.frame.pending, hu.frame.nodeReads⟩
  · rw [respond_responses, hu.host]
    rfl
  · rw [← T.length_serialize]
    exact hchunks.count hu.live hu.frame.chunkBytes hbits

/-! ### TDES on a tree -/

/-- Settles O43: what TDES's loop has done with the bits of the tree, which it has laid out from index 0. -/
theorem tdesBuildsTheLayout : Obligations.TdesBuildsTheLayout := by
  intro T rest s hs hT hu
  obtain ⟨u, hd, hrest, hexec⟩ := execTdes_tree hs hT hu
  refine ⟨_, hexec, hd.layout, hd.holdsTree hT rfl, fun i hi => hd.others _ (.inr ?_), hrest, ?_,
    hd.live.congr rfl rfl rfl, ?_, rfl, hd.frame.chunkBytes, hd.frame.bw, hd.frame.sink, hd.frame.srcBytes,
    hd.frame.pending, hd.frame.nodeReads⟩
  · simpa [Tree.size] using hi
  · rw [← T.length_serialize]
    exact hd.position
  · rw [respond_responses, hd.host]
    rfl

/-! ### What a TDES that answered OK has read -/

/-- A TDES that answered OK has consumed the serialization of a tree of at most 256 leaves (R154, R158). -/
theorem execTdes_ok_reads {s t : State} (hs : ReaderReady s) (h : exec .tdes s = .next t) (hok : LastStatus t .ok) :
    ∃ T : Tree, T.leaves ≤ 256 ∧ unreadBits s = T.serialize ++ unreadBits t := by
  have hloop := (execTdes_of_noFail hs.noFail).symm.trans h
  obtain ⟨ts, hlen, hbits, hn⟩ := deserializeLoop_reads codecFuel rfl
    (hs.congr (t := startCodec .deserializing s.tc.t_cur 0 s) rfl rfl rfl) (Nat.zero_le _) hloop
    (deserializeLoop_idle hloop) hok
  obtain ⟨T, rfl⟩ := List.length_eq_one_iff.mp hlen
  have hleaves := T.leaves_eq
  simp only [startCodec_tc, internalsAll, List.map_cons, List.map_nil, List.sum_singleton] at hn
  rw [serializeAll, List.flatMap_singleton] at hbits
  exact ⟨T, by omega, hbits⟩

/-- Settles O44: TDES has read a tree, and on its bits TDES builds the layout. -/
theorem successfulTdesConsumedATree : Obligations.SuccessfulTdesConsumedATree := by
  intro s t hs h hok
  obtain ⟨T, hT, hbits⟩ := execTdes_ok_reads hs h hok
  obtain ⟨t', ht', hlayout, _, _, _, _, _, hresp, _⟩ := tdesBuildsTheLayout T _ s hs hT hbits
  cases h.symm.trans ht'
  exact ⟨T, hT, hbits, hlayout, by rw [LastOk, hresp, List.getLast?_concat]⟩

/-- Settles O45: (a) the bits TSER wrote are the serialization of its tree; (b) TDES read the serialization of the tree
it left at index 0. -/
theorem treeRoundTrips : Obligations.TreeRoundTrips := by
  refine ⟨fun T root s t u q rest hs hT ht h hq hu hrest => ?_, fun s t q hs hw h hok hq => ?_⟩
  · obtain ⟨t', ht', hbits, _⟩ := tserWritesTheSerialization T root s hs hT ht
    cases h.symm.trans ht'
    have hqT : q = T.serialize := List.append_cancel_left (hq.symm.trans hbits)
    obtain ⟨v, hv, _, htree, _, _, _, _, hresp, _⟩ := tdesBuildsTheLayout T rest u hu hT (hqT ▸ hrest)
    exact ⟨v, hv, by rw [LastOk, hresp, List.getLast?_concat], htree⟩
  · obtain ⟨T, hT, hbits⟩ := execTdes_ok_reads hs h hok
    have hqT : q = T.serialize := List.append_cancel_right (hq.symm.trans hbits)
    obtain ⟨t', ht', _, htree, _, _, _, _, _, _, hchunk, hbw, hsink, _⟩ := tdesBuildsTheLayout T _ s hs hT hbits
    cases h.symm.trans ht'
    obtain ⟨u, hu, hwritten, _, hresp, _⟩ :=
      tserWritesTheSerialization T 0#9 t (hw.congr hchunk hbw hsink) hT htree
    refine ⟨u, hu, hqT ▸ hwritten, ?_⟩
    rw [LastStatus, hresp, List.getLast?_concat, Option.map_some, rspStatus_responseWord]

/-! ### How a TDES fails -/

/-- Without a failing transaction a pass of TDES leaves a reader that can work. -/
theorem deserializePass_readerReady {s t : State} (hs : ReaderReady s) (h : deserializePass s = .next t) :
    ReaderReady t := by
  obtain ⟨r, u, hf, hu, _⟩ := fetchRecord_live hs
  cases r with
  | none =>
    simp only [deserializePass, hf] at h
    cases h
    exact hu.congr rfl rfl rfl
  | some r =>
    simp only [deserializePass, hf] at h
    obtain ⟨hbr, hsrc⟩ := execRecord_br_src h
    exact hu.congr (execRecord_spec h).frame.chunkBytes hbr hsrc

theorem execTdes_readerReady {s t : State} (hs : ReaderReady s) (h : execTdes s = .next t) : ReaderReady t :=
  codecLoop_keeps (fun _ _ hu _ hv => deserializePass_readerReady hu hv) codecFuel
    (hs.congr (t := startCodec .deserializing s.tc.t_cur 0 s) rfl rfl rfl) ((execTdes_of_noFail hs.noFail).symm.trans h)

theorem responseWord_of_ne_ok {st : Status} (h : st ≠ .ok) (d : BitVec 9) :
    responseWord st d = responseWord st 0#9 := by
  simp only [responseWord, if_neg h]

/-- Without a failing transaction TDES answers OK or CORRUPT_TREE (R154). -/
theorem execTdes_ok_or_corruptTree {s : State} (hs : ReaderReady s) :
    ∃ t, exec .tdes s = .next t ∧ (LastStatus t .ok ∨ t.host.responses = s.host.responses ++ [0x3000#16]) := by
  obtain ⟨t, hloop⟩ := deserializeLoop_next codecFuel (startCodec .deserializing s.tc.t_cur 0 s)
  have h : exec .tdes s = .next t := (execTdes_of_noFail hs.noFail).trans hloop
  obtain ⟨st, d, hhost, hst, _⟩ := execTdes_answeredOnce h
  refine ⟨t, h, ?_⟩
  obtain rfl | rfl | rfl : st = .ok ∨ st = .ioErr ∨ st = .corruptTree := by simpa [commandStatuses] using hst
  · exact .inl ((lastStatus_answered hhost _).mpr rfl)
  · obtain ⟨_, _, hfailed, hreads⟩ := failedRefillAnswersIoErr.2.2 s t hs.noFail h
    obtain ⟨hset, _⟩ := hfailed (hreads (.inl ((lastStatus_answered hhost _).mpr rfl)))
    exact absurd ((execTdes_readerReady hs h).noFail.symm.trans hset) (by simp)
  · refine .inr ?_
    rw [hhost, HostPort.answered, responseWord_of_ne_ok (by simp)]
    rfl

/-- Settles O48: an OK would have read a whole tree, which is no proper beginning of another (R89). -/
theorem truncatedTreeIsCorrupt : Obligations.TruncatedTreeIsCorrupt := by
  intro T missing s hs hm hT
  obtain ⟨t, ht, hok | hcorrupt⟩ := execTdes_ok_or_corruptTree hs
  · obtain ⟨U, _, hU⟩ := execTdes_ok_reads hs ht hok
    have happend : T.serialize ++ [] = U.serialize ++ (unreadBits t ++ missing) := by
      rw [List.append_nil, ← List.append_assoc, ← hU, hT]
    obtain ⟨_, hnil⟩ := serialize_append_inj happend
    exact absurd (List.append_eq_nil_iff.mp hnil.symm).2 hm
  · exact ⟨t, ht, hcorrupt⟩

/-- The pass that ends TDES has answered OK, or it leaves no value in NODE[0..510] (R161). -/
theorem deserializePass_ok_or_spoils {s t : State} (h : deserializePass s = .next t) (hi : t.phase = .idle) :
    LastStatus t .ok ∨ ∀ i, i ≤ 510 → Arena.get? t.node i = none := by
  have spoiled (u : State) (i : Nat) (hle : i ≤ 510) : Arena.get? (spoilNode u).node i = none := by
    rw [spoilNode_node, Arena.get?_spoil, if_pos hle]
  obtain ⟨r, u, _, h'⟩ | ⟨u, _, h'⟩ | ⟨e, u, _, h'⟩ := deserializePass_cases s <;> rw [h'] at h
  · cases r with
    | leaf sym =>
      cases hs : u.tc.t_stk with
      | nil =>
        cases (execLeaf_of_nil hs sym).symm.trans h
        exact .inl ((lastStatus_answered (s := u) rfl _).mpr rfl)
      | cons p below =>
        cases (execLeaf_of_cons hs sym).symm.trans h
        cases hi
    | internal =>
      by_cases hn : u.tc.t_nint = 255
      · cases (execInternal_of_eq hn).symm.trans h
        exact .inr (spoiled u)
      · cases (execInternal_of_ne hn).symm.trans h
        cases hi
  · cases h
    exact .inr (spoiled u)
  · cases h
    exact .inr (spoiled u)

/-- Settles O49: the pass that ends the loop answers OK or spoils NODE, and no pass writes entry 511. -/
theorem failedTdesLeavesNoTree : Obligations.FailedTdesLeavesNoTree := by
  intro s t h
  refine ⟨fun hf => ?_, fun hf hnot i hi => ?_, execTdes_511 h⟩
  · have hr := (readerSide_of_fail hf _).symm.trans h
    cases hr
    rfl
  · have hloop := (execTdes_of_noFail hf).symm.trans h
    have hend := codecLoop_keeps (s := startCodec .deserializing s.tc.t_cur 0 s)
      (P := fun u => u.phase = .idle → LastStatus u .ok ∨ ∀ i, i ≤ 510 → Arena.get? u.node i = none)
      (fun _ _ _ _ hv => deserializePass_ok_or_spoils hv) codecFuel (fun hidle => by cases hidle) hloop
    exact (hend (deserializeLoop_idle hloop)).resolve_left hnot i.toNat hi

/-! ### The 256th internal node -/

/-- The passes of a loop that n records leave over, those n, and one more (R152). -/
theorem codecFuel_eq_add {n : Nat} (h : n ≤ 511) : 511 - n + n + 1 = codecFuel := by
  simp only [codecFuel, Config.maxInternal, Config.maxLeaves]
  omega

/-- TSER has answered BAD_TREE, having written the records `rs` (R158, R177). -/
structure RefusedAfter (rs : List Record) (s t : State) : Prop where
  responses : t.host.responses = s.host.responses ++ [0x4000#16]
  bits : acceptedBits t = acceptedBits s ++ rs.flatMap Record.bits
  ready : WriterReady t
  idle : t.phase = .idle
  frame : SerializeFrame s t

/-- TSER on a walk that meets 255 internal nodes and then another one. -/
theorem execTser_badTree {root : NodeIdx} {rs : List Record} {s : State} (hs : WriterReady s)
    (hv : Arena.visits s.node (rs.length + 1) [root] = some (rs ++ [.internal])) (hi : internalsIn rs = 255) :
    ∃ t, exec (.tser root) s = .next t ∧ RefusedAfter rs s t := by
  have hlt := Arena.visits_counts_lt hv
  have hsum := internalsIn_add_leavesIn rs
  rw [List.length_singleton] at hlt
  obtain ⟨t, hloop, hhost, hbits, hready, hidle, hfr⟩ := serializeLoop_badTree rs
    (s := startCodec .serializing root s.tc.t_next s) rfl (hs.congr rfl rfl rfl) hv (by simpa using hi)
    (511 - rs.length)
  rw [codecFuel_eq_add (by omega)] at hloop
  exact ⟨t, (execTser_of_noFail hs.noFail root).trans hloop, by rw [hhost]; rfl, hbits, hready, hidle,
    (startCodec_writerStep .serializing root s.tc.t_next s).frame.trans hfr⟩

/-- TDES on records that complete no tree, 255 of them internal, and then a flag 1. -/
theorem execTdes_corruptTree {rs : List Record} {rest : List Bool} {s : State} (hs : ReaderReady s)
    (hu : unreadBits s = rs.flatMap Record.bits ++ true :: rest) (hi : internalsIn rs = 255)
    (hl : ∀ k, leavesIn (rs.take k) ≤ internalsIn (rs.take k)) :
    ∃ t, exec .tdes s = .next t ∧ t.host.responses = s.host.responses ++ [0x3000#16] ∧ unreadBits t = rest
      ∧ readPosition t = readPosition s + (rs.flatMap Record.bits).length + 1 ∧ ReaderReady t
      ∧ (∀ i, memRead t i = if i.toNat ≤ 510 then none else memRead s i) ∧ t.phase = .idle
      ∧ DeserializeFrame s t := by
  have hle := hl rs.length
  have hsum := internalsIn_add_leavesIn rs
  rw [List.take_length] at hle
  obtain ⟨t, hloop, hhost, hrest, hpos, hready, hidle, hfr, hnode⟩ := deserializeLoop_corruptTree rs
    (s := startCodec .deserializing s.tc.t_cur 0 s) rfl (hs.congr rfl rfl rfl) hu (by simpa using hi)
    (by simpa using hl) (511 - rs.length)
  rw [codecFuel_eq_add (by omega)] at hloop
  have h : exec .tdes s = .next t := (execTdes_of_noFail hs.noFail).trans hloop
  exact ⟨t, h, by rw [hhost]; rfl, hrest, hpos, hready, memRead_of_failed_tdes h hnode, hidle,
    (startCodec_readerStep .deserializing s.tc.t_cur 0 s).frame.trans hfr⟩

/-- Settles O40: the capacity test stops each pass at once, and each command after the records met before it. -/
theorem the256thInternalNodeIsRefused : Obligations.The256thInternalNodeIsRefused := by
  refine ⟨fun sym l r s hn => if_pos hn, fun s hn => ?_, fun root rs s hs hv hi => ?_, fun rs rest s hs hu hi hl => ?_⟩
  · exact ⟨_, execInternal_of_eq hn, rfl, rfl, memRead_spoilNode s, rfl, rfl, rfl, rfl, rfl⟩
  · obtain ⟨t, ht, h⟩ := execTser_badTree hs hv hi
    exact ⟨t, ht, h.responses, h.bits, h.ready, h.idle, h.frame.chunkBytes, h.frame.br, h.frame.src,
      memRead_congr h.frame.node, h.frame.pending, h.frame.nodeReads⟩
  · obtain ⟨t, ht, hresp, hrest, hpos, hready, hread, hidle, hfr⟩ := execTdes_corruptTree hs hu hi hl
    exact ⟨t, ht, hresp, hrest, hpos, hready, hread, hidle, hfr.chunkBytes, hfr.bw, hfr.sink, hfr.srcBytes,
      hfr.pending, hfr.nodeReads⟩

/-! ### Arenas that hold no tree TSER can write -/

/-- The walk through a tree of more than 256 leaves meets a 256th internal node (R152). -/
theorem Arena.visits_256th_of_large_tree {m : Arena} {T : Tree} {root : NodeIdx} (hT : 256 < T.leaves)
    (ht : m.holdsTree root T = true) :
    ∃ before after, T.serialize = before.flatMap Record.bits ++ true :: after ∧ internalsIn before = 255
      ∧ m.visits (before.length + 1) [root] = some (before ++ [.internal]) := by
  have hleaves := T.leaves_eq
  obtain ⟨rs, hbits, hint, _, hwalk⟩ := Arena.visits_tree T ht
  have hv : m.visits T.size [root] = some rs := by simpa using hwalk 0 []
  obtain ⟨before, after, rfl, hb, hvb⟩ := Arena.visits_to_256th hv (by omega)
  exact ⟨before, after.flatMap Record.bits, by rw [← hbits]; simp, hb, hvb⟩

/-- Where every entry that can be reached holds a value and there is no tree of at most 256 leaves at the root, the walk
meets a 256th internal node: it does not end within 512 entries, of which at most 256 are leaves (R152, R158). -/
theorem Arena.visits_256th_of_no_small_tree {m : Arena} {root : NodeIdx} (reachable : NodeIdx → Prop)
    (hroot : reachable root)
    (hc : ∀ i, reachable i → ∃ e, m.get? i.toNat = some e
      ∧ (entryKind e = true → reachable (entryLeft e) ∧ reachable (entryRight e)))
    (hlarge : ∀ T : Tree, m.holdsTree root T = true → 256 < T.leaves) :
    ∃ rs, internalsIn rs = 255 ∧ m.visits (rs.length + 1) [root] = some (rs ++ [.internal]) := by
  cases hv : m.visits 512 [root] with
  | none =>
    obtain ⟨Ts, htrees, hsize⟩ := Arena.trees_of_visits_none reachable hc 512 (by simpa using hroot) hv
    obtain ⟨T, Ts', ht, htail, rfl⟩ := List.forall₂_cons_left_iff.mp htrees
    cases htail
    have hT := hlarge T ht
    simp only [Tree.size, List.map_cons, List.map_nil, List.sum_singleton] at hsize
    omega
  | some rs =>
    have hlen := Arena.visits_length hv
    have hcounts := Arena.visits_counts hv
    have hsum := internalsIn_add_leavesIn rs
    rw [List.length_singleton] at hcounts
    obtain ⟨before, _, _, hb, hvb⟩ := Arena.visits_to_256th hv (by omega)
    exact ⟨before, hb, hvb⟩

theorem internalsIn_replicate_internal (n : Nat) : internalsIn (List.replicate n .internal) = n := by
  induction n with
  | zero => rfl
  | succ n ih => rw [List.replicate_succ, internalsIn_internal, ih]

theorem bits_replicate_internal (n : Nat) :
    (List.replicate n Record.internal).flatMap Record.bits = List.replicate n true := by
  induction n with
  | zero => rfl
  | succ n ih => rw [List.replicate_succ, List.flatMap_cons, ih, List.replicate_succ]; rfl

/-- The walk from an internal node that is its own left child meets nothing but internal nodes. -/
theorem Arena.visits_self_left {m : Arena} {root : NodeIdx} {e : NodeWord} (he : m.get? root.toNat = some e)
    (hk : entryKind e = true) (hl : entryLeft e = root) (n : Nat) (rest : List NodeIdx) :
    m.visits n (root :: rest) = some (List.replicate n .internal) := by
  induction n generalizing rest with
  | zero => exact Arena.visits_zero m _
  | succ n ih => rw [Arena.visits_internal n rest he hk, hl, ih, Option.map_some, List.replicate_succ]

/-- Settles O50: in each case the walk meets 255 internal nodes and then another one. -/
theorem cyclicOrTooLargeArenaIsABadTree : Obligations.CyclicOrTooLargeArenaIsABadTree := by
  refine ⟨fun T root s hs hT ht => ?_, fun root reachable s hs hroot hc hlarge => ?_, fun root e s hs he hk hl => ?_⟩
  · obtain ⟨rs, rest, hbits, hi, hv⟩ := Arena.visits_256th_of_large_tree hT ht
    obtain ⟨t, hexec, h⟩ := execTser_badTree hs hv hi
    exact ⟨t, rs, rest, hexec, h.responses, hbits, hi, h.bits, h.ready.noFail, memRead_congr h.frame.node⟩
  · obtain ⟨rs, hi, hv⟩ := Arena.visits_256th_of_no_small_tree reachable hroot hc hlarge
    obtain ⟨t, hexec, h⟩ := execTser_badTree hs hv hi
    exact ⟨t, rs, hexec, h.responses, hv, hi, h.bits, h.ready.noFail, memRead_congr h.frame.node⟩
  · have hv := Arena.visits_self_left he hk hl 256 []
    obtain ⟨t, hexec, h⟩ := execTser_badTree (rs := List.replicate 255 .internal) hs
      (by rw [List.length_replicate, hv, ← List.replicate_succ']) (internalsIn_replicate_internal 255)
    exact ⟨t, hexec, h.responses, by rw [h.bits, bits_replicate_internal], h.ready.noFail, memRead_congr h.frame.node⟩

end Sys2Proof.Machine
end
